-- ==== Sys2Proof/Word.lean ====
section
/-! DEFINITION. The word types of SDMMC-CORE (00_scope.md R6, R8). All values are unsigned; bit 0 is the
least significant bit. -/

namespace Sys2Proof

/-- A byte of a host buffer. -/
abbrev Byte := BitVec 8

/-- A 32-bit word: an argument, a response word, a FIFO word (`WORD_BITS`, `ARG_BITS` of R6). -/
abbrev Word := BitVec 32

/-- A relative card address (`RCA_BITS` of R6). -/
abbrev Rca := BitVec 16

/-- Four words of a Long response or of the card-specific data, `w0` the most significant (R9, R27). -/
structure Words4 where
  w0 : Word
  w1 : Word
  w2 : Word
  w3 : Word
  deriving DecidableEq, Repr, Inhabited

/-- Four zero words. -/
def Words4.zero : Words4 := ⟨0, 0, 0, 0⟩

end Sys2Proof
end

