-- ==== Sys2Proof/Syntax.lean ====
section
/-! DEFINITION. The operations of SDMMC-CORE as syntax: one constructor of `Instr` for each of the 29 rows of
spec/opcode_table.json, the enumerations their operands use, and the words in which
they are presented. -/

namespace Sys2Proof

/-- `expectedResponse` of a command frame (30_encoding.md R91, R93). The first three are the spec's values. -/
inductive Shape
  | none
  | short
  | long
  /-- Code 3, "not a value" (R93, R113(b)): a SENDCMD given it raises fault IllegalFrame (R317). -/
  | reserved
  deriving DecidableEq, Repr, Inhabited

/-- `crcPolicy` of a command frame (R91, R94). -/
inductive CrcPolicy
  | require
  | ignore
  deriving DecidableEq, Repr, Inhabited

/-- A CommandFrame (R26, R91). -/
structure Frame where
  index            : BitVec 6
  argument         : Word
  expectedResponse : Shape
  crcPolicy        : CrcPolicy
  deriving DecidableEq, Repr, Inhabited

/-- The card class (10_state.md R21). -/
inductive CardClass
  | unknown
  | standardCapacity
  | highCapacity
  | error
  deriving DecidableEq, Repr, Inhabited

/-- The operations, in the order of the opcode table. Operands that the spec ignores are not fields
(30_encoding.md R113(c), (f)). -/
inductive Instr
  -- Format H, the host operations (R96).
  | init
  | rdblk (block : Word)
  | wrblk (block : Word)
  | volsz
  | blksz
  | isro
  | lasterr
  | isbusy (address : Rca)
  | illegal0
  | illegal9
  | illegal10to11 (op : BitVec 4)
  | illegal12to15 (op : BitVec 4)
  -- Format T, the transport primitives (R92), and the pseudo-operation TXN (R115).
  | sendcmd (frame : Frame)
  | ack
  | txn (frame : Frame)
  -- Format C, the catalogue of card command frames (R112), each used as an operation (R115).
  | goIdle
  | sendIfCond
  | appCmd (rca : Rca)
  | sendOpCond (h : Bool)
  | publishRca
  | getCsd (rca : Rca)
  | setBlocklen
  | select (rca : Rca)
  | deselect
  | setBusWidth
  | readSingle (addr : Word)
  | writeSingle (addr : Word)
  | getStatus (rca : Rca)
  -- Format D, the capacity decoder (R110).
  | decode (cls : CardClass) (words : Words4)
  deriving DecidableEq, Repr

/-- A word presented at the port, in one of the formats of the opcode table (30_encoding.md R90). -/
inductive Request
  /-- Format H, a host operation (R95). -/
  | host (word : BitVec 36)
  /-- Format T, a transport primitive (R92). -/
  | transport (word : BitVec 42)
  /-- The pseudo-operation TXN of a frame word (R115). -/
  | transaction (word : BitVec 41)
  /-- Format C, a card command frame (R92). -/
  | card (word : BitVec 41)
  /-- Format D, the capacity decoder's input (R110). -/
  | decoder (word : BitVec 130)
  deriving DecidableEq, Repr

/-- Why the decoder gives no instruction. -/
inductive DecodeError
  /-- A format C word that matches no row of the catalogue (30_encoding.md R117). -/
  | notInCatalogue
  deriving DecidableEq, Repr

end Sys2Proof
end

