-- ==== Sys2Proof/Config.lean ====
section
/-! DEFINITION. The implementation parameters of 00_scope.md R7 as plain data, and the free values of the model.
A configuration is carried in the state (log 1): no step changes it, so a claim over every state is a claim over
every value of the parameters. -/

namespace Sys2Proof

/-- One shape's part of the parameter `ECHO_ACCEPT` (R7, 40_transport.md R133) as plain data: a function of
(index, echo) to Bool is its table, and the two cases the default needs have names (log 18). -/
inductive EchoRule
  /-- Accepted whatever the echo. -/
  | always
  /-- Accepted if and only if the echo equals the index of the command sent. -/
  | equal
  /-- Accepted exactly for the listed pairs (index, echo). -/
  | table (accepted : List (BitVec 6 × BitVec 6))
  deriving DecidableEq, Repr

/-- Whether an echo is accepted for a command index. -/
def EchoRule.accepts : EchoRule → BitVec 6 → BitVec 6 → Bool
  | .always, _, _ => true
  | .equal, index, echo => echo == index
  | .table accepted, index, echo => accepted.contains (index, echo)

/-- The parameters the source leaves open (00_scope.md R7). -/
structure Config where
  /-- `N_CMD`, the bound of the transport status poll (R131). -/
  nCmd : Nat
  /-- `N_OCR`, the bound of the operating-conditions loop (R176). -/
  nOcr : Nat
  /-- `N_RX`, the bound of the read drain loop (R220). -/
  nRx : Nat
  /-- `N_TX`, the bound of the write push loop (R228). -/
  nTx : Nat
  /-- `N_READY`, the bound of a ready-for-data loop (R223). -/
  nReady : Nat
  /-- `ECHO_ACCEPT` for `expectedResponse` = None. -/
  echoNone : EchoRule
  /-- `ECHO_ACCEPT` for `expectedResponse` = Short. -/
  echoShort : EchoRule
  /-- `ECHO_ACCEPT` for `expectedResponse` = Long. -/
  echoLong : EchoRule
  idxGoIdle : BitVec 6
  idxSendIfCond : BitVec 6
  idxAppCmd : BitVec 6
  idxSendOpCond : BitVec 6
  idxPublishRca : BitVec 6
  idxGetCsd : BitVec 6
  idxSetBlocklen : BitVec 6
  idxSelect : BitVec 6
  idxSetBusWidth : BitVec 6
  idxReadSingle : BitVec 6
  idxWriteSingle : BitVec 6
  idxGetStatus : BitVec 6
  /-- `IFCOND_ARG12` (30_encoding.md R99). -/
  ifcondArg12 : BitVec 12
  /-- `OPCOND_BASE` (R100). -/
  opcondBase : Word
  /-- `HCS_BIT`, the position of the high-capacity request (R100). -/
  hcsBit : Fin 32
  /-- `RFD_BIT`, the position of the ready-for-data flag (R109). -/
  rfdBit : Fin 32
  /-- `BUSWIDTH_STEP`, whether the optional step runs (42_init_sequencer.md R181). -/
  buswidthStep : Bool
  /-- `BUSWIDTH_ARG` (R103). -/
  buswidthArg : Word
  /-- `DESELECT_RCA` (R105). -/
  deselectRca : Rca
  deriving DecidableEq, Repr

/-- The column "default" of R7; for the parameters R7 leaves OPEN, the values its test vectors use (log 1). -/
def Config.defaults : Config where
  nCmd := 8
  nOcr := 4
  nRx := 1024
  nTx := 1024
  nReady := 4
  echoNone := .always
  echoShort := .equal
  echoLong := .always
  idxGoIdle := 0
  idxSendIfCond := 8
  idxAppCmd := 55
  idxSendOpCond := 41
  idxPublishRca := 3
  idxGetCsd := 9
  idxSetBlocklen := 16
  idxSelect := 7
  idxSetBusWidth := 6
  idxReadSingle := 17
  idxWriteSingle := 24
  idxGetStatus := 13
  ifcondArg12 := 0x1AA
  opcondBase := 0x00FF8000
  hcsBit := 30
  rfdBit := 8
  buswidthStep := false
  buswidthArg := 0x00000002
  deselectRca := 0x0000

/-- The limits of the column "type" of R7. -/
def Config.wf (c : Config) : Bool :=
  1 ≤ c.nCmd && 1 ≤ c.nOcr && 128 ≤ c.nRx && 128 ≤ c.nTx && 1 ≤ c.nReady
    && !c.opcondBase.getLsbD c.hcsBit.val && !(9 ≤ c.rfdBit.val && c.rfdBit.val ≤ 12)

/-- The twelve index parameters. -/
def Config.indices (c : Config) : List (BitVec 6) :=
  [c.idxGoIdle, c.idxSendIfCond, c.idxAppCmd, c.idxSendOpCond, c.idxPublishRca, c.idxGetCsd, c.idxSetBlocklen,
    c.idxSelect, c.idxSetBusWidth, c.idxReadSingle, c.idxWriteSingle, c.idxGetStatus]

/-- "the index parameters are pairwise distinct except for SELECT and DESELECT, which share an index" (R117). -/
def Config.distinctIndices (c : Config) : Bool := decide c.indices.Nodup

/-- One move of ENV: what it does to the state it owns before CORE's next interface access. The laws
20_memory.md R75 to R78 decide how much of it takes effect (`Env.apply` of Machine/Flags.lean). -/
structure EnvMove where
  /-- Latched flags it raises, numbered as `P.STA[4:0]`. -/
  raise : BitVec 5
  /-- The level it drives on `TXHE`. -/
  txhe : Bool
  /-- The value it puts into `P.RESPCMD`. -/
  respCmd : BitVec 6
  /-- The values it puts into `P.RESP[0..3]`; `w0` here is `P.RESP[0]`. -/
  resp : Words4
  /-- The value it puts into `P.DCOUNT`. -/
  dcount : Word
  /-- The words it places in the FIFO, oldest first. -/
  place : List Word
  /-- How many of the pushed words it takes from the FIFO. -/
  take : Nat
  deriving DecidableEq, Repr, Inhabited

/-- FREE VALUE (log 2): ENV's n-th move after the moves listed in the state have run out. No body: nothing can
be proved of it but what holds of every move. -/
opaque Config.freeMove : Nat → EnvMove

/-- FREE VALUE (log 17): byte `a` of the n-th unspecified content of RBUF (20_memory.md R62). -/
opaque Config.freeByte : Nat → Nat → Byte

end Sys2Proof
end

