-- ==== Sys2Proof/WellFormed.lean ====
section
/-! DEFINITION. The check of an instruction's operands. Every operand has the exact width the encoding gives it,
except the op code of the two illegal rows that stand for several codes. -/

namespace Sys2Proof

/-- An instruction is well-formed if its op code, where it carries one, lies in its row
(opcode_table.json, rows ILLEGAL_10_11 and ILLEGAL_12_15; 30_encoding.md R96). -/
def Instr.wf : Instr → Bool
  | .illegal10to11 op => op == 10#4 || op == 11#4
  | .illegal12to15 op => 12#4 ≤ op
  | .init | .rdblk _ | .wrblk _ | .volsz | .blksz | .isro | .lasterr | .isbusy _ => true
  | .illegal0 | .illegal9 => true
  | .sendcmd _ | .ack | .txn _ => true
  | .goIdle | .sendIfCond | .appCmd _ | .sendOpCond _ | .publishRca | .getCsd _ | .setBlocklen => true
  | .select _ | .deselect | .setBusWidth | .readSingle _ | .writeSingle _ | .getStatus _ => true
  | .decode _ _ => true

end Sys2Proof
end

