-- ==== Sys2Proof/Decode.lean ====
section
/-! DEFINITION. Decoding of the words presented at the port (30_encoding.md), and after it the encoder. The frames of
the catalogue (R112) stand here too: the encoder writes them and the machine sends them. -/

namespace Sys2Proof

/-! ## Codes of the enumerations an encoding holds -/

/-- R93. -/
def Shape.code : Shape → BitVec 2
  | .none => 0
  | .short => 1
  | .long => 2
  | .reserved => 3

/-- R93. -/
def Shape.ofCode (c : BitVec 2) : Shape :=
  match c.toNat with
  | 0 => .none
  | 1 => .short
  | 2 => .long
  | _ => .reserved

/-- R94. -/
def CrcPolicy.code : CrcPolicy → BitVec 1
  | .require => 0
  | .ignore => 1

/-- R94. -/
def CrcPolicy.ofCode (c : BitVec 1) : CrcPolicy :=
  match c.toNat with
  | 0 => .require
  | _ => .ignore

/-- 10_state.md R21. -/
def CardClass.code : CardClass → BitVec 2
  | .unknown => 0
  | .standardCapacity => 1
  | .highCapacity => 2
  | .error => 3

/-- 10_state.md R21. -/
def CardClass.ofCode (c : BitVec 2) : CardClass :=
  match c.toNat with
  | 0 => .unknown
  | 1 => .standardCapacity
  | 2 => .highCapacity
  | _ => .error

/-! ## Argument assembly (R98 to R105) -/

/-- R98: "with no argument". -/
def noArgument : Word := 0x00000000

/-- R99: `argument[11:0] = IFCOND_ARG12`, the rest 0. -/
def Config.ifcondArgument (c : Config) : Word := c.ifcondArg12.setWidth 32

/-- R100: `OPCOND_BASE | (h << HCS_BIT)`. -/
def Config.opcondArgument (c : Config) (h : Bool) : Word :=
  c.opcondBase ||| (if h then (1 : Word) <<< c.hcsBit.val else 0)

/-- R101: `argument[31:16] = rca`, `argument[15:0] = 0`. -/
def rcaArgument (rca : Rca) : Word := rca ++ (0 : BitVec 16)

/-- R102: 512. -/
def blocklenArgument : Word := 0x00000200

/-! ## The thirteen frames of the catalogue (R112, 41_card_commands.md R150 to R162) -/

/-- R150. -/
def Config.goIdleFrame (c : Config) : Frame := ⟨c.idxGoIdle, noArgument, .none, .require⟩

/-- R151. -/
def Config.sendIfCondFrame (c : Config) : Frame := ⟨c.idxSendIfCond, c.ifcondArgument, .short, .require⟩

/-- R152. -/
def Config.appCmdFrame (c : Config) (rca : Rca) : Frame := ⟨c.idxAppCmd, rcaArgument rca, .none, .require⟩

/-- R153. -/
def Config.sendOpCondFrame (c : Config) (h : Bool) : Frame := ⟨c.idxSendOpCond, c.opcondArgument h, .short, .ignore⟩

/-- R154. -/
def Config.publishRcaFrame (c : Config) : Frame := ⟨c.idxPublishRca, noArgument, .short, .require⟩

/-- R155. -/
def Config.getCsdFrame (c : Config) (rca : Rca) : Frame := ⟨c.idxGetCsd, rcaArgument rca, .long, .require⟩

/-- R156. -/
def Config.setBlocklenFrame (c : Config) : Frame := ⟨c.idxSetBlocklen, blocklenArgument, .short, .require⟩

/-- R157. -/
def Config.selectFrame (c : Config) (rca : Rca) : Frame := ⟨c.idxSelect, rcaArgument rca, .short, .require⟩

/-- R158, with the argument of R105. -/
def Config.deselectFrame (c : Config) : Frame := ⟨c.idxSelect, rcaArgument c.deselectRca, .none, .require⟩

/-- R159, with the argument of R103. -/
def Config.setBusWidthFrame (c : Config) : Frame := ⟨c.idxSetBusWidth, c.buswidthArg, .short, .require⟩

/-- R160, with the argument of R104. -/
def Config.readSingleFrame (c : Config) (addr : Word) : Frame := ⟨c.idxReadSingle, addr, .short, .require⟩

/-- R161, with the argument of R104. -/
def Config.writeSingleFrame (c : Config) (addr : Word) : Frame := ⟨c.idxWriteSingle, addr, .short, .require⟩

/-- R162. -/
def Config.getStatusFrame (c : Config) (rca : Rca) : Frame := ⟨c.idxGetStatus, rcaArgument rca, .short, .require⟩

/-! ## Decoding -/

/-- The frame word, `FW[40:0] = argument ‖ crcPolicy ‖ expectedResponse ‖ index` (R92). -/
def Frame.ofWord (w : BitVec 41) : Frame where
  index := w.extractLsb' 0 6
  expectedResponse := .ofCode (w.extractLsb' 6 2)
  crcPolicy := .ofCode (w.extractLsb' 8 1)
  argument := w.extractLsb' 9 32

/-- Format H, `HW[35:0] = operand ‖ op` (R95, R96): every word names a row. -/
def decodeHost (w : BitVec 36) : Instr :=
  let op : BitVec 4 := w.extractLsb' 0 4
  let operand : Word := w.extractLsb' 4 32
  match op.toNat with
  | 0 => .illegal0
  | 1 => .init
  | 2 => .rdblk operand
  | 3 => .wrblk operand
  | 4 => .volsz
  | 5 => .blksz
  | 6 => .isro
  | 7 => .lasterr
  | 8 => .isbusy (operand.extractLsb' 0 16)
  | 9 => .illegal9
  | 10 => .illegal10to11 op
  | 11 => .illegal10to11 op
  | _ => .illegal12to15 op

/-- Format T, `TW[41:0] = FW ‖ t` (R92): with t = 1 the FW bits are ignored (R113(c)). -/
def decodeTransport (w : BitVec 42) : Instr :=
  if w.extractLsb' 0 1 = 1#1 then .ack else .sendcmd (.ofWord (w.extractLsb' 1 41))

/-- Format C (R117): the row is found by index and shape, and the CRC policy and the argument bits the row fixes
must match too. Where index parameters coincide, the first row in the table's order is taken (log 27). -/
def decodeCard (c : Config) (f : Frame) : Except DecodeError Instr :=
  let rca : Rca := f.argument.extractLsb' 16 16
  let lowZero : Bool := f.argument.extractLsb' 0 16 == 0#16
  match f.expectedResponse, f.crcPolicy with
  | .none, .require =>
    if f.index = c.idxGoIdle ∧ f.argument = noArgument then .ok .goIdle
    else if f.index = c.idxAppCmd ∧ lowZero then .ok (.appCmd rca)
    else if f.index = c.idxSelect ∧ f.argument = rcaArgument c.deselectRca then .ok .deselect
    else .error .notInCatalogue
  | .short, .require =>
    if f.index = c.idxSendIfCond ∧ f.argument = c.ifcondArgument then .ok .sendIfCond
    else if f.index = c.idxPublishRca ∧ f.argument = noArgument then .ok .publishRca
    else if f.index = c.idxSetBlocklen ∧ f.argument = blocklenArgument then .ok .setBlocklen
    else if f.index = c.idxSelect ∧ lowZero then .ok (.select rca)
    else if f.index = c.idxSetBusWidth ∧ f.argument = c.buswidthArg then .ok .setBusWidth
    else if f.index = c.idxReadSingle then .ok (.readSingle f.argument)
    else if f.index = c.idxWriteSingle then .ok (.writeSingle f.argument)
    else if f.index = c.idxGetStatus ∧ lowZero then .ok (.getStatus rca)
    else .error .notInCatalogue
  | .short, .ignore =>
    if f.index = c.idxSendOpCond ∧ f.argument = c.opcondArgument false then .ok (.sendOpCond false)
    else if f.index = c.idxSendOpCond ∧ f.argument = c.opcondArgument true then .ok (.sendOpCond true)
    else .error .notInCatalogue
  | .long, .require =>
    if f.index = c.idxGetCsd ∧ lowZero then .ok (.getCsd rca) else .error .notInCatalogue
  | .none, .ignore => .error .notInCatalogue
  | .long, .ignore => .error .notInCatalogue
  | .reserved, _ => .error .notInCatalogue

/-- Format D, `DIN[129:0] = class ‖ words[0] ‖ words[1] ‖ words[2] ‖ words[3]` (R110): every word is legal. -/
def decodeDecoder (w : BitVec 130) : Instr :=
  .decode (.ofCode (w.extractLsb' 128 2))
    { w0 := w.extractLsb' 96 32, w1 := w.extractLsb' 64 32, w2 := w.extractLsb' 32 32, w3 := w.extractLsb' 0 32 }

/-- The instruction a word stands for in its format. -/
def decode (c : Config) : Request → Except DecodeError Instr
  | .host w => .ok (decodeHost w)
  | .transport w => .ok (decodeTransport w)
  | .transaction w => .ok (.txn (.ofWord w))
  | .card w => decodeCard c (.ofWord w)
  | .decoder w => .ok (decodeDecoder w)

/-! ## Encoding -/

/-- R92. -/
def Frame.toWord (f : Frame) : BitVec 41 :=
  f.argument ++ f.crcPolicy.code ++ f.expectedResponse.code ++ f.index

/-- R95: the bits of an operand that is ignored are written 0. -/
def hostWord (operand : Word) (op : BitVec 4) : BitVec 36 := operand ++ op

/-- The word of a well-formed instruction, in the format of its row. -/
def encode (c : Config) : Instr → Request
  | .init => .host (hostWord 0 1)
  | .rdblk block => .host (hostWord block 2)
  | .wrblk block => .host (hostWord block 3)
  | .volsz => .host (hostWord 0 4)
  | .blksz => .host (hostWord 0 5)
  | .isro => .host (hostWord 0 6)
  | .lasterr => .host (hostWord 0 7)
  | .isbusy address => .host (hostWord (address.setWidth 32) 8)
  | .illegal0 => .host (hostWord 0 0)
  | .illegal9 => .host (hostWord 0 9)
  | .illegal10to11 op => .host (hostWord 0 op)
  | .illegal12to15 op => .host (hostWord 0 op)
  | .sendcmd f => .transport (f.toWord ++ (0#1))
  | .ack => .transport 1
  | .txn f => .transaction f.toWord
  | .goIdle => .card c.goIdleFrame.toWord
  | .sendIfCond => .card c.sendIfCondFrame.toWord
  | .appCmd rca => .card (c.appCmdFrame rca).toWord
  | .sendOpCond h => .card (c.sendOpCondFrame h).toWord
  | .publishRca => .card c.publishRcaFrame.toWord
  | .getCsd rca => .card (c.getCsdFrame rca).toWord
  | .setBlocklen => .card c.setBlocklenFrame.toWord
  | .select rca => .card (c.selectFrame rca).toWord
  | .deselect => .card c.deselectFrame.toWord
  | .setBusWidth => .card c.setBusWidthFrame.toWord
  | .readSingle addr => .card (c.readSingleFrame addr).toWord
  | .writeSingle addr => .card (c.writeSingleFrame addr).toWord
  | .getStatus rca => .card (c.getStatusFrame rca).toWord
  | .decode cls w => .decoder (cls.code ++ w.w0 ++ w.w1 ++ w.w2 ++ w.w3)

/-! ## The host's view of the opcode table

The host hands a row's bits over as a number and a count of bits, and the count does not always tell the format:
formats T (42 bits) and C (41 bits) both fill 48 whole bits. -/

/-- The format a row's bits are read in (log 11). Up to 40 bits: H. 41: C, or TXN where no row of the catalogue
matches. 42: T. 43 to 48: C where a row of the catalogue other than the all-zero GO_IDLE word matches, else T. Above:
D. A count below 40 that a catalogue row needs (a host that counts only the bits a row fixes) is read as C where
such a row matches and the word does not fit the op code field. -/
def tableRequest (c : Config) (nbits w : Nat) : Option Request :=
  let inCatalogue : Bool :=
    match decodeCard c (.ofWord (BitVec.ofNat 41 w)) with
    | .ok _ => w < 2 ^ 41
    | .error _ => false
  if nbits ≤ 8 then if w < 2 ^ 36 then some (.host (BitVec.ofNat 36 w)) else none
  else if nbits ≤ 32 ∧ inCatalogue = true ∧ 16 ≤ w then some (.card (BitVec.ofNat 41 w))
  else if nbits ≤ 40 then if w < 2 ^ 36 then some (.host (BitVec.ofNat 36 w)) else none
  else if nbits = 41 then
    if inCatalogue then some (.card (BitVec.ofNat 41 w))
    else if w < 2 ^ 41 then some (.transaction (BitVec.ofNat 41 w)) else none
  else if nbits = 42 then if w < 2 ^ 42 then some (.transport (BitVec.ofNat 42 w)) else none
  else if nbits ≤ 48 then
    if inCatalogue = true ∧ w ≠ 0 then some (.card (BitVec.ofNat 41 w))
    else if w < 2 ^ 42 then some (.transport (BitVec.ofNat 42 w)) else none
  else if w < 2 ^ 130 then some (.decoder (BitVec.ofNat 130 w)) else none

/-- The instruction the decoder reads from a row's bits, under the default parameters the table's own words use. -/
def decodeTableWord (nbits w : Nat) : Option Instr :=
  match tableRequest Config.defaults nbits w with
  | none => none
  | some r =>
    match decode Config.defaults r with
    | .ok i => some i
    | .error _ => none

end Sys2Proof
end

