-- ==== Sys2Proof/Machine/State.lean ====
section
/-! DEFINITION. The state of SDMMC-CORE as plain data (10_state.md), its reset value (R50, R310), and the reasons a
step can stop. The state holds CORE's registers, the registers of the interface to the peripheral, what the laws of
ENV need of ENV, and the host port. -/

namespace Sys2Proof.Machine

/-- `CD.errorCode` (10_state.md R24), codes 0 to 4 in this order. -/
inductive ErrorCode
  | none
  | notPresent
  | voltageMismatch
  | protocolError
  | timeout
  deriving DecidableEq, Repr, Inhabited

/-- The status of a host operation (60_exceptions.md R270), codes 0 to 6 in this order. -/
inductive Status
  | ok
  | notPresent
  | voltageMismatch
  | protocolError
  | timeout
  | boundsError
  | illegalOperation
  deriving DecidableEq, Repr, Inhabited

/-- `T.OUTCOME.kind` (R27), codes 0 to 4 in this order (30_encoding.md R116). -/
inductive OutcomeKind
  | noResponseSent
  | accepted
  | rejected
  | timedOut
  | crcFailed
  deriving DecidableEq, Repr, Inhabited

/-- `SEQ.state` (R29), codes 0 to 10 in this order. -/
inductive SeqState
  | notStarted
  | reset
  | interfaceCondition
  | operatingConditionsPoll
  | classFinalize
  | addressAssign
  | descriptorFetch
  | blockLengthFix
  | selectBusWidth
  | ready
  | error
  deriving DecidableEq, Repr, Inhabited

/-- `SEQ.tentative` (R30), codes 0 to 2 in this order. -/
inductive Tentative
  | none
  | standardCapacity
  | highCapacityCandidate
  deriving DecidableEq, Repr, Inhabited

/-- `BTE.phase` (R34), codes 0 to 7 in this order. -/
inductive Phase
  | idle
  | select
  | readyWait1
  | command
  | dataSetup
  | stream
  | readyWait2
  | deselect
  deriving DecidableEq, Repr, Inhabited

/-- The CardDescriptor `CD` (R20 to R24). `CD.readOnly` (R25) is hard-wired and has no storage: it is
`CardDescriptor.readOnly` of Machine/Operands.lean. -/
structure CardDescriptor where
  cls             : CardClass
  relativeAddress : Rca
  blockCount      : BitVec 64
  errorCode       : ErrorCode
  deriving DecidableEq, Repr

/-- The ResponseOutcome latch (R27). -/
structure ResponseOutcome where
  kind  : OutcomeKind
  words : Words4
  deriving DecidableEq, Repr

/-- The registers of unit T (R26 to R28, R33). -/
structure Transport where
  frame      : Frame
  outcome    : ResponseOutcome
  ackPending : Bool
  n          : Nat
  deriving DecidableEq, Repr

/-- The registers of unit S (R29 to R33). -/
structure Sequencer where
  state     : SeqState
  tentative : Tentative
  ocr       : Word
  csd       : Words4
  iter      : Nat
  deriving DecidableEq, Repr

/-- The registers of unit B (R33, R34). -/
structure BlockEngine where
  phase : Phase
  addr  : Word
  n     : Nat
  block : Word
  iter  : Nat
  deriving DecidableEq, Repr

/-- The interface registers CORE writes, each with the last value written (R36, R37, R42, R43). -/
structure Bank where
  arg   : Word
  cmd   : BitVec 9
  dlen  : Word
  dctrl : BitVec 2
  deriving DecidableEq, Repr

/-- What ENV owns of the interface (R38 to R40, R44, R45, R48), the bookkeeping of its laws (20_memory.md R76,
R77; log 3), and its next moves (log 2). -/
structure Env where
  /-- `P.STA[4:0]`: DATAEND, CCRCFAIL, CTIMEOUT, CMDREND, CMDSENT from bit 4 down. -/
  latched : BitVec 5
  /-- `P.STA[6]`. -/
  txhe    : Bool
  respCmd : BitVec 6
  /-- `P.RESP[0..3]`; `w0` here is `P.RESP[0]`. -/
  resp    : Words4
  dcount  : Word
  /-- The words ENV has placed in the FIFO for CORE, oldest first. -/
  rx      : List Word
  /-- The words CORE has pushed into the FIFO and ENV has not taken, oldest first. -/
  tx      : List Word
  /-- The command flags a command start has allowed ENV to raise since their last clear (R76). -/
  armed   : BitVec 4
  /-- Whether `P.RESPCMD` and `P.RESP` are held until the next command (R77). -/
  stable  : Bool
  /-- ENV's next moves, one for each interface access. -/
  script  : List EnvMove
  /-- How many free moves have been drawn since the moves ran out. -/
  drawn   : Nat
  deriving DecidableEq, Repr

/-- A 512-byte host buffer: the cells that differ from 0, at rising addresses (log 16). -/
abbrev Memory := List Host.Cell

/-- The host port (R46, R97). -/
structure HostPort where
  /-- The request in progress; none when no operation is in progress. -/
  request : Option Request
  wbuf    : Memory
  status  : Status
  value   : BitVec 64
  rbuf    : Memory
  deriving DecidableEq, Repr

/-- One access to the interface registers, with the value written or read (20_memory.md R72, R81). -/
inductive Access
  | writeArg (v : Word)
  | writeCmd (v : BitVec 9)
  | writeIcr (mask : BitVec 5)
  | writeDlen (v : Word)
  | writeDctrl (v : BitVec 2)
  | readSta (v : BitVec 7)
  | readRespCmd (v : BitVec 6)
  | readResp (i : Fin 4) (v : Word)
  | readDcount (v : Word)
  | fifoPop (w : Word)
  | fifoPush (w : Word)
  deriving DecidableEq, Repr

/-- An entry of the log: an interface access, a sequencer state entered, an engine phase entered (log 9). -/
inductive Event
  | access (a : Access)
  | seq (st : SeqState)
  | phase (ph : Phase)
  deriving DecidableEq, Repr

/-- The state of the machine. -/
structure State where
  cd      : CardDescriptor
  t       : Transport
  seq     : Sequencer
  bte     : BlockEngine
  p       : Bank
  env     : Env
  port    : HostPort
  decoded : BitVec 64
  log     : List Event
  freed   : Nat
  cfg     : Config
  deriving DecidableEq, Repr

/-- Why the machine stops: the hazard faults (60_exceptions.md R283). A faulted state is never final. -/
inductive Fault
  /-- Raised by SENDCMD, and so by every operation that issues a command, while an acknowledgment is pending
  (70_reset_and_hazards.md R315). Safe: the hardware goes on with a stale classification, the model stops. -/
  | staleFlags
  /-- Raised by a pop of an empty FIFO (R316). Safe: no operation reaches it. -/
  | fifoPopEmpty
  /-- Raised by SENDCMD of a frame whose response shape is code 3 (R317). Safe: the spec names the fault. -/
  | illegalFrame
  deriving DecidableEq, Repr

/-- Why a step gives an instruction no meaning. -/
inductive Refusal
  /-- Raised by `exec`'s arm of an instruction that has no meaning yet. Safe: the machine stops. -/
  | notModelled (mnemonic : String)
  /-- Raised by `step` when the word presented decodes to no instruction. Safe: the machine stops (log 12). -/
  | undecodable (e : DecodeError)
  deriving DecidableEq, Repr

/-- The state right after reset (R50, R310): every CORE register zero, no operation in progress; ENV as the
bring-up of R312 leaves it, its other registers as log 6 says; the buffers and the result as log 16 says. -/
def State.reset : State where
  cd := { cls := .unknown, relativeAddress := 0x0000, blockCount := 0, errorCode := .none }
  t := { frame := { index := 0, argument := 0, expectedResponse := .none, crcPolicy := .require },
         outcome := { kind := .noResponseSent, words := Words4.zero }, ackPending := false, n := 0 }
  seq := { state := .notStarted, tentative := .none, ocr := 0, csd := Words4.zero, iter := 0 }
  bte := { phase := .idle, addr := 0, n := 0, block := 0, iter := 0 }
  p := { arg := 0, cmd := 0, dlen := 0, dctrl := 0 }
  env := { latched := 0, txhe := false, respCmd := 0, resp := Words4.zero, dcount := 0, rx := [], tx := [],
           armed := 0, stable := false, script := [], drawn := 0 }
  port := { request := none, wbuf := [], status := .ok, value := 0, rbuf := [] }
  decoded := 0
  log := []
  freed := 0
  cfg := Config.defaults

end Sys2Proof.Machine
end

