-- ==== Sys2Proof/Machine/Operands.lean ====
section
/-! DEFINITION. Operands and fields: what CORE takes from the words it receives (30_encoding.md R106 to R111), the
translation of a block number (20_memory.md R63 to R65), the packing of bytes into words (44_block_transfer.md R233),
and the numeric codes a result carries. Argument assembly (R98 to R105) stands in Decode.lean. -/

namespace Sys2Proof.Machine

/-! ## Codes -/

/-- 60_exceptions.md R270. -/
def ErrorCode.code : ErrorCode → BitVec 3
  | .none => 0
  | .notPresent => 1
  | .voltageMismatch => 2
  | .protocolError => 3
  | .timeout => 4

/-- R270: the error code of an abort and the status it ends INIT with are one code. -/
def ErrorCode.status : ErrorCode → Status
  | .none => .ok
  | .notPresent => .notPresent
  | .voltageMismatch => .voltageMismatch
  | .protocolError => .protocolError
  | .timeout => .timeout

/-- R270. -/
def Status.code : Status → BitVec 3
  | .ok => 0
  | .notPresent => 1
  | .voltageMismatch => 2
  | .protocolError => 3
  | .timeout => 4
  | .boundsError => 5
  | .illegalOperation => 6

/-- 30_encoding.md R116. -/
def OutcomeKind.code : OutcomeKind → BitVec 3
  | .noResponseSent => 0
  | .accepted => 1
  | .rejected => 2
  | .timedOut => 3
  | .crcFailed => 4

/-- 10_state.md R29. -/
def SeqState.code : SeqState → BitVec 4
  | .notStarted => 0
  | .reset => 1
  | .interfaceCondition => 2
  | .operatingConditionsPoll => 3
  | .classFinalize => 4
  | .addressAssign => 5
  | .descriptorFetch => 6
  | .blockLengthFix => 7
  | .selectBusWidth => 8
  | .ready => 9
  | .error => 10

/-- 10_state.md R30. -/
def Tentative.code : Tentative → BitVec 2
  | .none => 0
  | .standardCapacity => 1
  | .highCapacityCandidate => 2

/-- 10_state.md R34. -/
def Phase.code : Phase → BitVec 3
  | .idle => 0
  | .select => 1
  | .readyWait1 => 2
  | .command => 3
  | .dataSetup => 4
  | .stream => 5
  | .readyWait2 => 6
  | .deselect => 7

/-- `CD.readOnly`, hard-wired 0 (10_state.md R25, log 19). -/
def CardDescriptor.readOnly (_ : CardDescriptor) : BitVec 1 := 0

/-! ## The echo test -/

/-- `ECHO_ACCEPT(expectedResponse, index, echo)` (40_transport.md R133). -/
def echoAccept (c : Config) (shape : Shape) (index echo : BitVec 6) : Bool :=
  match shape with
  | .none => c.echoNone.accepts index echo
  | .short => c.echoShort.accepts index echo
  | .long => c.echoLong.accepts index echo
  | .reserved => false

/-- The value of `P.CMD`: start = 1, then `waitResp`, then `index` (10_state.md R37). -/
def commandWord (f : Frame) : BitVec 9 := (1#1) ++ f.expectedResponse.code ++ f.index

/-! ## Fields of received words -/

/-- R106: the low 9 bits of the response against those of the argument sent. -/
def patternMatches (c : Config) (w : Word) : Bool := w.extractLsb' 0 9 == c.ifcondArgument.extractLsb' 0 9

/-- R107: "power-up-complete". -/
def ocrPoweredUp (w : Word) : Bool := w.getLsbD 31

/-- R107: "card-capacity-status". -/
def ocrCapacity (w : Word) : Bool := w.getLsbD 30

/-- R108. -/
def publishedRca (w : Word) : Rca := w.extractLsb' 16 16

/-- R109: the CardStatusField. -/
def cardStatusField (w : Word) : BitVec 4 := w.extractLsb' 9 4

/-- R109: the ready-for-data flag. -/
def readyForData (c : Config) (w : Word) : Bool := w.getLsbD c.rfdBit.val

/-- `busyOf` (45_status_query_and_accessors.md R251): Idle, Ready, Identification, Standby and Transfer are not busy,
every other code is. -/
def busyOf (code : BitVec 4) : Bool :=
  match code.toNat with
  | 0 => false
  | 1 => false
  | 2 => false
  | 3 => false
  | 4 => false
  | _ => true

/-! ## Fields of the descriptor (R110) -/

/-- `csd[69:48]` = `words[1][5:0] ‖ words[2][31:16]`. -/
def hcSizeField (w : Words4) : BitVec 22 := w.w1.extractLsb' 0 6 ++ w.w2.extractLsb' 16 16

/-- `csd[73:62]` = `words[1][9:0] ‖ words[2][31:30]`. -/
def scSizeField (w : Words4) : BitVec 12 := w.w1.extractLsb' 0 10 ++ w.w2.extractLsb' 30 2

/-- `csd[49:47]` = `words[2][17:15]`. -/
def scMultiplier (w : Words4) : BitVec 3 := w.w2.extractLsb' 15 3

/-- `csd[83:80]` = `words[1][19:16]`. -/
def scExponent (w : Words4) : BitVec 4 := w.w1.extractLsb' 16 4

/-! ## Block numbers and addresses -/

/-- The checks of R64 and R65, in this order, as one test: whether the block may be accessed. -/
def blockInRange (cd : CardDescriptor) (block : Word) : Bool :=
  if cd.blockCount.toNat ≤ block.toNat then false
  else if cd.cls = .standardCapacity ∧ 2 ^ 23 ≤ block.toNat then false
  else true

/-- `translate` (R63): block units on a HighCapacity card, byte units on a StandardCapacity card. It is called only
for those two classes and for a block that passed the checks. -/
def translateBlock (cls : CardClass) (block : Word) : Word :=
  match cls with
  | .standardCapacity => block <<< 9
  | .highCapacity => block
  | .unknown => block
  | .error => block

/-! ## Bytes and words (R233, 20_memory.md R67): little-endian packing -/

/-- Word `k` of a buffer. -/
def packWord (b0 b1 b2 b3 : Byte) : Word := b3 ++ b2 ++ b1 ++ b0

/-- Byte `j` of a word, j = 0 the least significant. -/
def byteOf (w : Word) (j : Nat) : Byte := w.extractLsb' (8 * j) 8

end Sys2Proof.Machine
end

