-- ==== Sys2Proof/Machine/Flags.lean ====
section
/-! DEFINITION. The status flags of `P.STA` (10_state.md R38) and the laws of ENV that govern what CORE may read
(20_memory.md R75 to R78). -/

namespace Sys2Proof.Machine

/-! ## The bits of a value read from `P.STA` -/

def staCmdSent (v : BitVec 7) : Bool := v.getLsbD 0
def staCmdRend (v : BitVec 7) : Bool := v.getLsbD 1
def staCTimeout (v : BitVec 7) : Bool := v.getLsbD 2
def staCCrcFail (v : BitVec 7) : Bool := v.getLsbD 3
def staDataEnd (v : BitVec 7) : Bool := v.getLsbD 4
def staRxDavl (v : BitVec 7) : Bool := v.getLsbD 5
def staTxHe (v : BitVec 7) : Bool := v.getLsbD 6

/-- The flags the status poll ends on (40_transport.md R131); the data flags are not examined. -/
def anyCommandFlag (v : BitVec 7) : Bool := staCmdSent v || staCmdRend v || staCTimeout v || staCCrcFail v

/-! ## ENV -/

/-- The value of `P.STA`: TXHE, RXDAVL (1 while the FIFO holds a word to pop, log 4), the latched flags. -/
def Env.sta (e : Env) : BitVec 7 := BitVec.ofBool e.txhe ++ BitVec.ofBool (!e.rx.isEmpty) ++ e.latched

/-- The latched flags ENV may raise now: DATAEND always, a command flag only where the clear law allows it (R76). -/
def Env.mayRaise (e : Env) : BitVec 5 := (1#1) ++ e.armed

/-- What a move of ENV does under the laws: latched flags are only added (latch law R75), command flags only where
they may be raised (clear law R76), the response registers change only while they are not held (stability law R77),
words are appended to what CORE will pop and taken from the front of what CORE pushed (FIFO order law R78). -/
def Env.apply (m : EnvMove) (e : Env) : Env :=
  { e with
    latched := e.latched ||| (m.raise &&& e.mayRaise)
    txhe := m.txhe
    respCmd := if e.stable then e.respCmd else m.respCmd
    resp := if e.stable then e.resp else m.resp
    dcount := m.dcount
    rx := e.rx ++ m.place
    tx := e.tx.drop m.take }

/-- ENV's move before an interface access (00_scope.md R11): the next listed move, or a free one (log 2). -/
def Env.move (e : Env) : Env :=
  match e.script with
  | m :: rest => Env.apply m { e with script := rest }
  | [] => Env.apply (Config.freeMove e.drawn) { e with drawn := e.drawn + 1 }

/-- After CORE has read `P.STA`: if it saw CMDREND or CCRCFAIL, the response registers are held (R77). -/
def Env.seen (e : Env) : Env := { e with stable := e.stable || e.latched.getLsbD 1 || e.latched.getLsbD 3 }

/-- After a write of `P.CMD` with start = 1: every command flag may be raised again (R76) and the response registers
are no longer held (R77). -/
def Env.started (e : Env) : Env := { e with armed := 0b1111#4, stable := false }

/-- After a write of `mask` to `P.ICR` (10_state.md R41, clear law R76). -/
def Env.cleared (mask : BitVec 5) (e : Env) : Env :=
  { e with latched := e.latched &&& ~~~mask, armed := e.armed &&& ~~~(mask.extractLsb' 0 4) }

end Sys2Proof.Machine
end

