-- ==== Sys2Proof/Machine/Ops.lean ====
section
/-! DEFINITION. The named operations over buffers, interface registers and CORE registers that the meanings are
written with (00_scope.md R10), and the two ways an operation fails: `abortInit` (60_exceptions.md R281) and `failOp`
(R282), which stand where taking an exception stands on this block. -/

namespace Sys2Proof.Machine

/-! ## Host buffers -/

/-- A byte of a buffer; a byte that is not listed reads 0 (log 16). -/
def Memory.read : Memory → Nat → Byte
  | [], _ => 0
  | (a, b) :: m, k => if a = k then b else Memory.read m k

/-- Writes a byte, keeping the canonical form. -/
def Memory.write : Memory → Nat → Byte → Memory
  | [], k, v => if v = 0 then [] else [(k, v)]
  | (a, b) :: m, k, v =>
    if k < a then (if v = 0 then (a, b) :: m else (k, v) :: (a, b) :: m)
    else if k = a then (if v = 0 then m else (k, v) :: m)
    else (a, b) :: Memory.write m k v

/-- The cells lie at rising addresses from `lo` up, below 512, and none holds 0. -/
def Memory.rising : Nat → Memory → Bool
  | _, [] => true
  | lo, (a, b) :: m => lo ≤ a && a < 512 && b != 0 && Memory.rising (a + 1) m

/-- The canonical form of a 512-byte buffer. -/
def Memory.wf (m : Memory) : Bool := Memory.rising 0 m

/-- The cells of the `n` bytes from `lo` up, with byte `a` equal to `f a`. -/
def Memory.fill (f : Nat → Byte) : Nat → Nat → Memory
  | 0, _ => []
  | n + 1, lo => if f lo = 0 then Memory.fill f n (lo + 1) else (lo, f lo) :: Memory.fill f n (lo + 1)

/-- The buffer with byte `a` equal to `f a`. -/
def Memory.ofFun (f : Nat → Byte) : Memory := Memory.fill f 512 0

/-- The buffer with the 512 bytes given, byte 0 first: a buffer of any other length cannot be presented
(20_memory.md R62). -/
def Memory.ofBytes (bytes : Vector Byte 512) : Memory := Memory.ofFun fun a => bytes[a]?.getD 0

/-- `word(B, k)` (44_block_transfer.md R233). -/
def Memory.loadWord (m : Memory) (k : Nat) : Word :=
  packWord (m.read (4 * k)) (m.read (4 * k + 1)) (m.read (4 * k + 2)) (m.read (4 * k + 3))

/-- `store(B, k, w)` (R233). -/
def Memory.storeWord (m : Memory) (k : Nat) (w : Word) : Memory :=
  (((m.write (4 * k) (byteOf w 0)).write (4 * k + 1) (byteOf w 1)).write (4 * k + 2) (byteOf w 2)).write
    (4 * k + 3) (byteOf w 3)

/-! ## Interface accesses: each is one ENV move, the access, and its entry in the log -/

/-- `RegWrite(P.ARG, v)` (10_state.md R36). -/
def writeArg (v : Word) (s : State) : State :=
  { s with p := { s.p with arg := v }, env := s.env.move, log := .access (.writeArg v) :: s.log }

/-- `RegWrite(P.CMD, v)` (R37). -/
def writeCmd (v : BitVec 9) (s : State) : State :=
  { s with p := { s.p with cmd := v }, env := (if v.getLsbD 8 then s.env.move.started else s.env.move),
           log := .access (.writeCmd v) :: s.log }

/-- `RegWrite(P.ICR, mask)` (R41). -/
def writeIcr (mask : BitVec 5) (s : State) : State :=
  { s with env := s.env.move.cleared mask, log := .access (.writeIcr mask) :: s.log }

/-- `RegWrite(P.DLEN, v)` (R42). -/
def writeDlen (v : Word) (s : State) : State :=
  { s with p := { s.p with dlen := v }, env := s.env.move, log := .access (.writeDlen v) :: s.log }

/-- `RegWrite(P.DCTRL, v)` (R43). -/
def writeDctrl (v : BitVec 2) (s : State) : State :=
  { s with p := { s.p with dctrl := v }, env := s.env.move, log := .access (.writeDctrl v) :: s.log }

/-- `RegRead(P.STA)` (R38). -/
def readSta (s : State) : State × BitVec 7 :=
  ({ s with env := s.env.move.seen, log := .access (.readSta s.env.move.sta) :: s.log }, s.env.move.sta)

/-- `RegRead(P.RESPCMD)` (R39). -/
def readRespCmd (s : State) : State × BitVec 6 :=
  ({ s with env := s.env.move, log := .access (.readRespCmd s.env.move.respCmd) :: s.log }, s.env.move.respCmd)

/-- `P.RESP[i]` as ENV holds it (R40). -/
def Env.respAt (e : Env) (i : Fin 4) : Word :=
  match i with
  | 0 => e.resp.w0
  | 1 => e.resp.w1
  | 2 => e.resp.w2
  | 3 => e.resp.w3

/-- `RegRead(P.RESP[i])` (R40). -/
def readResp (i : Fin 4) (s : State) : State × Word :=
  ({ s with env := s.env.move, log := .access (.readResp i (s.env.move.respAt i)) :: s.log }, s.env.move.respAt i)

/-- `RegRead(P.DCOUNT)` (R44). -/
def readDcount (s : State) : State × Word :=
  ({ s with env := s.env.move, log := .access (.readDcount s.env.move.dcount) :: s.log }, s.env.move.dcount)

/-- `FifoPop()` (R45): the oldest word; a pop of an empty FIFO raises FifoPopEmpty (70_reset_and_hazards.md R316). -/
def fifoPop (s : State) : Host.Outcome (State × Word) Fault Refusal :=
  match s.env.move.rx with
  | [] => .fault .fifoPopEmpty
  | w :: rest =>
    .next ({ s with env := { s.env.move with rx := rest }, log := .access (.fifoPop w) :: s.log }, w)

/-- `FifoPush(w)` (R45): ENV accepts every push (R316). -/
def fifoPush (w : Word) (s : State) : State :=
  { s with env := { s.env.move with tx := s.env.move.tx ++ [w] }, log := .access (.fifoPush w) :: s.log }

/-! ## CORE registers -/

/-- `SEQ.state <- st` (R29), marked in the log. -/
def enterSeq (st : SeqState) (s : State) : State :=
  { s with seq := { s.seq with state := st }, log := .seq st :: s.log }

/-- `BTE.phase <- ph` (R34), marked in the log. -/
def enterPhase (ph : Phase) (s : State) : State :=
  { s with bte := { s.bte with phase := ph }, log := .phase ph :: s.log }

/-! ## The end of an operation -/

/-- The result of a host operation (30_encoding.md R97). -/
def finish (st : Status) (v : BitVec 64) (s : State) : State :=
  { s with port := { s.port with status := st, value := v } }

/-- `abort c`, the failure of INIT (60_exceptions.md R281, 42_init_sequencer.md R183): what it writes, and the end of
the operation with status and value `c`. -/
def abortInit (c : ErrorCode) (s : State) : State :=
  finish c.status (c.code.setWidth 64)
    (enterSeq .error
      { s with cd := { s.cd with cls := .error, errorCode := c, blockCount := 0, relativeAddress := 0 } })

/-- `fail st`, the failure of RDBLK, WRBLK or ISBUSY (R282, 44_block_transfer.md R231). -/
def failOp (st : Status) (v : BitVec 64) (s : State) : State :=
  finish st v { s with bte := { s.bte with phase := .idle } }

/-- The part of an operation up to a point: it goes on in a state, or it has ended in one. -/
inductive Flow
  | running (s : State)
  | ended (s : State)

/-- Goes on with `k` unless the operation has ended. -/
def Flow.andThen (f : Flow) (k : State → Flow) : Flow :=
  match f with
  | .running s => k s
  | .ended s => .ended s

/-- The state the operation ends in when `k` does the rest of it. -/
def Flow.finally (f : Flow) (k : State → State) : State :=
  match f with
  | .running s => k s
  | .ended s => s

end Sys2Proof.Machine
end

