-- ==== Sys2Proof/Machine/Decoder.lean ====
section
/-! DEFINITION. Unit D, the capacity decoder (43_capacity_decoder.md). All arithmetic is on naturals (R204). -/

namespace Sys2Proof.Machine

/-- `decodeHC` (R201). -/
def decodeHC (w : Words4) : Nat := ((hcSizeField w).toNat + 1) * 1024

/-- `decodeSC` (R202): the division drops the remainder. -/
def decodeSC (w : Words4) : Nat :=
  ((((scSizeField w).toNat + 1) <<< ((scMultiplier w).toNat + 2)) <<< (scExponent w).toNat) / 512

/-- `decodeBlocks` (R200, R203): the class selects the formula, no bit of the descriptor does. -/
def decodeBlocks (cls : CardClass) (w : Words4) : Nat :=
  match cls with
  | .highCapacity => decodeHC w
  | .standardCapacity => decodeSC w
  | .unknown => 0
  | .error => 0

/-- DECODE used as an operation (R200): it returns the block count; the model keeps the value in `decoded`
(log 15). -/
def execDecode (cls : CardClass) (w : Words4) (s : State) : Host.Outcome State Fault Refusal :=
  .next { s with decoded := BitVec.ofNat 64 (decodeBlocks cls w) }

end Sys2Proof.Machine
end

