-- ==== Sys2Proof/Machine/Transport.lean ====
section
/-! DEFINITION. Unit T, the command/response transport (40_transport.md): SENDCMD, ACK, TXN. -/

namespace Sys2Proof.Machine

/-- `pollStatus` (R131), with `fuel` passes left: the value that ended the poll, or none on expiry (R140). -/
def pollStatus : Nat → State → State × Option (BitVec 7)
  | 0, s => (s, none)
  | fuel + 1, s =>
    let r := readSta s
    if anyCommandFlag r.2 then (r.1, some r.2)
    else pollStatus fuel { r.1 with t := { r.1.t with n := r.1.t.n + 1 } }

/-- `classify` (R132, R133, R134, R140): CMDREND before CCRCFAIL before CTIMEOUT before CMDSENT. -/
def classify (f : Frame) (sta : Option (BitVec 7)) (s : State) : State × OutcomeKind :=
  match sta with
  | none => (s, .timedOut)
  | some v =>
    if staCmdRend v then
      let r := readRespCmd s
      (r.1, if echoAccept s.cfg f.expectedResponse f.index r.2 then .accepted else .rejected)
    else if staCCrcFail v then (s, if f.crcPolicy = .ignore then .accepted else .crcFailed)
    else if staCTimeout v then (s, .timedOut)
    else (s, .noResponseSent)

/-- `extract` (R135): the response words, the most significant first. -/
def extract (f : Frame) (kind : OutcomeKind) (s : State) : State × Words4 :=
  if kind = .accepted ∨ kind = .rejected then
    match f.expectedResponse with
    | .none => (s, Words4.zero)
    | .short =>
      let r0 := readResp 0 s
      (r0.1, ⟨r0.2, 0, 0, 0⟩)
    | .long =>
      let r0 := readResp 0 s
      let r1 := readResp 1 r0.1
      let r2 := readResp 2 r1.1
      let r3 := readResp 3 r2.1
      (r3.1, ⟨r3.2, r2.2, r1.2, r0.2⟩)
    | .reserved => (s, Words4.zero)
  else (s, Words4.zero)

/-- The two register writes that send a command, with the latches set (R130). -/
def startCommand (f : Frame) (s : State) : State :=
  let s1 := writeCmd (commandWord f) (writeArg f.argument { s with t := { s.t with frame := f } })
  { s1 with t := { s1.t with ackPending := true, n := 0 } }

/-- SENDCMD of a frame that passed its checks (R130). -/
def transmit (f : Frame) (s : State) : State :=
  let s1 := startCommand f s
  let r := pollStatus s1.cfg.nCmd s1
  let c := classify f r.2 r.1
  let x := extract f c.2 c.1
  { x.1 with t := { x.1.t with outcome := ⟨c.2, x.2⟩ } }

/-- ACK (R136). -/
def acknowledge (s : State) : State :=
  let s1 := writeIcr 0b01111 s
  { s1 with t := { s1.t with ackPending := false } }

/-- TXN of a frame whose SENDCMD passes its checks (R139). -/
def transact (f : Frame) (s : State) : State := acknowledge (transmit f s)

/-- The checks of SENDCMD, in the order of R130, before `k`. Inside an operation of several commands only the first
command can meet a pending acknowledgment, since each TXN ends with ACK: the check stands once (log 13). -/
def checked (f : Frame) (s : State) (k : State → State) : Host.Outcome State Fault Refusal :=
  if f.expectedResponse = .reserved then .fault .illegalFrame
  else if s.t.ackPending then .fault .staleFlags
  else .next (k s)

/-- SENDCMD (R130). -/
def execSendcmd (f : Frame) (s : State) : Host.Outcome State Fault Refusal := checked f s (transmit f)

/-- ACK (R136); with nothing pending it makes the same write. -/
def execAck (s : State) : Host.Outcome State Fault Refusal := .next (acknowledge s)

/-- TXN (R139). -/
def execTxn (f : Frame) (s : State) : Host.Outcome State Fault Refusal := checked f s (transact f)

end Sys2Proof.Machine
end

