-- ==== Sys2Proof/Machine/Init.lean ====
section
/-! DEFINITION. Unit S, the card initialization sequencer (42_init_sequencer.md): INIT, one function for each of its
states. -/

namespace Sys2Proof.Machine

/-- The accepted kinds of a command that expects no response (41_card_commands.md R150, R152, R158). -/
def acceptedNoReply (k : OutcomeKind) : Bool := k == .noResponseSent || k == .accepted

/-- INIT's entry (R171). -/
def initEntry (s : State) : State :=
  { s with
    cd := { cls := .unknown, relativeAddress := 0, blockCount := 0, errorCode := .none }
    seq := { s.seq with tentative := .none, ocr := 0, csd := Words4.zero, iter := 0 } }

/-- State Reset (R173). -/
def initReset (s : State) : Flow :=
  let s1 := transact s.cfg.goIdleFrame (enterSeq .reset s)
  if acceptedNoReply s1.t.outcome.kind then .running s1 else .ended (abortInit .notPresent s1)

/-- State InterfaceCondition (R174). -/
def initInterfaceCondition (s : State) : Flow :=
  let s1 := transact s.cfg.sendIfCondFrame (enterSeq .interfaceCondition s)
  match s1.t.outcome.kind with
  | .rejected => .running { s1 with seq := { s1.seq with tentative := .standardCapacity } }
  | .accepted =>
    if patternMatches s1.cfg s1.t.outcome.words.w0 then
      .running { s1 with seq := { s1.seq with tentative := .highCapacityCandidate } }
    else .ended (abortInit .voltageMismatch s1)
  | .noResponseSent => .ended (abortInit .notPresent s1)
  | .timedOut => .ended (abortInit .notPresent s1)
  | .crcFailed => .ended (abortInit .notPresent s1)

/-- The loop of OperatingConditionsPoll (R176), with `fuel` passes left. -/
def opCondLoop : Nat → State → Flow
  | 0, s => .ended (abortInit .timeout s)
  | fuel + 1, s =>
    let s1 := transact (s.cfg.appCmdFrame s.cd.relativeAddress) s
    if acceptedNoReply s1.t.outcome.kind then
      let s2 := transact (s1.cfg.sendOpCondFrame (s1.seq.tentative == .highCapacityCandidate)) s1
      if s2.t.outcome.kind = .accepted then
        let s3 := { s2 with seq := { s2.seq with ocr := s2.t.outcome.words.w0 } }
        if ocrPoweredUp s3.seq.ocr then .running s3
        else opCondLoop fuel { s3 with seq := { s3.seq with iter := s3.seq.iter + 1 } }
      else .ended (abortInit .protocolError s2)
    else .ended (abortInit .protocolError s1)

/-- State OperatingConditionsPoll (R176). -/
def initOperatingConditions (s : State) : Flow :=
  let s1 := enterSeq .operatingConditionsPoll s
  opCondLoop s1.cfg.nOcr { s1 with seq := { s1.seq with iter := 0 } }

/-- The class ClassFinalize resolves (R177). -/
def finalClass (tentative : Tentative) (ocr : Word) : CardClass :=
  if tentative = .highCapacityCandidate ∧ ocrCapacity ocr = true then .highCapacity else .standardCapacity

/-- State ClassFinalize (R177). -/
def initClassFinalize (s : State) : Flow :=
  let s1 := enterSeq .classFinalize s
  .running { s1 with cd := { s1.cd with cls := finalClass s1.seq.tentative s1.seq.ocr } }

/-- One TXN whose only accepted kind is Accepted, inside INIT; any other kind is ProtocolError (R163, R184). -/
def initCommand (f : Frame) (s : State) : Flow :=
  let s1 := transact f s
  if s1.t.outcome.kind = .accepted then .running s1 else .ended (abortInit .protocolError s1)

/-- One TXN of a command that expects no response, inside INIT (R152, R158). -/
def initCommandNoReply (f : Frame) (s : State) : Flow :=
  let s1 := transact f s
  if acceptedNoReply s1.t.outcome.kind then .running s1 else .ended (abortInit .protocolError s1)

/-- State AddressAssign (R178). -/
def initAddressAssign (s : State) : Flow :=
  (initCommand s.cfg.publishRcaFrame (enterSeq .addressAssign s)).andThen fun s1 =>
    .running { s1 with cd := { s1.cd with relativeAddress := publishedRca s1.t.outcome.words.w0 } }

/-- State DescriptorFetch (R179). -/
def initDescriptorFetch (s : State) : Flow :=
  (initCommand (s.cfg.getCsdFrame s.cd.relativeAddress) (enterSeq .descriptorFetch s)).andThen fun s1 =>
    .running
      { s1 with
        seq := { s1.seq with csd := s1.t.outcome.words }
        cd := { s1.cd with blockCount := BitVec.ofNat 64 (decodeBlocks s1.cd.cls s1.t.outcome.words) } }

/-- State BlockLengthFix (R180). -/
def initBlockLengthFix (s : State) : Flow :=
  let s1 := enterSeq .blockLengthFix s
  if s1.cd.cls = .standardCapacity then initCommand s1.cfg.setBlocklenFrame s1 else .running s1

/-- State SelectBusWidth (R181). -/
def initSelectBusWidth (s : State) : Flow :=
  let s1 := enterSeq .selectBusWidth s
  if s1.cfg.buswidthStep then
    (initCommand (s1.cfg.selectFrame s1.cd.relativeAddress) s1).andThen fun s2 =>
      (initCommandNoReply (s2.cfg.appCmdFrame s2.cd.relativeAddress) s2).andThen fun s3 =>
        (initCommand s3.cfg.setBusWidthFrame s3).andThen fun s4 =>
          initCommandNoReply s4.cfg.deselectFrame s4
  else .running s1

/-- State Ready (R182). -/
def initReady (s : State) : State :=
  let s1 := enterSeq .ready s
  finish .ok 0 { s1 with cd := { s1.cd with errorCode := .none } }

/-- INIT from its entry to its end (R170). -/
def initSequence (s : State) : State :=
  ((((((((initReset (initEntry s)).andThen initInterfaceCondition).andThen initOperatingConditions).andThen
    initClassFinalize).andThen initAddressAssign).andThen initDescriptorFetch).andThen
    initBlockLengthFix).andThen initSelectBusWidth).finally initReady

/-- INIT (R170). Its first command is GO_IDLE, whose SENDCMD makes the checks of R130. -/
def execInit (s : State) : Host.Outcome State Fault Refusal := checked s.cfg.goIdleFrame s initSequence

end Sys2Proof.Machine
end

