-- ==== Sys2Proof/Machine/Block.lean ====
section
/-! DEFINITION. Unit B, the block transfer engine (44_block_transfer.md): RDBLK and WRBLK. -/

namespace Sys2Proof.Machine

/-- `pre` (R215), after the checks `blockInRange` have passed. -/
def preamble (block : Word) (s : State) : State :=
  { s with bte := { s.bte with block := block, addr := translateBlock s.cd.cls block, n := 0, iter := 0 } }

/-- One TXN whose only accepted kind is Accepted, inside WRBLK; any other kind fails with ProtocolError (R163). -/
def blockCommand (f : Frame) (fail : Status → State → State) (s : State) : Flow :=
  let s1 := transact f s
  if s1.t.outcome.kind = .accepted then .running s1 else .ended (fail .protocolError s1)

/-- The last phase of both operations: Deselect (R221, R230), then Idle and the result. -/
def blockDeselect (fail : Status → State → State) (s : State) : State :=
  let s1 := transact s.cfg.deselectFrame (enterPhase .deselect s)
  if acceptedNoReply s1.t.outcome.kind then finish .ok 0 (enterPhase .idle s1) else fail .protocolError s1

/-! ## RDBLK -/

/-- RBUF takes an unspecified content, a free value (20_memory.md R62, log 17). -/
def freeRbuf (s : State) : State :=
  { s with port := { s.port with rbuf := Memory.ofFun (Config.freeByte s.freed) }, freed := s.freed + 1 }

/-- The failure of RDBLK past its bounds checks (R231): the content of RBUF is then unspecified (R62). -/
def failRead (st : Status) (s : State) : State := failOp st 0 (enterPhase .idle (freeRbuf s))

/-- Phases Select, DataSetup and Command of a read (R217 to R219), up to Stream. -/
def readSetup (s : State) : Flow :=
  (blockCommand (s.cfg.selectFrame s.cd.relativeAddress) failRead (enterPhase .select s)).andThen fun s1 =>
    let s2 := writeDctrl 0b11 (writeDlen 512 (enterPhase .dataSetup s1))
    (blockCommand (s2.cfg.readSingleFrame s2.bte.addr) failRead (enterPhase .command s2)).andThen fun s3 =>
      .running (enterPhase .stream s3)

/-- The pop of one pass of the drain loop, if the status read before it asks for one (R220). -/
def drainPop (sta : BitVec 7) (s : State) : Host.Outcome State Fault Refusal :=
  if s.bte.n < 128 ∧ staRxDavl sta = true then
    match fifoPop s with
    | .next (s1, w) =>
      .next
        { s1 with
          port := { s1.port with rbuf := s1.port.rbuf.storeWord s1.bte.n w }
          bte := { s1.bte with n := s1.bte.n + 1 } }
    | .fault f => .fault f
    | .refused r => .refused r
  else .next s

/-- The passes of `drain` (R220), with `fuel` left. -/
def drainLoop : Nat → State → Host.Outcome Flow Fault Refusal
  | 0, s => .next (.ended (failRead .timeout s))
  | fuel + 1, s =>
    let r := readSta s
    match drainPop r.2 r.1 with
    | .fault f => .fault f
    | .refused e => .refused e
    | .next s1 =>
      let c := readDcount s1
      if c.1.bte.n = 128 ∧ c.2 = 0 then .next (.running c.1)
      else drainLoop fuel { c.1 with bte := { c.1.bte with iter := c.1.bte.iter + 1 } }

/-- Phase Stream of a read (R220). -/
def drain (s : State) : Host.Outcome Flow Fault Refusal :=
  drainLoop s.cfg.nRx { s with bte := { s.bte with n := 0, iter := 0 } }

/-- RDBLK of a block in range (R216). -/
def readBlock (block : Word) (s : State) : Host.Outcome State Fault Refusal :=
  match readSetup (preamble block s) with
  | .ended s1 => .next s1
  | .running s1 =>
    match drain s1 with
    | .fault f => .fault f
    | .refused e => .refused e
    | .next flow => .next (flow.finally (blockDeselect failRead))

/-- RDBLK (R216): the checks of R64 and R65 come before any interface access (60_exceptions.md R280) and where they fail
no byte of RBUF changes either (log 17); then the first command is SELECT, whose SENDCMD makes the checks of R130. -/
def execRdblk (block : Word) (s : State) : Host.Outcome State Fault Refusal :=
  if blockInRange s.cd block then
    if s.t.ackPending then .fault .staleFlags else readBlock block s
  else .next (failOp .boundsError 0 s)

/-! ## WRBLK -/

/-- The failure of WRBLK (R231): the target block is then indeterminate, which is ENV's (20_memory.md R73, log 21). -/
def failWrite (st : Status) (s : State) : State := failOp st 0 (enterPhase .idle s)

/-- The passes of `readyPoll` (R223, R229), with `fuel` left. -/
def readyLoop : Nat → State → Flow
  | 0, s => .ended (failWrite .timeout s)
  | fuel + 1, s =>
    let s1 := transact (s.cfg.getStatusFrame s.cd.relativeAddress) s
    if s1.t.outcome.kind = .accepted then
      if readyForData s1.cfg s1.t.outcome.words.w0 then .running s1
      else readyLoop fuel { s1 with bte := { s1.bte with iter := s1.bte.iter + 1 } }
    else .ended (failWrite .protocolError s1)

/-- `readyPoll` (R223). -/
def readyPoll (s : State) : Flow := readyLoop s.cfg.nReady { s with bte := { s.bte with iter := 0 } }

/-- Phases Select, ReadyWait1 and Command of a write (R222 to R224). -/
def writeSetup (s : State) : Flow :=
  (blockCommand (s.cfg.selectFrame s.cd.relativeAddress) failWrite (enterPhase .select s)).andThen fun s1 =>
    (readyPoll (enterPhase .readyWait1 s1)).andThen fun s2 =>
      blockCommand (s2.cfg.writeSingleFrame s2.bte.addr) failWrite (enterPhase .command s2)

/-- Pushes word `BTE.n` of WBUF and counts it. -/
def pushNext (s : State) : State :=
  let s1 := fifoPush (s.port.wbuf.loadWord s.bte.n) s
  { s1 with bte := { s1.bte with n := s1.bte.n + 1 } }

/-- Phase DataSetup of a write, and the first word (R225 to R227). -/
def writeData (s : State) : State :=
  let s1 := writeDctrl 0b01 (writeDlen 512 (writeIcr 0b10000 (enterPhase .dataSetup s)))
  let s2 := enterPhase .stream s1
  let s3 := fifoPush (s2.port.wbuf.loadWord 0) s2
  { s3 with bte := { s3.bte with n := 1 } }

/-- The passes of `pushLoop` (R228), with `fuel` left: DATAEND is tested before TXHE. -/
def pushLoop : Nat → State → Flow
  | 0, s => .ended (failWrite .timeout s)
  | fuel + 1, s =>
    let r := readSta s
    if staDataEnd r.2 then
      if r.1.bte.n < 128 then .ended (failWrite .protocolError r.1) else .running r.1
    else
      let s1 := if staTxHe r.2 = true ∧ r.1.bte.n < 128 then pushNext r.1 else r.1
      pushLoop fuel { s1 with bte := { s1.bte with iter := s1.bte.iter + 1 } }

/-- Phase Stream of a write (R227, R228). -/
def writeStream (s : State) : Flow :=
  let s1 := writeData s
  pushLoop s1.cfg.nTx { s1 with bte := { s1.bte with iter := 0 } }

/-- WRBLK of a block in range (R222). -/
def writeBlock (block : Word) (s : State) : State :=
  (((writeSetup (preamble block s)).andThen writeStream).andThen fun s1 =>
    readyPoll (enterPhase .readyWait2 s1)).finally (blockDeselect failWrite)

/-- WRBLK (R222), with the checks as RDBLK makes them. -/
def execWrblk (block : Word) (s : State) : Host.Outcome State Fault Refusal :=
  if blockInRange s.cd block then
    if s.t.ackPending then .fault .staleFlags else .next (writeBlock block s)
  else .next (failOp .boundsError 0 s)

end Sys2Proof.Machine
end

