-- ==== Sys2Proof/Machine/CardCommands.lean ====
section
/-! DEFINITION. The card commands (41_card_commands.md), each used as an operation: TXN of its row's frame
(30_encoding.md R115). What a caller takes from the response is the caller's (R163, log 14). -/

namespace Sys2Proof.Machine

/-- A catalogue frame as an operation. -/
def issue (f : Frame) (s : State) : Host.Outcome State Fault Refusal := checked f s (transact f)

/-- GO_IDLE (R150). -/
def execGoIdle (s : State) : Host.Outcome State Fault Refusal := issue s.cfg.goIdleFrame s

/-- SEND_IF_COND (R151). -/
def execSendIfCond (s : State) : Host.Outcome State Fault Refusal := issue s.cfg.sendIfCondFrame s

/-- APP_CMD (R152). -/
def execAppCmd (rca : Rca) (s : State) : Host.Outcome State Fault Refusal := issue (s.cfg.appCmdFrame rca) s

/-- SEND_OP_COND (R153). -/
def execSendOpCond (h : Bool) (s : State) : Host.Outcome State Fault Refusal := issue (s.cfg.sendOpCondFrame h) s

/-- PUBLISH_RCA (R154). -/
def execPublishRca (s : State) : Host.Outcome State Fault Refusal := issue s.cfg.publishRcaFrame s

/-- GET_CSD (R155). -/
def execGetCsd (rca : Rca) (s : State) : Host.Outcome State Fault Refusal := issue (s.cfg.getCsdFrame rca) s

/-- SET_BLOCKLEN (R156). -/
def execSetBlocklen (s : State) : Host.Outcome State Fault Refusal := issue s.cfg.setBlocklenFrame s

/-- SELECT (R157). -/
def execSelect (rca : Rca) (s : State) : Host.Outcome State Fault Refusal := issue (s.cfg.selectFrame rca) s

/-- DESELECT (R158). -/
def execDeselect (s : State) : Host.Outcome State Fault Refusal := issue s.cfg.deselectFrame s

/-- SET_BUS_WIDTH (R159). -/
def execSetBusWidth (s : State) : Host.Outcome State Fault Refusal := issue s.cfg.setBusWidthFrame s

/-- READ_SINGLE (R160). -/
def execReadSingle (addr : Word) (s : State) : Host.Outcome State Fault Refusal := issue (s.cfg.readSingleFrame addr) s

/-- WRITE_SINGLE (R161). -/
def execWriteSingle (addr : Word) (s : State) : Host.Outcome State Fault Refusal := issue (s.cfg.writeSingleFrame addr) s

/-- GET_STATUS (R162). -/
def execGetStatus (rca : Rca) (s : State) : Host.Outcome State Fault Refusal := issue (s.cfg.getStatusFrame rca) s

end Sys2Proof.Machine
end

