-- ==== Sys2Proof/Machine/Query.lean ====
section
/-! DEFINITION. The busy query, the accessors and the illegal operations (45_status_query_and_accessors.md). -/

namespace Sys2Proof.Machine

/-- ISBUSY after its command's checks (R250). -/
def isBusy (address : Rca) (s : State) : State :=
  let s1 := transact (s.cfg.getStatusFrame address) s
  if s1.t.outcome.kind = .accepted then
    finish .ok (if busyOf (cardStatusField s1.t.outcome.words.w0) then 1 else 0) s1
  else failOp .protocolError 1 s1

/-- ISBUSY (R250). -/
def execIsbusy (address : Rca) (s : State) : Host.Outcome State Fault Refusal :=
  checked (s.cfg.getStatusFrame address) s (isBusy address)

/-- VOLSZ (R252). -/
def execVolsz (s : State) : Host.Outcome State Fault Refusal := .next (finish .ok s.cd.blockCount s)

/-- BLKSZ (R253): the constant `BLOCK_SIZE` of 00_scope.md R6. -/
def execBlksz (s : State) : Host.Outcome State Fault Refusal := .next (finish .ok 512 s)

/-- ISRO (R254). -/
def execIsro (s : State) : Host.Outcome State Fault Refusal := .next (finish .ok (s.cd.readOnly.setWidth 64) s)

/-- LASTERR (R255). -/
def execLasterr (s : State) : Host.Outcome State Fault Refusal :=
  .next (finish .ok (s.cd.errorCode.code.setWidth 64) s)

/-- An op code that names no operation (R256): status IllegalOperation, value 0, nothing else. -/
def illegalOperation (s : State) : State := finish .illegalOperation 0 s

/-- Op code 0 (R256). -/
def execIllegal0 (s : State) : Host.Outcome State Fault Refusal := .next (illegalOperation s)

/-- Op code 9 (R256). -/
def execIllegal9 (s : State) : Host.Outcome State Fault Refusal := .next (illegalOperation s)

/-- Op codes 10 and 11 (R256). -/
def execIllegal10to11 (_op : BitVec 4) (s : State) : Host.Outcome State Fault Refusal := .next (illegalOperation s)

/-- Op codes 12 to 15 (R256). -/
def execIllegal12to15 (_op : BitVec 4) (s : State) : Host.Outcome State Fault Refusal := .next (illegalOperation s)

end Sys2Proof.Machine
end

