-- ==== Sys2Proof/Machine/Dispatch.lean ====
section
/-! DEFINITION. The meaning of each operation: one arm per constructor. -/

namespace Sys2Proof.Machine

def exec (i : Instr) (s : State) : Host.Outcome State Fault Refusal :=
  match i with
  | .init => Sys2Proof.Machine.execInit s
  | .rdblk block => Sys2Proof.Machine.execRdblk block s
  | .wrblk block => Sys2Proof.Machine.execWrblk block s
  | .volsz => Sys2Proof.Machine.execVolsz s
  | .blksz => Sys2Proof.Machine.execBlksz s
  | .isro => Sys2Proof.Machine.execIsro s
  | .lasterr => Sys2Proof.Machine.execLasterr s
  | .isbusy address => Sys2Proof.Machine.execIsbusy address s
  | .illegal0 => Sys2Proof.Machine.execIllegal0 s
  | .illegal9 => Sys2Proof.Machine.execIllegal9 s
  | .illegal10to11 op => Sys2Proof.Machine.execIllegal10to11 op s
  | .illegal12to15 op => Sys2Proof.Machine.execIllegal12to15 op s
  | .sendcmd frame => Sys2Proof.Machine.execSendcmd frame s
  | .ack => Sys2Proof.Machine.execAck s
  | .txn frame => Sys2Proof.Machine.execTxn frame s
  | .goIdle => Sys2Proof.Machine.execGoIdle s
  | .sendIfCond => Sys2Proof.Machine.execSendIfCond s
  | .appCmd rca => Sys2Proof.Machine.execAppCmd rca s
  | .sendOpCond h => Sys2Proof.Machine.execSendOpCond h s
  | .publishRca => Sys2Proof.Machine.execPublishRca s
  | .getCsd rca => Sys2Proof.Machine.execGetCsd rca s
  | .setBlocklen => Sys2Proof.Machine.execSetBlocklen s
  | .select rca => Sys2Proof.Machine.execSelect rca s
  | .deselect => Sys2Proof.Machine.execDeselect s
  | .setBusWidth => Sys2Proof.Machine.execSetBusWidth s
  | .readSingle addr => Sys2Proof.Machine.execReadSingle addr s
  | .writeSingle addr => Sys2Proof.Machine.execWriteSingle addr s
  | .getStatus rca => Sys2Proof.Machine.execGetStatus rca s
  | .decode cls words => Sys2Proof.Machine.execDecode cls words s

end Sys2Proof.Machine
end

