-- ==== Sys2Proof/Machine/Step.lean ====
section
/-! DEFINITION. One step of the machine: the request in progress is run to completion (00_scope.md R11, R12). -/

namespace Sys2Proof.Machine

/-- HOST presents a request with its write buffer, exactly 512 bytes (20_memory.md R62): both are taken when no
operation is in progress, and otherwise the request has no effect (70_reset_and_hazards.md R323, log 22). -/
def State.present (r : Request) (wbuf : Vector Byte 512) (s : State) : State :=
  match s.port.request with
  | none => { s with port := { s.port with request := some r, wbuf := Memory.ofBytes wbuf } }
  | some _ => s

/-- The operation has ended: none is in progress (10_state.md R46). -/
def State.endOperation (s : State) : State := { s with port := { s.port with request := none } }

/-- With no operation in progress the block waits (R310); otherwise the operation runs to its end. -/
def step (s : State) : Host.Outcome State Fault Refusal :=
  match s.port.request with
  | none => .next s
  | some r =>
    match decode s.cfg r with
    | .error e => .refused (.undecodable e)
    | .ok i =>
      match exec i s with
      | .next s1 => .next s1.endOperation
      | .fault f => .fault f
      | .refused e => .refused e

/-- The state with an opcode-table row's word at the port, where `step` takes its next operation from. -/
def State.withFetchWord (s : State) (nbits w : Nat) : State :=
  { s with port := { s.port with request := tableRequest s.cfg nbits w } }

end Sys2Proof.Machine
end

