-- ==== Sys2Proof/Safety.lean ====
section
/-! DEFINITION. The terms claims are stated in: what can be seen in the log, the lifecycle modes, the invariant of the
machine between operations, and scripted answers of ENV (the replies of the fixture SIMCARD of 95_test_vectors.md,
section 3, as ENV moves). No step uses anything of this file. -/

namespace Sys2Proof

/-- A move that changes nothing CORE looks at. -/
def EnvMove.quiet : EnvMove :=
  { raise := 0, txhe := false, respCmd := 0, resp := Words4.zero, dcount := 0, place := [], take := 0 }

/-- How many response registers are read for an accepted or rejected outcome (40_transport.md R135). -/
def Shape.registers : Shape → Nat
  | .none => 0
  | .short => 1
  | .long => 4
  | .reserved => 0

end Sys2Proof

namespace Sys2Proof.Machine

/-! ## What the log shows -/

def Event.access? : Event → Option Access
  | .access a => some a
  | .seq _ => none
  | .phase _ => none

def Event.seq? : Event → Option SeqState
  | .access _ => none
  | .seq st => some st
  | .phase _ => none

def Event.phase? : Event → Option Phase
  | .access _ => none
  | .seq _ => none
  | .phase ph => some ph

/-- Everything logged so far, oldest first (log 9). -/
def State.events (s : State) : List Event := s.log.reverse

/-- The interface accesses made so far, oldest first (20_memory.md R81). -/
def State.accesses (s : State) : List Access := s.log.reverse.filterMap Event.access?

/-- The sequencer states entered so far, oldest first (42_init_sequencer.md R172). -/
def State.seqEntered (s : State) : List SeqState := s.log.reverse.filterMap Event.seq?

/-- The engine phases entered so far, oldest first (44_block_transfer.md R216, R222). -/
def State.phasesEntered (s : State) : List Phase := s.log.reverse.filterMap Event.phase?

/-- The word pushed, if the access is a push. -/
def Access.pushed? : Access → Option Word
  | .fifoPush w => some w
  | _ => none

/-- The word popped, if the access is a pop. -/
def Access.popped? : Access → Option Word
  | .fifoPop w => some w
  | _ => none

/-- The words pushed into the FIFO so far, oldest first. -/
def State.pushed (s : State) : List Word := s.accesses.filterMap Access.pushed?

/-- The words popped from the FIFO so far, oldest first. -/
def State.popped (s : State) : List Word := s.accesses.filterMap Access.popped?

/-! ## Lifecycle modes (60_exceptions.md R286) -/

inductive Mode
  | uninitialized
  | ready
  | failed
  deriving DecidableEq, Repr

def State.mode (s : State) : Mode :=
  match s.cd.cls with
  | .unknown => .uninitialized
  | .standardCapacity => .ready
  | .highCapacity => .ready
  | .error => .failed

/-! ## The invariant of the machine between operations -/

/-- The descriptor (R21 to R24, R182, R183): what each class says of the other fields. -/
structure CardDescriptor.Inv (cd : CardDescriptor) : Prop where
  unknown : cd.cls = .unknown → cd.relativeAddress = 0 ∧ cd.blockCount = 0 ∧ cd.errorCode = .none
  error : cd.cls = .error → cd.relativeAddress = 0 ∧ cd.blockCount = 0 ∧ cd.errorCode ≠ .none
  ready : cd.cls ≠ .error → cd.errorCode = .none
  bounded : cd.blockCount.toNat ≤ 2 ^ 32

/-- The sequencer's position against the class (R29, R182, R183), and the class-resolution invariant (R175). -/
structure SequencerInv (seq : Sequencer) (cls : CardClass) : Prop where
  notStarted : cls = .unknown → seq.state = .notStarted
  failed : cls = .error → seq.state = .error
  ready : cls = .standardCapacity ∨ cls = .highCapacity → seq.state = .ready ∧ seq.tentative ≠ .none

/-- The latches of unit T (R26, R27; 40_transport.md R130, R135). -/
structure Transport.Inv (t : Transport) : Prop where
  shape : t.frame.expectedResponse ≠ .reserved
  words : t.outcome.kind ≠ .accepted → t.outcome.kind ≠ .rejected → t.outcome.words = Words4.zero

/-- What CORE writes to the interface (R37, R42, R43). -/
structure Bank.Inv (p : Bank) : Prop where
  cmd : p.cmd.extractLsb' 6 2 ≠ 3#2
  start : p.cmd = 0 ∨ p.cmd.getLsbD 8 = true
  dlen : p.dlen = 0 ∨ p.dlen = 512
  dctrl : p.dctrl = 0 ∨ p.dctrl = 0b11 ∨ p.dctrl = 0b01

/-- The engine between operations (R34, 44_block_transfer.md R231). -/
structure BlockEngine.Inv (bte : BlockEngine) : Prop where
  idle : bte.phase = .idle
  count : bte.n ≤ 128

/-- The clear law as an invariant (20_memory.md R76): a command flag is latched only if a command start came after its
last clear. -/
def Env.ClearLaw (e : Env) : Prop := e.latched.extractLsb' 0 4 &&& ~~~e.armed = 0#4

/-- What holds of the machine between operations, whatever ENV does. -/
structure State.Inv (s : State) : Prop where
  cd : s.cd.Inv
  seq : SequencerInv s.seq s.cd.cls
  t : s.t.Inv
  p : s.p.Inv
  bte : s.bte.Inv
  clear : s.env.ClearLaw
  /-- With every command acknowledged, no command flag is latched and none can be raised: no later classification
  can see a stale flag (40_transport.md R137, R76). -/
  paired : s.t.ackPending = false → s.env.armed = 0
  wbuf : s.port.wbuf.wf = true
  rbuf : s.port.rbuf.wf = true

/-- A command flag that is clear and that ENV may not raise (20_memory.md R76). -/
def State.FlagDown (s : State) (i : Fin 4) : Prop :=
  s.env.latched.getLsbD i.val = false ∧ s.env.armed.getLsbD i.val = false

/-- The response registers are held and have these values (R77). -/
def State.Held (s : State) (echo : BitVec 6) (resp : Words4) : Prop :=
  s.env.stable = true ∧ s.env.respCmd = echo ∧ s.env.resp = resp

/-- The words waiting in the FIFO keep their order from `s` to `t` (R78): ENV has placed words behind those to pop, and
taken words from the front of those pushed. -/
structure State.FifoKept (s t : State) : Prop where
  rx : ∃ placed, t.env.rx = s.env.rx ++ placed
  tx : ∃ taken, t.env.tx = s.env.tx.drop taken

/-! ## Scripted answers of ENV -/

/-- How ENV answers a command: at the first read of `P.STA` after it, or not at all. -/
inductive Reply
  /-- CMDSENT. -/
  | sent
  /-- CMDREND with an echo and the response registers `P.RESP[0..3]`. -/
  | resp (echo : BitVec 6) (regs : Words4)
  /-- CCRCFAIL with the response registers. -/
  | crcfail (regs : Words4)
  /-- CTIMEOUT. -/
  | timeout
  /-- No command flag at any read: the status poll expires (R140). -/
  | silent
  deriving DecidableEq, Repr

/-- The moves ENV makes during one TXN of a frame, one for each access (R139). -/
def Reply.moves (c : Config) (f : Frame) (r : Reply) : List EnvMove :=
  [.quiet, .quiet] ++
  (match r with
    | .sent => [{ EnvMove.quiet with raise := 0b00001 }]
    | .resp echo regs =>
      { EnvMove.quiet with raise := 0b00010, respCmd := echo, resp := regs }
        :: List.replicate (1 + f.expectedResponse.registers) .quiet
    | .crcfail regs =>
      { EnvMove.quiet with raise := 0b01000, resp := regs }
        :: List.replicate (if f.crcPolicy = .ignore then f.expectedResponse.registers else 0) .quiet
    | .timeout => [{ EnvMove.quiet with raise := 0b00100 }]
    | .silent => List.replicate c.nCmd .quiet) ++
  [.quiet]

/-- The words a response of a shape gives from the response registers (R135): the last register first. -/
def responseWords (shape : Shape) (regs : Words4) : Words4 :=
  match shape with
  | .none => Words4.zero
  | .short => ⟨regs.w0, 0, 0, 0⟩
  | .long => ⟨regs.w3, regs.w2, regs.w1, regs.w0⟩
  | .reserved => Words4.zero

/-- The outcome of a reply (R132 to R135, R140). -/
def Reply.outcome (c : Config) (f : Frame) : Reply → ResponseOutcome
  | .sent => ⟨.noResponseSent, Words4.zero⟩
  | .resp echo regs =>
    ⟨if echoAccept c f.expectedResponse f.index echo then .accepted else .rejected,
      responseWords f.expectedResponse regs⟩
  | .crcfail regs =>
    if f.crcPolicy = .ignore then ⟨.accepted, responseWords f.expectedResponse regs⟩ else ⟨.crcFailed, Words4.zero⟩
  | .timeout => ⟨.timedOut, Words4.zero⟩
  | .silent => ⟨.timedOut, Words4.zero⟩

/-! ## How an outcome is found -/

/-- The reads of the response registers for a shape, in ascending index (R135). -/
def respReads (shape : Shape) (regs : Words4) : List Access :=
  match shape with
  | .none => []
  | .short => [.readResp 0 regs.w0]
  | .long => [.readResp 0 regs.w0, .readResp 1 regs.w1, .readResp 2 regs.w2, .readResp 3 regs.w3]
  | .reserved => []

/-- How a transaction's outcome was found: the accesses between the start of the command and its acknowledgment, and
the outcome they give (R131 to R135, R140). -/
inductive Answered (c : Config) (f : Frame) : List Access → ResponseOutcome → Prop
  /-- Every read of `P.STA` showed no command flag (R140). -/
  | expired (quiet : List (BitVec 7)) (hq : ∀ v ∈ quiet, anyCommandFlag v = false) (hn : quiet.length = c.nCmd) :
      Answered c f (quiet.map .readSta) ⟨.timedOut, Words4.zero⟩
  /-- CMDREND: the echo decides (R132, R133), then the words are read (R135). -/
  | response (quiet : List (BitVec 7)) (hq : ∀ v ∈ quiet, anyCommandFlag v = false) (hn : quiet.length < c.nCmd)
      (v : BitVec 7) (hv : staCmdRend v = true) (echo : BitVec 6) (regs : Words4) :
      Answered c f
        (quiet.map .readSta ++ [.readSta v, .readRespCmd echo] ++ respReads f.expectedResponse regs)
        ⟨if echoAccept c f.expectedResponse f.index echo then .accepted else .rejected,
          responseWords f.expectedResponse regs⟩
  /-- CCRCFAIL under Ignore (R134). -/
  | crcIgnored (quiet : List (BitVec 7)) (hq : ∀ v ∈ quiet, anyCommandFlag v = false) (hn : quiet.length < c.nCmd)
      (v : BitVec 7) (hr : staCmdRend v = false) (hv : staCCrcFail v = true) (hi : f.crcPolicy = .ignore)
      (regs : Words4) :
      Answered c f (quiet.map .readSta ++ [.readSta v] ++ respReads f.expectedResponse regs)
        ⟨.accepted, responseWords f.expectedResponse regs⟩
  /-- CCRCFAIL under Require (R134). -/
  | crcFailed (quiet : List (BitVec 7)) (hq : ∀ v ∈ quiet, anyCommandFlag v = false) (hn : quiet.length < c.nCmd)
      (v : BitVec 7) (hr : staCmdRend v = false) (hv : staCCrcFail v = true) (hi : f.crcPolicy = .require) :
      Answered c f (quiet.map .readSta ++ [.readSta v]) ⟨.crcFailed, Words4.zero⟩
  /-- CTIMEOUT (R132). -/
  | timedOut (quiet : List (BitVec 7)) (hq : ∀ v ∈ quiet, anyCommandFlag v = false) (hn : quiet.length < c.nCmd)
      (v : BitVec 7) (hr : staCmdRend v = false) (hc : staCCrcFail v = false) (hv : staCTimeout v = true) :
      Answered c f (quiet.map .readSta ++ [.readSta v]) ⟨.timedOut, Words4.zero⟩
  /-- CMDSENT with no response flag (R132). -/
  | sent (quiet : List (BitVec 7)) (hq : ∀ v ∈ quiet, anyCommandFlag v = false) (hn : quiet.length < c.nCmd)
      (v : BitVec 7) (hr : staCmdRend v = false) (hc : staCCrcFail v = false) (ht : staCTimeout v = false)
      (hv : staCmdSent v = true) :
      Answered c f (quiet.map .readSta ++ [.readSta v]) ⟨.noResponseSent, Words4.zero⟩

/-- The block numbers that may be accessed (20_memory.md R64, R65). -/
def CardDescriptor.InRange (cd : CardDescriptor) (block : Word) : Prop :=
  block.toNat < cd.blockCount.toNat ∧ ¬(cd.cls = .standardCapacity ∧ 2 ^ 23 ≤ block.toNat)

/-! ## What an operation does and what it leaves alone -/

/-- Every byte of the two host buffers reads as before. -/
def State.SameBytes (s t : State) : Prop :=
  ∀ a, t.port.wbuf.read a = s.port.wbuf.read a ∧ t.port.rbuf.read a = s.port.rbuf.read a

/-- The request, the write buffer, and what no operation of the host port writes. -/
structure State.SameInputs (s t : State) : Prop where
  request : t.port.request = s.port.request
  wbuf : ∀ a, t.port.wbuf.read a = s.port.wbuf.read a
  decoded : t.decoded = s.decoded
  cfg : t.cfg = s.cfg

/-- What a command leaves alone (40_transport.md R130, R136): the descriptor, units S and B, the data path's registers,
the host port with every byte of its buffers. -/
structure State.SameAround (s t : State) : Prop where
  cd : t.cd = s.cd
  seq : t.seq = s.seq
  bte : t.bte = s.bte
  dlen : t.p.dlen = s.p.dlen
  dctrl : t.p.dctrl = s.p.dctrl
  status : t.port.status = s.port.status
  value : t.port.value = s.port.value
  bytes : s.SameBytes t
  inputs : s.SameInputs t
  freed : t.freed = s.freed
  entered : t.seqEntered = s.seqEntered

/-- How many of the accesses are reads of `P.STA` that show no command flag (R131). -/
def quietReads (accesses : List Access) : Nat :=
  accesses.countP fun a =>
    match a with
    | .readSta v => !anyCommandFlag v
    | _ => false

/-- `t` is `s` after SENDCMD of `f` (R130): the two writes, the reads that found the outcome, the latches. -/
structure Sent (f : Frame) (s t : State) : Prop where
  trace : ∃ answer, Answered s.cfg f answer t.t.outcome ∧ t.t.n = quietReads answer ∧
    t.accesses =
      s.accesses ++ [.writeArg f.argument, .writeCmd (1#1 ++ f.expectedResponse.code ++ f.index)] ++ answer
  frame : t.t.frame = f
  pending : t.t.ackPending = true
  arg : t.p.arg = f.argument
  cmd : t.p.cmd = 1#1 ++ f.expectedResponse.code ++ f.index
  around : s.SameAround t

/-- `t` is `s` after one TXN of `f` (R139). -/
structure Transacted (f : Frame) (s t : State) : Prop where
  trace : ∃ answer, Answered s.cfg f answer t.t.outcome ∧ t.t.n = quietReads answer ∧
    t.accesses =
      s.accesses ++ [.writeArg f.argument, .writeCmd (1#1 ++ f.expectedResponse.code ++ f.index)] ++ answer
        ++ [.writeIcr 0b01111]
  frame : t.t.frame = f
  acknowledged : t.t.ackPending = false
  arg : t.p.arg = f.argument
  cmd : t.p.cmd = 1#1 ++ f.expectedResponse.code ++ f.index
  around : s.SameAround t

/-- Whether an access is a write of an interface register or a push. -/
def Access.isWrite : Access → Bool
  | .writeArg _ => true
  | .writeCmd _ => true
  | .writeIcr _ => true
  | .writeDlen _ => true
  | .writeDctrl _ => true
  | .fifoPush _ => true
  | .readSta _ => false
  | .readRespCmd _ => false
  | .readResp _ _ => false
  | .readDcount _ => false
  | .fifoPop _ => false

/-- The writes made so far, oldest first. -/
def State.writes (s : State) : List Access := s.accesses.filter Access.isWrite

/-- The writes of one TXN (R139). -/
def commandWrites (f : Frame) : List Access :=
  [.writeArg f.argument, .writeCmd (commandWord f), .writeIcr 0b01111]

/-- The writes of the TXNs of a list of frames, in order: argument, shape and index of each, and its acknowledgment. -/
def framesWrites (frames : List Frame) : List Access := frames.flatMap commandWrites

/-- The 128 words of the write buffer, in order (44_block_transfer.md R233). -/
def State.blockWords (s : State) : List Word := (List.range 128).map s.port.wbuf.loadWord

/-- A card command that expects no response may end in NoResponseSent or Accepted (41_card_commands.md R150). -/
def OutcomeKind.quietOk (k : OutcomeKind) : Prop := k = .noResponseSent ∨ k = .accepted

/-! ## The order of interface accesses -/

/-- Where CORE stands between the accesses of a command. -/
inductive CommandStage
  /-- No command is in progress: everything is acknowledged. -/
  | idle
  /-- `P.ARG` is written, `P.CMD` is not yet. -/
  | argument
  /-- A command is started and not acknowledged. -/
  | pending
  deriving DecidableEq, Repr

/-- The stage after an access, or none where the access may not come at that stage (40_transport.md R130, R136, R137;
20_memory.md R81): `P.CMD` directly after `P.ARG` and never while a command is unacknowledged, the response registers
inside a command only, the data path and the FIFO outside it only, and nothing but ACK's write ends a command. -/
def CommandStage.next : CommandStage → Access → Option CommandStage
  | .idle, .writeArg _ => some .argument
  | .idle, .readSta _ => some .idle
  | .idle, .writeIcr _ => some .idle
  | .idle, .writeDlen _ => some .idle
  | .idle, .writeDctrl _ => some .idle
  | .idle, .readDcount _ => some .idle
  | .idle, .fifoPop _ => some .idle
  | .idle, .fifoPush _ => some .idle
  | .idle, .writeCmd _ => none
  | .idle, .readRespCmd _ => none
  | .idle, .readResp _ _ => none
  | .argument, .writeCmd v => if v.getLsbD 8 then some .pending else none
  | .argument, _ => none
  | .pending, .readSta _ => some .pending
  | .pending, .readRespCmd _ => some .pending
  | .pending, .readResp _ _ => some .pending
  | .pending, .writeIcr mask => if mask = 0b01111 then some .idle else none
  | .pending, _ => none

/-- The stage after a list of accesses, or none where one of them comes out of order. -/
def CommandStage.run : CommandStage → List Access → Option CommandStage
  | stage, [] => some stage
  | stage, a :: l =>
    match stage.next a with
    | some stage' => stage'.run l
    | none => none

/-- The stage the machine stands at between operations. -/
def State.stage (s : State) : CommandStage := if s.t.ackPending then .pending else .idle

/-! ## The course of an operation

A course says what an operation has logged up to a point, and what the registers hold there: one constructor for each
thing it can do next. `s` is the state the operation was requested in. -/

/-- A command and its outcome, as `T.FRAME` and `T.OUTCOME` hold them (10_state.md R26, R27). -/
structure Exchange where
  frame   : Frame
  outcome : ResponseOutcome
  deriving DecidableEq, Repr

def State.lastExchange (s : State) : Exchange := ⟨s.t.frame, s.t.outcome⟩

/-- The accesses of one TXN of `f`, with those that find its outcome (40_transport.md R139). -/
def commandAccesses (f : Frame) (answer : List Access) : List Access :=
  [.writeArg f.argument, .writeCmd (commandWord f)] ++ answer ++ [.writeIcr 0b01111]

/-- `made` is what one TXN of `f` that ends with the outcome `o` logs (R139). -/
def Exchanged (c : Config) (f : Frame) (o : ResponseOutcome) (made : List Event) : Prop :=
  ∃ answer, Answered c f answer o ∧ made = (commandAccesses f answer).map .access

/-- The courses of INIT (42_init_sequencer.md R171 to R182): the registers of unit S, the address, how many commands have
passed in the state they stand at (in the pass, for the loop of R176), the latches, and the events. -/
inductive InitCourse (s : State) : Sequencer → Rca → Nat → Exchange → List Event → Prop
  /-- The entry (R171). -/
  | reset : InitCourse s { state := .reset, tentative := .none, ocr := 0, csd := Words4.zero, iter := 0 } 0 0
      s.lastExchange [.seq .reset]
  /-- GO_IDLE in its accepted set (R173). -/
  | goIdle {seq rca x made} (course : InitCourse s seq rca 0 x made) (here : seq.state = .reset)
      {o l} (exchange : Exchanged s.cfg s.cfg.goIdleFrame o l) (kind : o.kind.quietOk) :
      InitCourse s { seq with state := .interfaceCondition } rca 0 ⟨s.cfg.goIdleFrame, o⟩
        (made ++ l ++ [.seq .interfaceCondition])
  /-- SEND_IF_COND rejected: a legacy card (R174, R175). -/
  | legacy {seq rca x made} (course : InitCourse s seq rca 0 x made) (here : seq.state = .interfaceCondition)
      {o l} (exchange : Exchanged s.cfg s.cfg.sendIfCondFrame o l) (kind : o.kind = .rejected) :
      InitCourse s { seq with state := .operatingConditionsPoll, tentative := .standardCapacity, iter := 0 } rca 0
        ⟨s.cfg.sendIfCondFrame, o⟩ (made ++ l ++ [.seq .operatingConditionsPoll])
  /-- SEND_IF_COND accepted with the pattern sent (R174, R175). -/
  | candidate {seq rca x made} (course : InitCourse s seq rca 0 x made) (here : seq.state = .interfaceCondition)
      {o l} (exchange : Exchanged s.cfg s.cfg.sendIfCondFrame o l) (kind : o.kind = .accepted)
      (pattern : o.words.w0.extractLsb' 0 9 = s.cfg.ifcondArg12.extractLsb' 0 9) :
      InitCourse s { seq with state := .operatingConditionsPoll, tentative := .highCapacityCandidate, iter := 0 } rca 0
        ⟨s.cfg.sendIfCondFrame, o⟩ (made ++ l ++ [.seq .operatingConditionsPoll])
  /-- APP_CMD in its accepted set, in a pass of the loop (R176). -/
  | opCondPrefix {seq rca x made} (course : InitCourse s seq rca 0 x made) (here : seq.state = .operatingConditionsPoll)
      (left : seq.iter < s.cfg.nOcr) {o l} (exchange : Exchanged s.cfg (s.cfg.appCmdFrame rca) o l)
      (kind : o.kind.quietOk) : InitCourse s seq rca 1 ⟨s.cfg.appCmdFrame rca, o⟩ (made ++ l)
  /-- SEND_OP_COND accepted with bit 31 clear: the next pass (R176). -/
  | busy {seq rca x made} (course : InitCourse s seq rca 1 x made) (here : seq.state = .operatingConditionsPoll) {o l}
      (exchange : Exchanged s.cfg (s.cfg.sendOpCondFrame (seq.tentative == .highCapacityCandidate)) o l)
      (kind : o.kind = .accepted) (bit : o.words.w0.getLsbD 31 = false) :
      InitCourse s { seq with ocr := o.words.w0, iter := seq.iter + 1 } rca 0
        ⟨s.cfg.sendOpCondFrame (seq.tentative == .highCapacityCandidate), o⟩ (made ++ l)
  /-- SEND_OP_COND accepted with bit 31 set (R176). -/
  | poweredUp {seq rca x made} (course : InitCourse s seq rca 1 x made) (here : seq.state = .operatingConditionsPoll) {o l}
      (exchange : Exchanged s.cfg (s.cfg.sendOpCondFrame (seq.tentative == .highCapacityCandidate)) o l)
      (kind : o.kind = .accepted) (bit : o.words.w0.getLsbD 31 = true) :
      InitCourse s { seq with state := .classFinalize, ocr := o.words.w0 } rca 0
        ⟨s.cfg.sendOpCondFrame (seq.tentative == .highCapacityCandidate), o⟩ (made ++ l ++ [.seq .classFinalize])
  /-- The class is resolved, with no command (R177). -/
  | classFinalized {seq rca x made} (course : InitCourse s seq rca 0 x made) (here : seq.state = .classFinalize) :
      InitCourse s { seq with state := .addressAssign } rca 0 x (made ++ [.seq .addressAssign])
  /-- PUBLISH_RCA accepted: its word gives the address (R178). -/
  | published {seq rca x made} (course : InitCourse s seq rca 0 x made) (here : seq.state = .addressAssign) {o l}
      (exchange : Exchanged s.cfg s.cfg.publishRcaFrame o l) (kind : o.kind = .accepted) :
      InitCourse s { seq with state := .descriptorFetch } (o.words.w0.extractLsb' 16 16) 0 ⟨s.cfg.publishRcaFrame, o⟩
        (made ++ l ++ [.seq .descriptorFetch])
  /-- GET_CSD accepted: its words are the descriptor (R179). -/
  | described {seq rca x made} (course : InitCourse s seq rca 0 x made) (here : seq.state = .descriptorFetch) {o l}
      (exchange : Exchanged s.cfg (s.cfg.getCsdFrame rca) o l) (kind : o.kind = .accepted) :
      InitCourse s { seq with state := .blockLengthFix, csd := o.words } rca 0 ⟨s.cfg.getCsdFrame rca, o⟩
        (made ++ l ++ [.seq .blockLengthFix])
  /-- SET_BLOCKLEN accepted, of a StandardCapacity card (R180). -/
  | lengthSet {seq rca x made} (course : InitCourse s seq rca 0 x made) (here : seq.state = .blockLengthFix)
      (standard : ¬(seq.tentative = .highCapacityCandidate ∧ seq.ocr.getLsbD 30 = true)) {o l}
      (exchange : Exchanged s.cfg s.cfg.setBlocklenFrame o l) (kind : o.kind = .accepted) :
      InitCourse s { seq with state := .selectBusWidth } rca 0 ⟨s.cfg.setBlocklenFrame, o⟩
        (made ++ l ++ [.seq .selectBusWidth])
  /-- A HighCapacity card is sent no SET_BLOCKLEN (R180). -/
  | lengthFixed {seq rca x made} (course : InitCourse s seq rca 0 x made) (here : seq.state = .blockLengthFix)
      (high : seq.tentative = .highCapacityCandidate ∧ seq.ocr.getLsbD 30 = true) :
      InitCourse s { seq with state := .selectBusWidth } rca 0 x (made ++ [.seq .selectBusWidth])
  /-- No bus-width step (R181). -/
  | ready {seq rca x made} (course : InitCourse s seq rca 0 x made) (here : seq.state = .selectBusWidth)
      (step : s.cfg.buswidthStep = false) : InitCourse s { seq with state := .ready } rca 0 x (made ++ [.seq .ready])
  /-- SELECT accepted (R181). -/
  | widthSelected {seq rca x made} (course : InitCourse s seq rca 0 x made) (here : seq.state = .selectBusWidth)
      (step : s.cfg.buswidthStep = true) {o l} (exchange : Exchanged s.cfg (s.cfg.selectFrame rca) o l)
      (kind : o.kind = .accepted) : InitCourse s seq rca 1 ⟨s.cfg.selectFrame rca, o⟩ (made ++ l)
  /-- APP_CMD in its accepted set (R181). -/
  | widthPrefix {seq rca x made} (course : InitCourse s seq rca 1 x made) (here : seq.state = .selectBusWidth) {o l}
      (exchange : Exchanged s.cfg (s.cfg.appCmdFrame rca) o l) (kind : o.kind.quietOk) :
      InitCourse s seq rca 2 ⟨s.cfg.appCmdFrame rca, o⟩ (made ++ l)
  /-- SET_BUS_WIDTH accepted (R181). -/
  | widthSet {seq rca x made} (course : InitCourse s seq rca 2 x made) (here : seq.state = .selectBusWidth) {o l}
      (exchange : Exchanged s.cfg s.cfg.setBusWidthFrame o l) (kind : o.kind = .accepted) :
      InitCourse s seq rca 3 ⟨s.cfg.setBusWidthFrame, o⟩ (made ++ l)
  /-- DESELECT in its accepted set (R181, R182). -/
  | widthDeselected {seq rca x made} (course : InitCourse s seq rca 3 x made) (here : seq.state = .selectBusWidth) {o l}
      (exchange : Exchanged s.cfg s.cfg.deselectFrame o l) (kind : o.kind.quietOk) :
      InitCourse s { seq with state := .ready } rca 0 ⟨s.cfg.deselectFrame, o⟩ (made ++ l ++ [.seq .ready])

/-- The course of INIT to its end in `t`: `f` was its last command, sent in the state `st` after `n` others there. -/
def InitLast (s t : State) (st : SeqState) (rca : Rca) (n : Nat) (f : Frame) (made : List Event) : Prop :=
  ∃ x before l, InitCourse s { t.seq with state := st } rca n x before ∧ Exchanged s.cfg f t.t.outcome l ∧
    t.t.frame = f ∧ made = before ++ l

/-- The ends of INIT in `t` (R173 to R184), each with what it logged and its error code; Ready has code None. -/
inductive InitEnd (s t : State) : List Event → ErrorCode → Prop
  /-- Every command passed (R182). -/
  | ready {made} (course : InitCourse s t.seq t.cd.relativeAddress 0 t.lastExchange made) (here : t.seq.state = .ready) :
      InitEnd s t made .none
  /-- GO_IDLE outside its accepted set (R173, R271). -/
  | noCard {rca made} (last : InitLast s t .reset rca 0 s.cfg.goIdleFrame made) (kind : ¬t.t.outcome.kind.quietOk) :
      InitEnd s t (made ++ [.seq .error]) .notPresent
  /-- SEND_IF_COND neither Rejected nor Accepted (R174, R271). -/
  | noInterface {rca made} (last : InitLast s t .interfaceCondition rca 0 s.cfg.sendIfCondFrame made)
      (rejected : t.t.outcome.kind ≠ .rejected) (accepted : t.t.outcome.kind ≠ .accepted) :
      InitEnd s t (made ++ [.seq .error]) .notPresent
  /-- SEND_IF_COND Accepted with another pattern (R174, R272). -/
  | wrongVoltage {rca made} (last : InitLast s t .interfaceCondition rca 0 s.cfg.sendIfCondFrame made)
      (kind : t.t.outcome.kind = .accepted)
      (pattern : t.t.outcome.words.w0.extractLsb' 0 9 ≠ s.cfg.ifcondArg12.extractLsb' 0 9) :
      InitEnd s t (made ++ [.seq .error]) .voltageMismatch
  /-- APP_CMD outside its accepted set, in a pass of the loop (R176, R273). -/
  | prefixFailed {rca made} (last : InitLast s t .operatingConditionsPoll rca 0 (s.cfg.appCmdFrame rca) made)
      (left : t.seq.iter < s.cfg.nOcr) (kind : ¬t.t.outcome.kind.quietOk) :
      InitEnd s t (made ++ [.seq .error]) .protocolError
  /-- SEND_OP_COND not Accepted (R176, R273). -/
  | opCondFailed {rca made} (last : InitLast s t .operatingConditionsPoll rca 1
        (s.cfg.sendOpCondFrame (t.seq.tentative == .highCapacityCandidate)) made)
      (kind : t.t.outcome.kind ≠ .accepted) : InitEnd s t (made ++ [.seq .error]) .protocolError
  /-- `N_OCR` passes with bit 31 clear (R176, R274). -/
  | powerUpExpired {rca made}
      (course : InitCourse s { t.seq with state := .operatingConditionsPoll } rca 0 t.lastExchange made)
      (passes : t.seq.iter = s.cfg.nOcr) : InitEnd s t (made ++ [.seq .error]) .timeout
  /-- PUBLISH_RCA not Accepted (R178, R184). -/
  | addressFailed {rca made} (last : InitLast s t .addressAssign rca 0 s.cfg.publishRcaFrame made)
      (kind : t.t.outcome.kind ≠ .accepted) : InitEnd s t (made ++ [.seq .error]) .protocolError
  /-- GET_CSD not Accepted (R179, R184). -/
  | descriptorFailed {rca made} (last : InitLast s t .descriptorFetch rca 0 (s.cfg.getCsdFrame rca) made)
      (kind : t.t.outcome.kind ≠ .accepted) : InitEnd s t (made ++ [.seq .error]) .protocolError
  /-- SET_BLOCKLEN, sent to a StandardCapacity card, not Accepted (R180, R184). -/
  | blockLengthFailed {rca made} (last : InitLast s t .blockLengthFix rca 0 s.cfg.setBlocklenFrame made)
      (standard : ¬(t.seq.tentative = .highCapacityCandidate ∧ t.seq.ocr.getLsbD 30 = true))
      (kind : t.t.outcome.kind ≠ .accepted) : InitEnd s t (made ++ [.seq .error]) .protocolError
  /-- SELECT of the bus-width step not Accepted (R181, R184). -/
  | widthSelectFailed {rca made} (last : InitLast s t .selectBusWidth rca 0 (s.cfg.selectFrame rca) made)
      (step : s.cfg.buswidthStep = true) (kind : t.t.outcome.kind ≠ .accepted) :
      InitEnd s t (made ++ [.seq .error]) .protocolError
  /-- APP_CMD of the bus-width step outside its accepted set (R181, R184). -/
  | widthPrefixFailed {rca made} (last : InitLast s t .selectBusWidth rca 1 (s.cfg.appCmdFrame rca) made)
      (kind : ¬t.t.outcome.kind.quietOk) : InitEnd s t (made ++ [.seq .error]) .protocolError
  /-- SET_BUS_WIDTH not Accepted (R181, R184). -/
  | widthSetFailed {rca made} (last : InitLast s t .selectBusWidth rca 2 s.cfg.setBusWidthFrame made)
      (kind : t.t.outcome.kind ≠ .accepted) : InitEnd s t (made ++ [.seq .error]) .protocolError
  /-- DESELECT of the bus-width step outside its accepted set (R181, R184). -/
  | widthDeselectFailed {rca made} (last : InitLast s t .selectBusWidth rca 3 s.cfg.deselectFrame made)
      (kind : ¬t.t.outcome.kind.quietOk) : InitEnd s t (made ++ [.seq .error]) .protocolError

/-- One pass of the drain loop (44_block_transfer.md R220), from `n` words received to `m`, with the counter it read. -/
inductive DrainPass : Nat → Nat → Word → List Event → Prop
  /-- A word is there and wanted. -/
  | pop {n sta} (w count : Word) (room : n < 128) (flag : staRxDavl sta = true) :
      DrainPass n (n + 1) count [.access (.readSta sta), .access (.fifoPop w), .access (.readDcount count)]
  /-- No word is there, or none is wanted. -/
  | noPop {n sta} (count : Word) (none : ¬(n < 128 ∧ staRxDavl sta = true)) :
      DrainPass n n count [.access (.readSta sta), .access (.readDcount count)]

/-- The courses of a read of `block` past its preamble (R216 to R221): the phase entered, `BTE.n`, `BTE.iter`, the
latches, and the events. -/
inductive ReadCourse (s : State) (block : Word) : Phase → Nat → Nat → Exchange → List Event → Prop
  | select : ReadCourse s block .select 0 0 s.lastExchange [.phase .select]
  /-- SELECT accepted (R217). -/
  | dataSetup {n i x made} (course : ReadCourse s block .select n i x made) {o l}
      (exchange : Exchanged s.cfg (s.cfg.selectFrame s.cd.relativeAddress) o l) (kind : o.kind = .accepted) :
      ReadCourse s block .dataSetup n i ⟨s.cfg.selectFrame s.cd.relativeAddress, o⟩ (made ++ l ++ [.phase .dataSetup])
  /-- 512 bytes, card to host (R218). -/
  | command {n i x made} (course : ReadCourse s block .dataSetup n i x made) :
      ReadCourse s block .command n i x
        (made ++ [.access (.writeDlen 512), .access (.writeDctrl 0b11), .phase .command])
  /-- READ_SINGLE of the translated address accepted (R219). -/
  | stream {n i x made} (course : ReadCourse s block .command n i x made) {o l}
      (exchange : Exchanged s.cfg (s.cfg.readSingleFrame (translateBlock s.cd.cls block)) o l)
      (kind : o.kind = .accepted) :
      ReadCourse s block .stream 0 0 ⟨s.cfg.readSingleFrame (translateBlock s.cd.cls block), o⟩
        (made ++ l ++ [.phase .stream])
  /-- A pass of the drain loop that leaves words to pop or a counter that is not zero (R220). -/
  | pass {n i x made} (course : ReadCourse s block .stream n i x made) (left : i < s.cfg.nRx) {m count l}
      (made' : DrainPass n m count l) (more : ¬(m = 128 ∧ count = 0)) :
      ReadCourse s block .stream m (i + 1) x (made ++ l)
  /-- The pass that leaves 128 words received and a counter of zero (R220, 90_conflicts.md C4). -/
  | deselect {n i x made} (course : ReadCourse s block .stream n i x made) (left : i < s.cfg.nRx) {l}
      (made' : DrainPass n 128 0 l) : ReadCourse s block .deselect 128 i x (made ++ l ++ [.phase .deselect])

/-- The course of a read to its end in `t`: `f` was its last command, sent in the phase `ph`. -/
def ReadLast (s t : State) (block : Word) (ph : Phase) (f : Frame) (made : List Event) : Prop :=
  ∃ x before l, ReadCourse s block ph t.bte.n t.bte.iter x before ∧ Exchanged s.cfg f t.t.outcome l ∧
    t.t.frame = f ∧ made = before ++ l

/-- The ends in `t` of a read that passed its bounds checks (R216 to R221, R231), each with what it logged and its
status. -/
inductive ReadEnd (s t : State) (block : Word) : List Event → Status → Prop
  /-- DESELECT in its accepted set, after 128 words (R221). -/
  | delivered {made} (last : ReadLast s t block .deselect s.cfg.deselectFrame made) (kind : t.t.outcome.kind.quietOk)
      (count : t.bte.n = 128) : ReadEnd s t block (made ++ [.phase .idle]) .ok
  /-- SELECT not accepted (R217). -/
  | selectFailed {made} (last : ReadLast s t block .select (s.cfg.selectFrame s.cd.relativeAddress) made)
      (kind : t.t.outcome.kind ≠ .accepted) (count : t.bte.n = 0) :
      ReadEnd s t block (made ++ [.phase .idle]) .protocolError
  /-- READ_SINGLE not accepted (R219). -/
  | commandFailed {made} (last : ReadLast s t block .command (s.cfg.readSingleFrame (translateBlock s.cd.cls block)) made)
      (kind : t.t.outcome.kind ≠ .accepted) (count : t.bte.n = 0) :
      ReadEnd s t block (made ++ [.phase .idle]) .protocolError
  /-- DESELECT outside its accepted set, although 128 words were received (R221). -/
  | deselectFailed {made} (last : ReadLast s t block .deselect s.cfg.deselectFrame made)
      (kind : ¬t.t.outcome.kind.quietOk) (count : t.bte.n = 128) :
      ReadEnd s t block (made ++ [.phase .idle]) .protocolError
  /-- `N_RX` passes of the drain loop (R220). -/
  | drainExpired {made} (course : ReadCourse s block .stream t.bte.n t.bte.iter t.lastExchange made)
      (passes : t.bte.iter = s.cfg.nRx) : ReadEnd s t block (made ++ [.phase .idle]) .timeout

/-- The courses of a write of `block` past its preamble (R222 to R230), as `ReadCourse`. -/
inductive WriteCourse (s : State) (block : Word) : Phase → Nat → Nat → Exchange → List Event → Prop
  | select : WriteCourse s block .select 0 0 s.lastExchange [.phase .select]
  /-- SELECT accepted (R222). -/
  | readyWait1 {n i x made} (course : WriteCourse s block .select n i x made) {o l}
      (exchange : Exchanged s.cfg (s.cfg.selectFrame s.cd.relativeAddress) o l) (kind : o.kind = .accepted) :
      WriteCourse s block .readyWait1 n 0 ⟨s.cfg.selectFrame s.cd.relativeAddress, o⟩
        (made ++ l ++ [.phase .readyWait1])
  /-- A GET_STATUS of either poll accepted with the ready-for-data flag clear (R223, R229). -/
  | busy {ph n i x made} (course : WriteCourse s block ph n i x made) (here : ph = .readyWait1 ∨ ph = .readyWait2)
      (left : i < s.cfg.nReady) {o l} (exchange : Exchanged s.cfg (s.cfg.getStatusFrame s.cd.relativeAddress) o l)
      (kind : o.kind = .accepted) (flag : o.words.w0.getLsbD s.cfg.rfdBit.val = false) :
      WriteCourse s block ph n (i + 1) ⟨s.cfg.getStatusFrame s.cd.relativeAddress, o⟩ (made ++ l)
  /-- A GET_STATUS of the first poll accepted with the flag set (R223). -/
  | command {n i x made} (course : WriteCourse s block .readyWait1 n i x made) (left : i < s.cfg.nReady) {o l}
      (exchange : Exchanged s.cfg (s.cfg.getStatusFrame s.cd.relativeAddress) o l)
      (kind : o.kind = .accepted) (flag : o.words.w0.getLsbD s.cfg.rfdBit.val = true) :
      WriteCourse s block .command n i ⟨s.cfg.getStatusFrame s.cd.relativeAddress, o⟩ (made ++ l ++ [.phase .command])
  /-- WRITE_SINGLE of the translated address accepted (R224). -/
  | dataSetup {n i x made} (course : WriteCourse s block .command n i x made) {o l}
      (exchange : Exchanged s.cfg (s.cfg.writeSingleFrame (translateBlock s.cd.cls block)) o l)
      (kind : o.kind = .accepted) :
      WriteCourse s block .dataSetup n i ⟨s.cfg.writeSingleFrame (translateBlock s.cd.cls block), o⟩
        (made ++ l ++ [.phase .dataSetup])
  /-- DATAEND cleared, 512 bytes, host to card, and the first word (R225 to R227). -/
  | stream {n i x made} (course : WriteCourse s block .dataSetup n i x made) :
      WriteCourse s block .stream 1 0 x
        (made ++ [.access (.writeIcr 0b10000), .access (.writeDlen 512), .access (.writeDctrl 0b01), .phase .stream,
          .access (.fifoPush (s.port.wbuf.loadWord 0))])
  /-- A pass of the push loop that pushes the next word (R228). -/
  | push {n i x made} (course : WriteCourse s block .stream n i x made) (left : i < s.cfg.nTx) {sta}
      (going : staDataEnd sta = false) (flag : staTxHe sta = true) (room : n < 128) :
      WriteCourse s block .stream (n + 1) (i + 1) x
        (made ++ [.access (.readSta sta), .access (.fifoPush (s.port.wbuf.loadWord n))])
  /-- A pass of the push loop that pushes nothing (R228). -/
  | wait {n i x made} (course : WriteCourse s block .stream n i x made) (left : i < s.cfg.nTx) {sta}
      (going : staDataEnd sta = false) (none : ¬(staTxHe sta = true ∧ n < 128)) :
      WriteCourse s block .stream n (i + 1) x (made ++ [.access (.readSta sta)])
  /-- DATAEND read as 1 after 128 words (R228, 20_memory.md R83). -/
  | readyWait2 {i x made} (course : WriteCourse s block .stream 128 i x made) (left : i < s.cfg.nTx) {sta}
      (ended : staDataEnd sta = true) :
      WriteCourse s block .readyWait2 128 0 x (made ++ [.access (.readSta sta), .phase .readyWait2])
  /-- A GET_STATUS of the second poll accepted with the flag set (R229, R83). -/
  | deselect {n i x made} (course : WriteCourse s block .readyWait2 n i x made) (left : i < s.cfg.nReady) {o l}
      (exchange : Exchanged s.cfg (s.cfg.getStatusFrame s.cd.relativeAddress) o l)
      (kind : o.kind = .accepted) (flag : o.words.w0.getLsbD s.cfg.rfdBit.val = true) :
      WriteCourse s block .deselect n i ⟨s.cfg.getStatusFrame s.cd.relativeAddress, o⟩ (made ++ l ++ [.phase .deselect])

/-- The course of a write to its end in `t`: `f` was its last command, sent in the phase `ph`. -/
def WriteLast (s t : State) (block : Word) (ph : Phase) (f : Frame) (made : List Event) : Prop :=
  ∃ x before l, WriteCourse s block ph t.bte.n t.bte.iter x before ∧ Exchanged s.cfg f t.t.outcome l ∧
    t.t.frame = f ∧ made = before ++ l

/-- The ends in `t` of a write that passed its bounds checks (R222 to R231), each with what it logged and its status. No
word is pushed before the data path is set up (`BTE.n` = 0), and all 128 are before the second ready-for-data poll. -/
inductive WriteEnd (s t : State) (block : Word) : List Event → Status → Prop
  /-- DESELECT in its accepted set, after 128 words (R230). -/
  | committed {made} (last : WriteLast s t block .deselect s.cfg.deselectFrame made) (kind : t.t.outcome.kind.quietOk)
      (count : t.bte.n = 128) : WriteEnd s t block (made ++ [.phase .idle]) .ok
  /-- SELECT not accepted (R222). -/
  | selectFailed {made} (last : WriteLast s t block .select (s.cfg.selectFrame s.cd.relativeAddress) made)
      (kind : t.t.outcome.kind ≠ .accepted) (count : t.bte.n = 0) :
      WriteEnd s t block (made ++ [.phase .idle]) .protocolError
  /-- A GET_STATUS of the first poll not accepted (R223). -/
  | statusFailed {made} (last : WriteLast s t block .readyWait1 (s.cfg.getStatusFrame s.cd.relativeAddress) made)
      (kind : t.t.outcome.kind ≠ .accepted) (count : t.bte.n = 0) (left : t.bte.iter < s.cfg.nReady) :
      WriteEnd s t block (made ++ [.phase .idle]) .protocolError
  /-- `N_READY` GET_STATUS of the first poll accepted with the ready-for-data flag clear (R223). -/
  | notReady {made} (course : WriteCourse s block .readyWait1 t.bte.n t.bte.iter t.lastExchange made)
      (passes : t.bte.iter = s.cfg.nReady) (count : t.bte.n = 0) :
      WriteEnd s t block (made ++ [.phase .idle]) .timeout
  /-- WRITE_SINGLE not accepted (R224). -/
  | commandFailed {made} (last : WriteLast s t block .command (s.cfg.writeSingleFrame (translateBlock s.cd.cls block)) made)
      (kind : t.t.outcome.kind ≠ .accepted) (count : t.bte.n = 0) :
      WriteEnd s t block (made ++ [.phase .idle]) .protocolError
  /-- DATAEND seen with fewer than 128 words pushed (R228). -/
  | endedEarly {made sta} (course : WriteCourse s block .stream t.bte.n t.bte.iter t.lastExchange made)
      (left : t.bte.iter < s.cfg.nTx) (ended : staDataEnd sta = true) (first : 1 ≤ t.bte.n) (count : t.bte.n < 128) :
      WriteEnd s t block (made ++ [.access (.readSta sta)] ++ [.phase .idle]) .protocolError
  /-- `N_TX` passes of the push loop without DATAEND (R228). -/
  | pushExpired {made} (course : WriteCourse s block .stream t.bte.n t.bte.iter t.lastExchange made)
      (passes : t.bte.iter = s.cfg.nTx) (first : 1 ≤ t.bte.n) (count : t.bte.n ≤ 128) :
      WriteEnd s t block (made ++ [.phase .idle]) .timeout
  /-- A GET_STATUS of the second poll not accepted (R229). -/
  | commitFailed {made} (last : WriteLast s t block .readyWait2 (s.cfg.getStatusFrame s.cd.relativeAddress) made)
      (kind : t.t.outcome.kind ≠ .accepted) (count : t.bte.n = 128) (left : t.bte.iter < s.cfg.nReady) :
      WriteEnd s t block (made ++ [.phase .idle]) .protocolError
  /-- `N_READY` GET_STATUS of the second poll accepted with the ready-for-data flag clear (R229). -/
  | notCommitted {made} (course : WriteCourse s block .readyWait2 t.bte.n t.bte.iter t.lastExchange made)
      (passes : t.bte.iter = s.cfg.nReady) (count : t.bte.n = 128) :
      WriteEnd s t block (made ++ [.phase .idle]) .timeout
  /-- DESELECT outside its accepted set (R230). -/
  | deselectFailed {made} (last : WriteLast s t block .deselect s.cfg.deselectFrame made)
      (kind : ¬t.t.outcome.kind.quietOk) (count : t.bte.n = 128) :
      WriteEnd s t block (made ++ [.phase .idle]) .protocolError

/-! ## Scripted runs -/

/-- ENV's moves while it answers a list of commands, each by its reply. -/
def answers (c : Config) (exchanges : List (Frame × Reply)) : List EnvMove :=
  exchanges.flatMap fun x => x.2.moves c x.1

/-- ENV is about to make the moves `moves`, with every command acknowledged and no command flag latched: the start of a
scripted run (70_reset_and_hazards.md R312). -/
structure State.Scripted (s : State) (moves : List EnvMove) : Prop where
  acknowledged : s.t.ackPending = false
  flags : s.env.latched.extractLsb' 0 4 = 0#4
  polled : 1 ≤ s.cfg.nCmd
  script : ∃ rest, s.env.script = moves ++ rest

/-- One pass of the operating-conditions loop (42_init_sequencer.md R176) with its two replies. -/
def opCondExchange (c : Config) (h : Bool) (r : Reply × Reply) : List (Frame × Reply) :=
  [(c.appCmdFrame 0, r.1), (c.sendOpCondFrame h, r.2)]

/-- The passes that find the card not powered up yet. -/
def opCondExchanges (c : Config) (h : Bool) (rs : List (Reply × Reply)) : List (Frame × Reply) :=
  rs.flatMap (opCondExchange c h)

/-- A pass of the operating-conditions loop passes its commands, and the word it reads has bit 31 as given. -/
structure PollPass (c : Config) (h : Bool) (r : Reply × Reply) (poweredUp : Bool) : Prop where
  prefixOk : (r.1.outcome c (c.appCmdFrame 0)).kind.quietOk
  accepted : (r.2.outcome c (c.sendOpCondFrame h)).kind = .accepted
  bit : (r.2.outcome c (c.sendOpCondFrame h)).words.w0.getLsbD 31 = poweredUp

/-- The reply to SEND_IF_COND that makes the card a high-capacity candidate (`h` = true) or a legacy card (`h` = false)
(R174). -/
def InterfaceReply (c : Config) (h : Bool) (r : Reply) : Prop :=
  h = false ∧ (r.outcome c c.sendIfCondFrame).kind = .rejected ∨
    h = true ∧ (r.outcome c c.sendIfCondFrame).kind = .accepted ∧
      (r.outcome c c.sendIfCondFrame).words.w0.extractLsb' 0 9 = c.ifcondArg12.extractLsb' 0 9

/-- ENV's moves while CORE drains the words of a block: each is placed before the status read, and the counter then
shows four bytes for each word still to come (95_test_vectors.md vector B1). -/
def drainMoves : List Word → List EnvMove
  | [] => []
  | w :: ws =>
    [{ EnvMove.quiet with place := [w] }, .quiet, { EnvMove.quiet with dcount := BitVec.ofNat 32 (4 * ws.length) }]
      ++ drainMoves ws

/-- ENV's moves while CORE pushes a block: room at each status read, then DATAEND (vector B8). -/
def pushMoves : List EnvMove :=
  (List.replicate 127 [{ EnvMove.quiet with txhe := true }, .quiet]).flatten
    ++ [{ EnvMove.quiet with raise := 0b10000 }]

/-- The GET_STATUS exchanges of a ready-for-data poll (R223). -/
def readyExchanges (c : Config) (rca : Rca) (rs : List Reply) : List (Frame × Reply) :=
  rs.map fun r => (c.getStatusFrame rca, r)

/-- A GET_STATUS is accepted with the ready-for-data flag as given (R109, R223). -/
structure StatusReply (c : Config) (rca : Rca) (r : Reply) (ready : Bool) : Prop where
  accepted : (r.outcome c (c.getStatusFrame rca)).kind = .accepted
  flag : (r.outcome c (c.getStatusFrame rca)).words.w0.getLsbD c.rfdBit.val = ready

end Sys2Proof.Machine
end

