-- ==== Sys2Proof/Certificates/Slice0/Obligations.lean ====
section
/-! DEFINITION. The statements for the provers. Each docstring names the rules of spec/ the statement formalises. -/

open Sys2Proof Sys2Proof.Machine

/-! ## Encodings -/

/-- R92, R95, R110, R112, R117: the decoder gives back every well-formed instruction from its word, with every operand,
whatever the parameters, provided the index parameters are pairwise distinct (R117) and `OPCOND_BASE` has bit `HCS_BIT`
clear (R7). -/
def Obligations.DecodeEncode : Prop :=
  ∀ (c : Config) (i : Instr), c.distinctIndices = true → c.opcondBase.getLsbD c.hcsBit.val = false → i.wf = true →
    decode c (encode c i) = .ok i

/-- R117: a format C word that decodes is the word of what it decodes to, bit for bit: index, shape, policy and the
argument bits the row fixes all match. -/
def Obligations.CardWordsAreExact : Prop :=
  ∀ (c : Config) (w : BitVec 41) (i : Instr), decode c (.card w) = .ok i → encode c i = .card w

/-- R95, R96, R113(a), (f): format H, `HW = operand ‖ op`, all sixteen codes; only RDBLK, WRBLK and the low 16 bits of
ISBUSY use the operand. -/
def Obligations.HostWords : Prop :=
  ∀ (c : Config) (operand : Word),
    decode c (.host (operand ++ 0#4)) = .ok .illegal0 ∧
    decode c (.host (operand ++ 1#4)) = .ok .init ∧
    decode c (.host (operand ++ 2#4)) = .ok (.rdblk operand) ∧
    decode c (.host (operand ++ 3#4)) = .ok (.wrblk operand) ∧
    decode c (.host (operand ++ 4#4)) = .ok .volsz ∧
    decode c (.host (operand ++ 5#4)) = .ok .blksz ∧
    decode c (.host (operand ++ 6#4)) = .ok .isro ∧
    decode c (.host (operand ++ 7#4)) = .ok .lasterr ∧
    decode c (.host (operand ++ 8#4)) = .ok (.isbusy (operand.extractLsb' 0 16)) ∧
    decode c (.host (operand ++ 9#4)) = .ok .illegal9 ∧
    decode c (.host (operand ++ 10#4)) = .ok (.illegal10to11 10) ∧
    decode c (.host (operand ++ 11#4)) = .ok (.illegal10to11 11) ∧
    decode c (.host (operand ++ 12#4)) = .ok (.illegal12to15 12) ∧
    decode c (.host (operand ++ 13#4)) = .ok (.illegal12to15 13) ∧
    decode c (.host (operand ++ 14#4)) = .ok (.illegal12to15 14) ∧
    decode c (.host (operand ++ 15#4)) = .ok (.illegal12to15 15)

/-- R92, R93, R94, R113(b), (c): format T, `TW = argument ‖ crcPolicy ‖ expectedResponse ‖ index ‖ t`. With t = 1 it is
ACK whatever the frame bits. The word of TXN, which has no encoding of its own (R139), is the model's (log 10), and
shape code 3 is a constructor of the model's (log 26). -/
def Obligations.TransportWords : Prop :=
  ∀ (c : Config) (argument : Word) (policy : BitVec 1) (shape : BitVec 2) (index : BitVec 6),
    decode c (.transport (argument ++ policy ++ shape ++ index ++ 1#1)) = .ok .ack ∧
    ∃ f : Frame, decode c (.transport (argument ++ policy ++ shape ++ index ++ 0#1)) = .ok (.sendcmd f) ∧
      decode c (.transaction (argument ++ policy ++ shape ++ index)) = .ok (.txn f) ∧
      f.argument = argument ∧ f.index = index ∧
      (f.crcPolicy = .require ↔ policy = 0) ∧ (f.crcPolicy = .ignore ↔ policy = 1) ∧
      (f.expectedResponse = .none ↔ shape = 0) ∧ (f.expectedResponse = .short ↔ shape = 1) ∧
      (f.expectedResponse = .long ↔ shape = 2) ∧ (f.expectedResponse = .reserved ↔ shape = 3)

/-- A sanity check of a few words written out from the spec's own examples (95_test_vectors.md, sections 2.2 and 2.6;
the index values are defaults of R7 that the spec marks as general knowledge). -/
def Obligations.KnownWords : Prop :=
  decode Config.defaults (.host 0x000000052) = .ok (.rdblk 5) ∧
  decode Config.defaults (.host 0x000012348) = .ok (.isbusy 0x1234) ∧
  decode Config.defaults (.host 0x123456789) = .ok .illegal9 ∧
  decode Config.defaults (.card 0x00000035448) = .ok .sendIfCond ∧
  decode Config.defaults (.card 0x081FF000169) = .ok (.sendOpCond true) ∧
  decode Config.defaults (.card 0x02468000089) = .ok (.getCsd 0x1234) ∧
  decode Config.defaults (.card 0x166D0000047) = .ok (.select 0xB368) ∧
  decode Config.defaults (.card 0x00000000007) = .ok .deselect ∧
  decode Config.defaults (.card 0x00397FC0051) = .ok (.readSingle 0x01CBFE00) ∧
  decode Config.defaults (.decoder 0x200000000000000001D5F000000000000) =
    .ok (.decode .highCapacity ⟨0, 0, 0x1D5F0000, 0⟩)

/-! ## The transport -/

/-- R130, R131 to R135, R140: SENDCMD completes whenever nothing is pending, for every frame with a response shape. It
makes the two writes, polls, classifies and extracts as `Answered` says, and touches nothing else. The log of accesses
is the model's own (log 9). -/
def Obligations.SendcmdCompletes : Prop :=
  ∀ (f : Frame) (s : State), f.expectedResponse ≠ .reserved → s.t.ackPending = false →
    ∃ t, exec (.sendcmd f) s = .next t ∧ Sent f s t

/-- R317: a frame with response shape 3 raises IllegalFrame, under SENDCMD and under TXN, whatever the state. -/
def Obligations.IllegalFrameStops : Prop :=
  ∀ (f : Frame) (s : State), f.expectedResponse = .reserved →
    exec (.sendcmd f) s = .fault .illegalFrame ∧ exec (.txn f) s = .fault .illegalFrame

/-- R315: with an acknowledgment pending, every operation whose first interface access is a command stops with
StaleFlags; a block operation does so only past its bounds checks (R280). Where the check stands is log 13; a card
command alone is TXN, log 14. -/
def Obligations.StaleFlagsStops : Prop :=
  ∀ (s : State), s.t.ackPending = true →
    (∀ f : Frame, f.expectedResponse ≠ .reserved →
      exec (.sendcmd f) s = .fault .staleFlags ∧ exec (.txn f) s = .fault .staleFlags) ∧
    (∀ i ∈ [Instr.init, .goIdle, .sendIfCond, .publishRca, .setBlocklen, .deselect, .setBusWidth],
      exec i s = .fault .staleFlags) ∧
    (∀ rca : Rca, ∀ i ∈ [Instr.isbusy rca, .appCmd rca, .getCsd rca, .select rca, .getStatus rca],
      exec i s = .fault .staleFlags) ∧
    (∀ h : Bool, exec (.sendOpCond h) s = .fault .staleFlags) ∧
    (∀ addr : Word, exec (.readSingle addr) s = .fault .staleFlags ∧ exec (.writeSingle addr) s = .fault .staleFlags) ∧
    (∀ block : Word, s.cd.InRange block →
      exec (.rdblk block) s = .fault .staleFlags ∧ exec (.wrblk block) s = .fault .staleFlags)

/-- R136: ACK always completes: one write of 0b01111 to `P.ICR`, nothing pending, the outcome still readable; the four
command flags then read 0, and DATAEND keeps a 1. -/
def Obligations.AckCompletes : Prop :=
  ∀ s : State, ∃ t, exec .ack s = .next t ∧
    t.accesses = s.accesses ++ [.writeIcr 0b01111] ∧ t.t = { s.t with ackPending := false } ∧ t.p = s.p ∧
    t.env.latched.extractLsb' 0 4 = 0#4 ∧
    (s.env.latched.getLsbD 4 = true → t.env.latched.getLsbD 4 = true) ∧
    s.SameAround t

/-- R139: TXN is SENDCMD, then ACK, and its outcome is that of the SENDCMD. -/
def Obligations.TxnIsSendcmdThenAck : Prop :=
  ∀ (f : Frame) (s : State), f.expectedResponse ≠ .reserved → s.t.ackPending = false →
    ∃ u t, exec (.sendcmd f) s = .next u ∧ exec .ack u = .next t ∧ exec (.txn f) s = .next t ∧
      t.t.outcome = u.t.outcome ∧ Transacted f s t

/-- R139, R321: the accesses of one TXN: the two writes, one to `N_CMD` reads of `P.STA`, at most one of `P.RESPCMD`,
none, one or four of `P.RESP`, one write of `P.ICR`; in all at most `N_CMD` + 8. -/
def Obligations.TxnAccesses : Prop :=
  ∀ (f : Frame) (s : State), f.expectedResponse ≠ .reserved → s.t.ackPending = false → 1 ≤ s.cfg.nCmd →
    ∃ (t : State) (stas : List (BitVec 7)) (echo : List (BitVec 6)) (resps : List (Fin 4 × Word)),
      exec (.txn f) s = .next t ∧
      t.accesses = s.accesses ++ ([.writeArg f.argument, .writeCmd (1#1 ++ f.expectedResponse.code ++ f.index)] ++
        stas.map .readSta ++ echo.map .readRespCmd ++ resps.map (fun r => .readResp r.1 r.2) ++ [.writeIcr 0b01111]) ∧
      1 ≤ stas.length ∧ stas.length ≤ s.cfg.nCmd ∧ echo.length ≤ 1 ∧
      (resps.map Prod.fst = [] ∨ resps.map Prod.fst = [0] ∨ resps.map Prod.fst = [0, 1, 2, 3]) ∧
      (t.accesses.length - s.accesses.length ≤ s.cfg.nCmd + 8)

/-- R132 to R135 on scripted replies: whatever ENV answers at the first read of `P.STA`, or if it never answers
(R140), TXN completes with the outcome that reply stands for, the reply's moves are used up, and no command flag is left. ENV's moves as data are the
model's choice (log 2). -/
def Obligations.TxnRepliesClassified : Prop :=
  ∀ (f : Frame) (r : Reply) (s : State) (rest : List EnvMove), f.expectedResponse ≠ .reserved →
    s.Scripted (r.moves s.cfg f) → s.env.script = r.moves s.cfg f ++ rest →
    ∃ t, exec (.txn f) s = .next t ∧ t.t.outcome = r.outcome s.cfg f ∧ t.env.script = rest ∧
      t.env.latched.extractLsb' 0 4 = 0#4 ∧ t.env.latched.getLsbD 4 = s.env.latched.getLsbD 4 ∧
      ∀ echo regs, r = .resp echo regs →
        (f.expectedResponse = .short → s.cfg.echoShort = .equal →
          (t.t.outcome.kind = .accepted ↔ echo.toNat = f.index.toNat) ∧
          (t.t.outcome.kind = .rejected ↔ echo.toNat ≠ f.index.toNat)) ∧
        (f.expectedResponse = .long → s.cfg.echoLong = .always → t.t.outcome.kind = .accepted) ∧
        (f.expectedResponse = .none → s.cfg.echoNone = .always → t.t.outcome.kind = .accepted)

/-- R112, R115, R150 to R155: GO_IDLE, SEND_IF_COND, APP_CMD, SEND_OP_COND, PUBLISH_RCA and GET_CSD complete whenever
nothing is pending: one TXN of exactly the frame of the row. That the catalogue entry alone is TXN and nothing more is
DEDUCED (log 14). -/
def Obligations.IdentificationCommands : Prop :=
  ∀ s : State, s.t.ackPending = false →
    (∃ t, exec .goIdle s = .next t ∧ Transacted ⟨s.cfg.idxGoIdle, 0x00000000, .none, .require⟩ s t) ∧
    (∃ t, exec .sendIfCond s = .next t ∧
      Transacted ⟨s.cfg.idxSendIfCond, 0#20 ++ s.cfg.ifcondArg12, .short, .require⟩ s t) ∧
    (∀ rca : Rca, ∃ t, exec (.appCmd rca) s = .next t ∧
      Transacted ⟨s.cfg.idxAppCmd, rca ++ 0#16, .none, .require⟩ s t) ∧
    (∃ t, exec (.sendOpCond false) s = .next t ∧
      Transacted ⟨s.cfg.idxSendOpCond, s.cfg.opcondBase, .short, .ignore⟩ s t) ∧
    (∃ t, exec (.sendOpCond true) s = .next t ∧
      Transacted ⟨s.cfg.idxSendOpCond, s.cfg.opcondBase ||| BitVec.twoPow 32 s.cfg.hcsBit.val, .short, .ignore⟩ s t) ∧
    (∃ t, exec .publishRca s = .next t ∧ Transacted ⟨s.cfg.idxPublishRca, 0x00000000, .short, .require⟩ s t) ∧
    (∀ rca : Rca, ∃ t, exec (.getCsd rca) s = .next t ∧
      Transacted ⟨s.cfg.idxGetCsd, rca ++ 0#16, .long, .require⟩ s t)

/-- R112, R115, R156 to R162: SET_BLOCKLEN, SELECT, DESELECT, SET_BUS_WIDTH, READ_SINGLE, WRITE_SINGLE and GET_STATUS
complete whenever nothing is pending: one TXN of exactly the frame of the row. That the catalogue entry alone is TXN
and nothing more is DEDUCED (log 14). -/
def Obligations.TransferCommands : Prop :=
  ∀ s : State, s.t.ackPending = false →
    (∃ t, exec .setBlocklen s = .next t ∧ Transacted ⟨s.cfg.idxSetBlocklen, 0x00000200, .short, .require⟩ s t) ∧
    (∀ rca : Rca, ∃ t, exec (.select rca) s = .next t ∧
      Transacted ⟨s.cfg.idxSelect, rca ++ 0#16, .short, .require⟩ s t) ∧
    (∃ t, exec .deselect s = .next t ∧
      Transacted ⟨s.cfg.idxSelect, s.cfg.deselectRca ++ 0#16, .none, .require⟩ s t) ∧
    (∃ t, exec .setBusWidth s = .next t ∧ Transacted ⟨s.cfg.idxSetBusWidth, s.cfg.buswidthArg, .short, .require⟩ s t) ∧
    (∀ addr : Word, ∃ t, exec (.readSingle addr) s = .next t ∧
      Transacted ⟨s.cfg.idxReadSingle, addr, .short, .require⟩ s t) ∧
    (∀ addr : Word, ∃ t, exec (.writeSingle addr) s = .next t ∧
      Transacted ⟨s.cfg.idxWriteSingle, addr, .short, .require⟩ s t) ∧
    (∀ rca : Rca, ∃ t, exec (.getStatus rca) s = .next t ∧
      Transacted ⟨s.cfg.idxGetStatus, rca ++ 0#16, .short, .require⟩ s t)

/-! ## INIT -/

/-- R170, R171 to R184, R271 to R274, R281: with nothing pending INIT always completes, in one of two ways. Ready: status Ok,
value 0, error None, the class HighCapacity exactly when the tentative class was HighCapacityCandidate and OCR bit 30 is
set, else StandardCapacity, the count decoded from the descriptor words. Failed: class Error, one of the four codes in
the descriptor, the status and the value, count and address 0. Either way `InitEnd` gives the cause of the code and the
course that led to it, whatever ENV does, a card that never answers included: each command in the state it is sent in, in
its accepted set if another follows, the registers of unit S as the answers give them, and the states entered. Courses are
read off the model's own log (log 9). -/
def Obligations.InitCompletes : Prop :=
  ∀ s : State, s.t.ackPending = false → ∃ t made, exec .init s = .next t ∧ t.t.ackPending = false ∧
    t.events = s.events ++ made ∧ InitEnd s t made t.cd.errorCode ∧
    ((t.port.status = .ok ∧ t.port.value = 0 ∧ t.cd.errorCode = .none ∧ t.seq.state = .ready ∧
        t.seq.tentative ≠ .none ∧ t.seq.ocr.getLsbD 31 = true ∧
        t.cd.cls = (if t.seq.tentative = .highCapacityCandidate ∧ t.seq.ocr.getLsbD 30 = true then .highCapacity
          else .standardCapacity) ∧
        t.cd.blockCount.toNat = decodeBlocks t.cd.cls t.seq.csd) ∨
      (t.cd.cls = .error ∧ t.cd.relativeAddress = 0 ∧ t.cd.blockCount = 0 ∧ t.seq.state = .error ∧
        t.cd.errorCode ≠ .none ∧ t.port.status = t.cd.errorCode.status ∧
        t.port.value = t.cd.errorCode.code.setWidth 64))

/-- R170: the frame of INIT: it writes no register of unit B, no register of the data path, no byte of a host buffer. -/
def Obligations.InitFrame : Prop :=
  ∀ s : State, s.t.ackPending = false → ∃ t, exec .init s = .next t ∧
    t.bte = s.bte ∧ t.p.dlen = s.p.dlen ∧ t.p.dctrl = s.p.dctrl ∧ s.SameBytes t ∧ s.SameInputs t ∧ t.freed = s.freed ∧
    t.pushed = s.pushed ∧ t.popped = s.popped

/-- R171, R314: "the block starts every INIT from the same cleared registers": what INIT does never depends on the
descriptor or the sequencer registers it finds. -/
def Obligations.InitForgets : Prop :=
  ∀ (s : State) (cd : CardDescriptor) (seq : Sequencer), exec .init { s with cd := cd, seq := seq } = exec .init s

/-- R172: the sequencer passes through its states in order, each once, and ends in Ready, or leaves one of the first
eight for Error. The states entered are read off the model's own log (log 9). -/
def Obligations.InitStateOrder : Prop :=
  ∀ s : State, s.t.ackPending = false → ∃ t entered, exec .init s = .next t ∧
    t.seqEntered = s.seqEntered ++ entered ∧ entered.getLast? = some t.seq.state ∧
    (entered = [.reset, .interfaceCondition, .operatingConditionsPoll, .classFinalize, .addressAssign,
        .descriptorFetch, .blockLengthFix, .selectBusWidth, .ready] ∨
      ∃ n, 1 ≤ n ∧ n ≤ 8 ∧
        entered = [SeqState.reset, .interfaceCondition, .operatingConditionsPoll, .classFinalize, .addressAssign,
          .descriptorFetch, .blockLengthFix, .selectBusWidth].take n ++ [.error])

/-- R185, R176, R179, R181: everything a successful INIT writes to the interface, each command with its argument and its
acknowledgment, in order: GO_IDLE, SEND_IF_COND, k times APP_CMD and SEND_OP_COND with 1 ≤ k ≤ `N_OCR` and the capacity
request as the tentative class says, PUBLISH_RCA, GET_CSD with the address of the descriptor, SET_BLOCKLEN exactly for a
StandardCapacity card, and the four commands of the bus-width step, with that address, exactly where the parameter asks
for it. The writes are read off the model's own log (log 9). -/
def Obligations.InitCommands : Prop :=
  ∀ s : State, s.t.ackPending = false → ∃ t, exec .init s = .next t ∧ (t.port.status = .ok → ∃ k,
    1 ≤ k ∧ k ≤ s.cfg.nOcr ∧
    t.writes = s.writes ++ framesWrites
      ([s.cfg.goIdleFrame, s.cfg.sendIfCondFrame] ++
        (List.replicate k [s.cfg.appCmdFrame 0,
          s.cfg.sendOpCondFrame (t.seq.tentative == .highCapacityCandidate)]).flatten ++
        [s.cfg.publishRcaFrame, s.cfg.getCsdFrame t.cd.relativeAddress] ++
        (if t.cd.cls = .standardCapacity then [s.cfg.setBlocklenFrame] else []) ++
        (if s.cfg.buswidthStep = true then
          [s.cfg.selectFrame t.cd.relativeAddress, s.cfg.appCmdFrame t.cd.relativeAddress, s.cfg.setBusWidthFrame,
            s.cfg.deselectFrame]
        else [])))

/-- R170, R174, R176 to R182: INIT against a card that answers every command in its accepted set, whatever the words
it answers with: it ends in Ready with the class, the address and the count those words give. `busy` are the passes
that find the card not powered up. ENV's moves as data are the model's choice (log 2). -/
def Obligations.InitReachesReady : Prop :=
  ∀ (s : State) (r0 r1 rp rc rb rs ra rw rd : Reply) (busy : List (Reply × Reply)) (last : Reply × Reply)
    (h : Bool) (cls : CardClass) (rca : Rca),
    (r0.outcome s.cfg s.cfg.goIdleFrame).kind.quietOk →
    (h = false ∧ (r1.outcome s.cfg s.cfg.sendIfCondFrame).kind = .rejected ∨
      h = true ∧ (r1.outcome s.cfg s.cfg.sendIfCondFrame).kind = .accepted ∧
        (r1.outcome s.cfg s.cfg.sendIfCondFrame).words.w0.extractLsb' 0 9 = s.cfg.ifcondArg12.extractLsb' 0 9) →
    (∀ r ∈ busy, PollPass s.cfg h r false) → PollPass s.cfg h last true → busy.length < s.cfg.nOcr →
    cls = (if h = true ∧ (last.2.outcome s.cfg (s.cfg.sendOpCondFrame h)).words.w0.getLsbD 30 = true then .highCapacity
      else .standardCapacity) →
    (rp.outcome s.cfg s.cfg.publishRcaFrame).kind = .accepted →
    rca = (rp.outcome s.cfg s.cfg.publishRcaFrame).words.w0.extractLsb' 16 16 →
    (rc.outcome s.cfg (s.cfg.getCsdFrame rca)).kind = .accepted →
    (cls = .standardCapacity → (rb.outcome s.cfg s.cfg.setBlocklenFrame).kind = .accepted) →
    (s.cfg.buswidthStep = true → (rs.outcome s.cfg (s.cfg.selectFrame rca)).kind = .accepted ∧
      (ra.outcome s.cfg (s.cfg.appCmdFrame rca)).kind.quietOk ∧
      (rw.outcome s.cfg s.cfg.setBusWidthFrame).kind = .accepted ∧
      (rd.outcome s.cfg s.cfg.deselectFrame).kind.quietOk) →
    s.Scripted (answers s.cfg ([(s.cfg.goIdleFrame, r0), (s.cfg.sendIfCondFrame, r1)] ++
      opCondExchanges s.cfg h (busy ++ [last]) ++ [(s.cfg.publishRcaFrame, rp), (s.cfg.getCsdFrame rca, rc)] ++
      (if cls = .standardCapacity then [(s.cfg.setBlocklenFrame, rb)] else []) ++
      (if s.cfg.buswidthStep = true then
        [(s.cfg.selectFrame rca, rs), (s.cfg.appCmdFrame rca, ra), (s.cfg.setBusWidthFrame, rw),
          (s.cfg.deselectFrame, rd)]
      else []))) →
    ∃ t, exec .init s = .next t ∧ t.port.status = .ok ∧ t.port.value = 0 ∧
      t.cd = { cls := cls, relativeAddress := rca,
               blockCount := BitVec.ofNat 64 (decodeBlocks cls (rc.outcome s.cfg (s.cfg.getCsdFrame rca)).words),
               errorCode := .none } ∧
      t.seq = { state := .ready, tentative := if h then .highCapacityCandidate else .standardCapacity,
                ocr := (last.2.outcome s.cfg (s.cfg.sendOpCondFrame h)).words.w0,
                csd := (rc.outcome s.cfg (s.cfg.getCsdFrame rca)).words, iter := busy.length }

/-- R173, R271: GO_IDLE answered outside {NoResponseSent, Accepted}, or not at all, ends INIT with NotPresent, and no
further frame is sent (R183). ENV's moves as data are the model's choice (log 2). -/
def Obligations.InitNoCard : Prop :=
  ∀ (s : State) (r0 : Reply), ¬(r0.outcome s.cfg s.cfg.goIdleFrame).kind.quietOk →
    s.Scripted (r0.moves s.cfg s.cfg.goIdleFrame) →
    ∃ t, exec .init s = .next t ∧ t.port.status = .notPresent ∧ t.port.value = 1 ∧
      t.cd = { cls := .error, relativeAddress := 0, blockCount := 0, errorCode := .notPresent } ∧
      t.seq.state = .error ∧ t.seq.tentative = .none ∧
      t.writes = s.writes ++ framesWrites [s.cfg.goIdleFrame]

/-- R174, R175, R272: the interface condition, whatever follows it. Rejected: tentative class StandardCapacity.
Accepted with the low 9 bits equal: HighCapacityCandidate. Accepted otherwise: VoltageMismatch. Anything else:
NotPresent. The last two end INIT with no further frame. ENV's moves as data are the model's choice (log 2). -/
def Obligations.InitInterfaceCondition : Prop :=
  ∀ (s : State) (r0 r1 : Reply), (r0.outcome s.cfg s.cfg.goIdleFrame).kind.quietOk →
    s.Scripted (answers s.cfg [(s.cfg.goIdleFrame, r0), (s.cfg.sendIfCondFrame, r1)]) →
    ∃ t, exec .init s = .next t ∧
      match (r1.outcome s.cfg s.cfg.sendIfCondFrame).kind with
      | .rejected => t.seq.tentative = .standardCapacity
      | .accepted =>
        if (r1.outcome s.cfg s.cfg.sendIfCondFrame).words.w0.extractLsb' 0 9 = s.cfg.ifcondArg12.extractLsb' 0 9 then
          t.seq.tentative = .highCapacityCandidate
        else t.port.status = .voltageMismatch ∧ t.cd.errorCode = .voltageMismatch ∧ t.seq.tentative = .none ∧
          t.writes = s.writes ++ framesWrites [s.cfg.goIdleFrame, s.cfg.sendIfCondFrame]
      | _ => t.port.status = .notPresent ∧ t.cd.errorCode = .notPresent ∧ t.seq.tentative = .none ∧
          t.writes = s.writes ++ framesWrites [s.cfg.goIdleFrame, s.cfg.sendIfCondFrame]

/-- R176, R274: a card that never reports power-up complete, legacy (`h` = false) or high-capacity candidate: INIT ends
with Timeout after exactly `N_OCR` passes, two commands each. ENV's moves as data are the model's choice (log 2). -/
def Obligations.InitPowerUpTimeout : Prop :=
  ∀ (s : State) (r0 r1 : Reply) (busy : List (Reply × Reply)) (h : Bool),
    (r0.outcome s.cfg s.cfg.goIdleFrame).kind.quietOk → InterfaceReply s.cfg h r1 →
    (∀ r ∈ busy, PollPass s.cfg h r false) → busy.length = s.cfg.nOcr →
    s.Scripted (answers s.cfg ([(s.cfg.goIdleFrame, r0), (s.cfg.sendIfCondFrame, r1)] ++ opCondExchanges s.cfg h busy)) →
    ∃ t, exec .init s = .next t ∧ t.port.status = .timeout ∧ t.port.value = 4 ∧
      t.cd = { cls := .error, relativeAddress := 0, blockCount := 0, errorCode := .timeout } ∧
      t.seq.state = .error ∧ t.seq.iter = s.cfg.nOcr ∧
      t.seq.tentative = (if h = true then .highCapacityCandidate else .standardCapacity) ∧
      t.writes = s.writes ++ framesWrites ([s.cfg.goIdleFrame, s.cfg.sendIfCondFrame] ++
        (List.replicate s.cfg.nOcr [s.cfg.appCmdFrame 0, s.cfg.sendOpCondFrame h]).flatten)

/-- R176, R184, R273: inside the operating-conditions loop, of a legacy card (`h` = false) or a high-capacity candidate, a
command outside its accepted set ends INIT at once with ProtocolError: it is not retried, and after a failed APP_CMD the
SEND_OP_COND is not sent. ENV's moves as data are the model's choice (log 2). -/
def Obligations.InitOpCondFailure : Prop :=
  ∀ (s : State) (r0 r1 ra ro : Reply) (busy : List (Reply × Reply)) (h : Bool),
    (r0.outcome s.cfg s.cfg.goIdleFrame).kind.quietOk → InterfaceReply s.cfg h r1 →
    (∀ r ∈ busy, PollPass s.cfg h r false) → busy.length < s.cfg.nOcr →
    (¬(ra.outcome s.cfg (s.cfg.appCmdFrame 0)).kind.quietOk →
      s.Scripted (answers s.cfg ([(s.cfg.goIdleFrame, r0), (s.cfg.sendIfCondFrame, r1)] ++
        opCondExchanges s.cfg h busy ++ [(s.cfg.appCmdFrame 0, ra)])) →
      ∃ t, exec .init s = .next t ∧ t.port.status = .protocolError ∧ t.port.value = 3 ∧
        t.cd = { cls := .error, relativeAddress := 0, blockCount := 0, errorCode := .protocolError } ∧
        t.writes = s.writes ++ framesWrites ([s.cfg.goIdleFrame, s.cfg.sendIfCondFrame] ++
          (List.replicate busy.length [s.cfg.appCmdFrame 0, s.cfg.sendOpCondFrame h]).flatten ++
          [s.cfg.appCmdFrame 0])) ∧
    ((ra.outcome s.cfg (s.cfg.appCmdFrame 0)).kind.quietOk →
      (ro.outcome s.cfg (s.cfg.sendOpCondFrame h)).kind ≠ .accepted →
      s.Scripted (answers s.cfg ([(s.cfg.goIdleFrame, r0), (s.cfg.sendIfCondFrame, r1)] ++
        opCondExchanges s.cfg h (busy ++ [(ra, ro)]))) →
      ∃ t, exec .init s = .next t ∧ t.port.status = .protocolError ∧ t.port.value = 3 ∧
        t.cd = { cls := .error, relativeAddress := 0, blockCount := 0, errorCode := .protocolError } ∧
        t.writes = s.writes ++ framesWrites ([s.cfg.goIdleFrame, s.cfg.sendIfCondFrame] ++
          (List.replicate (busy.length + 1) [s.cfg.appCmdFrame 0, s.cfg.sendOpCondFrame h]).flatten))

/-! ## DECODE -/

/-- R201: the HighCapacity formula on bits 69:48 of the 128-bit structure; nothing but the returned value changes. Bits are
numbered from the least significant end, general knowledge of the spec's author (R9, D6; PRESUMED, log 24). The
field `decoded` is the model's own (log 15). -/
def Obligations.DecodeHighCapacity : Prop :=
  ∀ (w : Words4) (s : State), ∃ t, exec (.decode .highCapacity w) s = .next t ∧
    t = { s with decoded := t.decoded } ∧
    t.decoded.toNat = (((w.w0 ++ w.w1 ++ w.w2 ++ w.w3).extractLsb' 48 22).toNat + 1) * 1024

/-- R202: the StandardCapacity formula on bits 73:62, 49:47 and 83:80 of the 128-bit structure. Bits are numbered
from the least significant end, general knowledge of the spec's author (R9, D6; PRESUMED, log 24). The field `decoded` is
the model's own (log 15). -/
def Obligations.DecodeStandardCapacity : Prop :=
  ∀ (w : Words4) (s : State), ∃ t, exec (.decode .standardCapacity w) s = .next t ∧
    t = { s with decoded := t.decoded } ∧
    t.decoded.toNat = ((((w.w0 ++ w.w1 ++ w.w2 ++ w.w3).extractLsb' 62 12).toNat + 1) *
      2 ^ (((w.w0 ++ w.w1 ++ w.w2 ++ w.w3).extractLsb' 47 3).toNat + 2) *
      2 ^ ((w.w0 ++ w.w1 ++ w.w2 ++ w.w3).extractLsb' 80 4).toNat) / 512

/-- R203: for class Unknown or Error, DECODE returns 0. The field `decoded` is the model's own (log 15). -/
def Obligations.DecodeOtherClasses : Prop :=
  ∀ (w : Words4) (s : State), exec (.decode .unknown w) s = .next { s with decoded := 0 } ∧
    exec (.decode .error w) s = .next { s with decoded := 0 }

/-- R23, R200, R201, R202, R205: the results range over 1,024 to 2^32 and 0 to 2^27, with both ends reached; words 0 and 3
and the bits no field names never matter. -/
def Obligations.DecodeRange : Prop :=
  ∀ (w w' : Words4),
    (1024 ≤ decodeBlocks .highCapacity w ∧ decodeBlocks .highCapacity w ≤ 2 ^ 32) ∧
    decodeBlocks .standardCapacity w ≤ 2 ^ 27 ∧
    (∃ v, decodeBlocks .highCapacity v = 1024) ∧ (∃ v, decodeBlocks .highCapacity v = 2 ^ 32) ∧
    (∃ v, decodeBlocks .standardCapacity v = 0) ∧ (∃ v, decodeBlocks .standardCapacity v = 2 ^ 27) ∧
    (w'.w1.extractLsb' 0 6 = w.w1.extractLsb' 0 6 → w'.w2.extractLsb' 16 16 = w.w2.extractLsb' 16 16 →
      ∀ s, exec (.decode .highCapacity w') s = exec (.decode .highCapacity w) s) ∧
    (w'.w1.extractLsb' 0 10 = w.w1.extractLsb' 0 10 → w'.w1.extractLsb' 16 4 = w.w1.extractLsb' 16 4 →
      w'.w2.extractLsb' 15 3 = w.w2.extractLsb' 15 3 → w'.w2.extractLsb' 30 2 = w.w2.extractLsb' 30 2 →
      ∀ s, exec (.decode .standardCapacity w') s = exec (.decode .standardCapacity w) s)

/-! ## Blocks -/

/-- R63, R64, R65, R275: a block number out of range, or whose byte address would not fit, ends with BoundsError: no
interface access, no byte of RBUF and no register of CORE changed but the engine's phase, which is Idle. That the phase
is written, to Idle, and that RBUF keeps its bytes are DEDUCED (logs 29 and 17). -/
def Obligations.BlockOutOfRange : Prop :=
  ∀ (s : State) (block : Word),
    s.cd.blockCount.toNat ≤ block.toNat ∨ s.cd.cls = .standardCapacity ∧ 2 ^ 23 ≤ block.toNat →
    ∀ i ∈ [Instr.rdblk block, Instr.wrblk block], exec i s = .next
      { s with port := { s.port with status := .boundsError, value := 0 }, bte := { s.bte with phase := .idle } }

/-- R313, R286: outside mode Ready every block operation ends with BoundsError and makes no interface access. The
premise is the invariant of the descriptor (`InvKept`). -/
def Obligations.BlocksNeedReady : Prop :=
  ∀ (s : State) (block : Word), s.cd.Inv → s.mode ≠ .ready →
    (∃ t, exec (.rdblk block) s = .next t ∧ t.port.status = .boundsError ∧ t.accesses = s.accesses) ∧
    (∃ t, exec (.wrblk block) s = .next t ∧ t.port.status = .boundsError ∧ t.accesses = s.accesses)

/-- R216 to R221, R231, R87, R282, R316: a read of a block in range always completes, never with a fault, and ends with
Ok, ProtocolError or Timeout, each for the cause `ReadEnd` gives it (a failed SELECT, READ_SINGLE or DESELECT, the expiry
of the drain loop) after the course `ReadCourse` gives: Ok only where SELECT and READ_SINGLE were Accepted and the last
pass of the drain loop left 128 words received and read `P.DCOUNT` as 0 (90_conflicts.md C4). The phases entered (R34) are
the first of those of R216, in order, then Idle. The engine is Idle and every command acknowledged; the descriptor, the
sequencer and the write buffer are untouched. Courses and phases are read off the model's own log (log 9). That the pop after RXDAVL = 1 finds a word rests on the DEDUCED reading of that flag (log 4). -/
def Obligations.ReadCompletes : Prop :=
  ∀ (s : State) (block : Word), s.cd.InRange block → s.t.ackPending = false →
    ∃ t, exec (.rdblk block) s = .next t ∧
      (t.port.status = .ok ∨ t.port.status = .protocolError ∨ t.port.status = .timeout) ∧ t.port.value = 0 ∧
      t.bte.phase = .idle ∧ t.bte.block = block ∧ t.bte.addr = translateBlock s.cd.cls block ∧ t.bte.n ≤ 128 ∧
      t.t.ackPending = false ∧ t.cd = s.cd ∧ t.seq = s.seq ∧ s.SameInputs t ∧
      t.seqEntered = s.seqEntered ∧ t.pushed = s.pushed ∧
      (∃ made, t.events = s.events ++ made ∧ ReadEnd s t block made t.port.status) ∧
      ∃ k, 1 ≤ k ∧ k ≤ 5 ∧ (t.port.status = .ok → k = 5) ∧ t.phasesEntered = s.phasesEntered ++
        ([Phase.select, .dataSetup, .command, .stream, .deselect].take k ++ [.idle])

/-- R217 to R221, R318: the writes of a successful read, in order: SELECT, then the data path (512 bytes, card to host),
then READ_SINGLE of the translated address, then DESELECT; and nothing else is written. -/
def Obligations.ReadWrites : Prop :=
  ∀ (s : State) (block : Word), s.cd.InRange block → s.t.ackPending = false →
    ∃ t, exec (.rdblk block) s = .next t ∧ (t.port.status = .ok →
      t.writes = s.writes ++ (commandWrites (s.cfg.selectFrame s.cd.relativeAddress) ++
        [.writeDlen 512, .writeDctrl 0b11] ++ commandWrites (s.cfg.readSingleFrame (translateBlock s.cd.cls block)) ++
        commandWrites s.cfg.deselectFrame))

/-- R63: the address of a block: the block number on a HighCapacity card, 512 times it on a StandardCapacity card, with
no wrap for a block in range (R64, R65). That its low nine bits are 0 is the inference R63 marks [derived: from this
rule]. -/
def Obligations.BlockAddress : Prop :=
  ∀ (cd : CardDescriptor) (block : Word), cd.InRange block →
    (cd.cls = .highCapacity → translateBlock cd.cls block = block) ∧
    (cd.cls = .standardCapacity → (translateBlock cd.cls block).toNat = block.toNat * 512 ∧
      (translateBlock cd.cls block).extractLsb' 0 9 = 0#9)

/-- R220, R67: a read pops at most 128 words; a successful one pops exactly 128, and byte j of the k-th word popped is
byte 4k + j of RBUF; no other byte of RBUF changes. The byte order is the spec's decision D8. -/
def Obligations.ReadDelivers : Prop :=
  ∀ (s : State) (block : Word), s.cd.InRange block → s.t.ackPending = false → s.port.rbuf.wf = true →
    ∃ t words, exec (.rdblk block) s = .next t ∧ t.popped = s.popped ++ words ∧ words.length ≤ 128 ∧
      (t.port.status = .ok → words.length = 128 ∧
        (∀ (k : Fin 128) (j : Fin 4), t.port.rbuf.read (4 * k.val + j.val) =
          (words.getD k.val 0).extractLsb' (8 * j.val) 8) ∧
        (∀ a, 512 ≤ a → t.port.rbuf.read a = s.port.rbuf.read a))

/-- R216: a read against a card that accepts the three commands and places the words of the block one by one (vector
B1): it ends with Ok, the words are in RBUF and the FIFO is empty. ENV's moves as data are the model's choice
(log 2). -/
def Obligations.ReadOfPlacedBlock : Prop :=
  ∀ (s : State) (block : Word) (rs rr rd : Reply) (words : List Word),
    s.cd.InRange block → s.env.rx = [] → words.length = 128 → 128 ≤ s.cfg.nRx → s.port.rbuf.wf = true →
    (rs.outcome s.cfg (s.cfg.selectFrame s.cd.relativeAddress)).kind = .accepted →
    (rr.outcome s.cfg (s.cfg.readSingleFrame (translateBlock s.cd.cls block))).kind = .accepted →
    (rd.outcome s.cfg s.cfg.deselectFrame).kind.quietOk →
    s.Scripted (rs.moves s.cfg (s.cfg.selectFrame s.cd.relativeAddress) ++ [.quiet, .quiet] ++
      rr.moves s.cfg (s.cfg.readSingleFrame (translateBlock s.cd.cls block)) ++ drainMoves words ++
      rd.moves s.cfg s.cfg.deselectFrame) →
    ∃ t, exec (.rdblk block) s = .next t ∧ t.port.status = .ok ∧ t.port.value = 0 ∧ t.bte.n = 128 ∧
      t.popped = s.popped ++ words ∧ t.env.rx = [] ∧ t.cd = s.cd ∧
      ∀ (k : Fin 128) (j : Fin 4), t.port.rbuf.read (4 * k.val + j.val) =
        (words.getD k.val 0).extractLsb' (8 * j.val) 8

/-- R217, R219, R231, R163: a read whose SELECT or READ_SINGLE is not accepted ends with ProtocolError and sends
nothing further: no DESELECT. ENV's moves as data are the model's choice (log 2). -/
def Obligations.ReadCommandFailure : Prop :=
  ∀ (s : State) (block : Word) (rs rr : Reply), s.cd.InRange block →
    ((rs.outcome s.cfg (s.cfg.selectFrame s.cd.relativeAddress)).kind ≠ .accepted →
      s.Scripted (rs.moves s.cfg (s.cfg.selectFrame s.cd.relativeAddress)) →
      ∃ t, exec (.rdblk block) s = .next t ∧ t.port.status = .protocolError ∧ t.bte.phase = .idle ∧ t.cd = s.cd ∧
        t.writes = s.writes ++ commandWrites (s.cfg.selectFrame s.cd.relativeAddress)) ∧
    ((rs.outcome s.cfg (s.cfg.selectFrame s.cd.relativeAddress)).kind = .accepted →
      (rr.outcome s.cfg (s.cfg.readSingleFrame (translateBlock s.cd.cls block))).kind ≠ .accepted →
      s.Scripted (rs.moves s.cfg (s.cfg.selectFrame s.cd.relativeAddress) ++ [.quiet, .quiet] ++
        rr.moves s.cfg (s.cfg.readSingleFrame (translateBlock s.cd.cls block))) →
      ∃ t, exec (.rdblk block) s = .next t ∧ t.port.status = .protocolError ∧ t.bte.phase = .idle ∧ t.cd = s.cd ∧
        t.writes = s.writes ++ (commandWrites (s.cfg.selectFrame s.cd.relativeAddress) ++
          [.writeDlen 512, .writeDctrl 0b11] ++ commandWrites (s.cfg.readSingleFrame (translateBlock s.cd.cls block))))

/-- R222 to R231, R83, R87, R282: a write of a block in range always completes and ends with Ok, ProtocolError or Timeout,
each for the cause `WriteEnd` gives it (a failed SELECT, GET_STATUS, WRITE_SINGLE or DESELECT, DATAEND before 128 words,
the expiry of the push loop or of either ready-for-data poll) after the course `WriteCourse` gives: Ok only where SELECT,
every GET_STATUS and WRITE_SINGLE were Accepted, DATAEND was read as 1 after the 128 words, and the last GET_STATUS of
each poll, and no other, showed the ready-for-data flag. The phases entered (R34) are the first of those of R222, in
order, then Idle. The engine is Idle and every command acknowledged; the descriptor, the sequencer and both buffers are
untouched. Courses and phases are read off the model's own log (log 9). -/
def Obligations.WriteCompletes : Prop :=
  ∀ (s : State) (block : Word), s.cd.InRange block → s.t.ackPending = false →
    ∃ t, exec (.wrblk block) s = .next t ∧
      (t.port.status = .ok ∨ t.port.status = .protocolError ∨ t.port.status = .timeout) ∧ t.port.value = 0 ∧
      t.bte.phase = .idle ∧ t.bte.block = block ∧ t.bte.addr = translateBlock s.cd.cls block ∧ t.bte.n ≤ 128 ∧
      t.t.ackPending = false ∧ t.cd = s.cd ∧ t.seq = s.seq ∧ s.SameBytes t ∧ s.SameInputs t ∧ t.freed = s.freed ∧
      t.seqEntered = s.seqEntered ∧ t.popped = s.popped ∧
      (∃ made, t.events = s.events ++ made ∧ WriteEnd s t block made t.port.status) ∧
      ∃ k, 1 ≤ k ∧ k ≤ 7 ∧ (t.port.status = .ok → k = 7) ∧ t.phasesEntered = s.phasesEntered ++
        ([Phase.select, .readyWait1, .command, .dataSetup, .stream, .readyWait2, .deselect].take k ++ [.idle])

/-- R223 to R230, R319: the writes of a successful write, in order: SELECT; 1 to `N_READY` GET_STATUS; WRITE_SINGLE
of the translated address; the clearing of DATAEND; the data path (512 bytes, host to card); the 128 words of WBUF; 1 to
`N_READY` GET_STATUS; DESELECT. -/
def Obligations.WriteWrites : Prop :=
  ∀ (s : State) (block : Word), s.cd.InRange block → s.t.ackPending = false →
    ∃ t, exec (.wrblk block) s = .next t ∧ (t.port.status = .ok → ∃ j k, 1 ≤ j ∧ j ≤ s.cfg.nReady ∧ 1 ≤ k ∧
      k ≤ s.cfg.nReady ∧
      t.writes = s.writes ++ (commandWrites (s.cfg.selectFrame s.cd.relativeAddress) ++
        (List.replicate j (commandWrites (s.cfg.getStatusFrame s.cd.relativeAddress))).flatten ++
        commandWrites (s.cfg.writeSingleFrame (translateBlock s.cd.cls block)) ++
        [.writeIcr 0b10000, .writeDlen 512, .writeDctrl 0b01] ++ s.blockWords.map .fifoPush ++
        (List.replicate k (commandWrites (s.cfg.getStatusFrame s.cd.relativeAddress))).flatten ++
        commandWrites s.cfg.deselectFrame))

/-- R227, R228: whatever ENV does, the words a write pushes are the first words of WBUF in order, never a 129th, and all
128 of them when it succeeds. -/
def Obligations.WritePushes : Prop :=
  ∀ (s : State) (block : Word), s.cd.InRange block → s.t.ackPending = false →
    ∃ t n, exec (.wrblk block) s = .next t ∧ n ≤ 128 ∧ t.pushed = s.pushed ++ s.blockWords.take n ∧
      (t.port.status = .ok → n = 128)

/-- R222: a write against a card that accepts the commands, reports ready for data after `b1` and `b2` busy answers,
and takes the words as they come (vector B8): it ends with Ok and the 128 words of WBUF are in the FIFO, in order.
ENV's moves as data are the model's choice (log 2). -/
def Obligations.WriteOfWholeBlock : Prop :=
  ∀ (s : State) (block : Word) (rs rw rd r1 r2 : Reply) (b1 b2 : List Reply),
    s.cd.InRange block → 128 ≤ s.cfg.nTx →
    (rs.outcome s.cfg (s.cfg.selectFrame s.cd.relativeAddress)).kind = .accepted →
    (∀ r ∈ b1, StatusReply s.cfg s.cd.relativeAddress r false) →
    (∀ r ∈ b2, StatusReply s.cfg s.cd.relativeAddress r false) →
    StatusReply s.cfg s.cd.relativeAddress r1 true → StatusReply s.cfg s.cd.relativeAddress r2 true →
    b1.length < s.cfg.nReady → b2.length < s.cfg.nReady →
    (rw.outcome s.cfg (s.cfg.writeSingleFrame (translateBlock s.cd.cls block))).kind = .accepted →
    (rd.outcome s.cfg s.cfg.deselectFrame).kind.quietOk →
    s.Scripted (rs.moves s.cfg (s.cfg.selectFrame s.cd.relativeAddress) ++
      answers s.cfg (readyExchanges s.cfg s.cd.relativeAddress (b1 ++ [r1])) ++
      rw.moves s.cfg (s.cfg.writeSingleFrame (translateBlock s.cd.cls block)) ++ [.quiet, .quiet, .quiet, .quiet] ++ pushMoves ++
      answers s.cfg (readyExchanges s.cfg s.cd.relativeAddress (b2 ++ [r2])) ++ rd.moves s.cfg s.cfg.deselectFrame) →
    ∃ t, exec (.wrblk block) s = .next t ∧ t.port.status = .ok ∧ t.port.value = 0 ∧ t.bte.n = 128 ∧
      t.env.tx = s.env.tx ++ s.blockWords ∧ t.env.latched.getLsbD 4 = true ∧ t.cd = s.cd

/-- R223, R274 (program P9): a card that never reports ready for data: the write ends with Timeout after `N_READY`
GET_STATUS, with no WRITE_SINGLE, no word pushed and no DESELECT. ENV's moves as data are the model's choice (log 2).
-/
def Obligations.WriteReadyTimeout : Prop :=
  ∀ (s : State) (block : Word) (rs : Reply) (busy : List Reply), s.cd.InRange block →
    (rs.outcome s.cfg (s.cfg.selectFrame s.cd.relativeAddress)).kind = .accepted →
    (∀ r ∈ busy, StatusReply s.cfg s.cd.relativeAddress r false) → busy.length = s.cfg.nReady →
    s.Scripted (rs.moves s.cfg (s.cfg.selectFrame s.cd.relativeAddress) ++
      answers s.cfg (readyExchanges s.cfg s.cd.relativeAddress busy)) →
    ∃ t, exec (.wrblk block) s = .next t ∧ t.port.status = .timeout ∧ t.bte.phase = .idle ∧ t.cd = s.cd ∧
      t.writes = s.writes ++ framesWrites (s.cfg.selectFrame s.cd.relativeAddress ::
        List.replicate s.cfg.nReady (s.cfg.getStatusFrame s.cd.relativeAddress)) ∧
      t.pushed = s.pushed

/-- R233, R67: little-endian packing, in numbers, and the four bytes a word is stored to; every other byte of a buffer
is unchanged. The byte order is the spec's decision D8, general knowledge of its author (PRESUMED, log 24). -/
def Obligations.WordPacking : Prop :=
  ∀ (m : Memory) (k : Fin 128) (w : Word), m.wf = true →
    (m.loadWord k.val).toNat = (m.read (4 * k.val)).toNat + (m.read (4 * k.val + 1)).toNat * 2 ^ 8 +
      (m.read (4 * k.val + 2)).toNat * 2 ^ 16 + (m.read (4 * k.val + 3)).toNat * 2 ^ 24 ∧
    ((m.storeWord k.val w).read (4 * k.val)).toNat = w.toNat % 2 ^ 8 ∧
    ((m.storeWord k.val w).read (4 * k.val + 1)).toNat = w.toNat / 2 ^ 8 % 2 ^ 8 ∧
    ((m.storeWord k.val w).read (4 * k.val + 2)).toNat = w.toNat / 2 ^ 16 % 2 ^ 8 ∧
    ((m.storeWord k.val w).read (4 * k.val + 3)).toNat = w.toNat / 2 ^ 24 ∧
    (∀ a, a / 4 ≠ k.val → (m.storeWord k.val w).read a = m.read a) ∧ (m.storeWord k.val w).wf = true

/-! ## The query, the accessors, the illegal operations -/

/-- R250: ISBUSY completes whenever nothing is pending, in every mode: one TXN of GET_STATUS with the address, and the
answer; the descriptor is neither read nor written. That a failed one writes the engine's phase, to Idle, is R282, which
R250's list of state written does not have: the choice between the two is DEDUCED (log 31). -/
def Obligations.IsbusyCompletes : Prop :=
  ∀ (s : State) (address : Rca), s.t.ackPending = false →
    ∃ t u, exec (.isbusy address) s = .next t ∧
      Transacted ⟨s.cfg.idxGetStatus, address ++ 0#16, .short, .require⟩ s u ∧
      (u.t.outcome.kind = .accepted →
        t = { u with port := { u.port with
          status := .ok, value := if 4 < (u.t.outcome.words.w0.extractLsb' 9 4).toNat then 1 else 0 } }) ∧
      (u.t.outcome.kind ≠ .accepted →
        t = { u with port := { u.port with status := .protocolError, value := 1 },
                     bte := { u.bte with phase := .idle } })

/-- R250: what ISBUSY answers does not depend on the descriptor. -/
def Obligations.IsbusyIgnoresDescriptor : Prop :=
  ∀ (s : State) (address : Rca) (cd : CardDescriptor), s.t.ackPending = false →
    ∃ t u, exec (.isbusy address) s = .next t ∧ exec (.isbusy address) { s with cd := cd } = .next u ∧
      u = { t with cd := cd }

/-- R251: the table of `busyOf`: exactly the codes above 4 are busy. -/
def Obligations.BusyTable : Prop := ∀ code : BitVec 4, busyOf code = decide (4 < code.toNat)

/-- R252 to R255: VOLSZ, BLKSZ, ISRO and LASTERR always complete; each writes its result and nothing else. -/
def Obligations.Accessors : Prop :=
  ∀ s : State,
    exec .volsz s = .next { s with port := { s.port with status := .ok, value := s.cd.blockCount } } ∧
    exec .blksz s = .next { s with port := { s.port with status := .ok, value := 512 } } ∧
    exec .isro s = .next { s with port := { s.port with status := .ok, value := 0 } } ∧
    ∃ code : BitVec 64, exec .lasterr s = .next { s with port := { s.port with status := .ok, value := code } } ∧
      code.toNat = match s.cd.errorCode with
        | .none => 0
        | .notPresent => 1
        | .voltageMismatch => 2
        | .protocolError => 3
        | .timeout => 4

/-- R256, R276: op codes 0 and 9 to 15 end at once with IllegalOperation and value 0, and change nothing else. -/
def Obligations.IllegalOperations : Prop :=
  ∀ s : State, ∀ i ∈ [Instr.illegal0, .illegal9, .illegal10to11 10, .illegal10to11 11, .illegal12to15 12,
      .illegal12to15 13, .illegal12to15 14, .illegal12to15 15],
    exec i s = .next { s with port := { s.port with status := .illegalOperation, value := 0 } }

/-! ## The whole machine -/

/-- R11, R46: a step runs the instruction that the request in progress decodes to; where that gives a next state the
operation has then ended, and a fault or a refusal of it is the step's. That an operation is one step is the model's
choice (log 8). -/
def Obligations.StepRunsDecoded : Prop :=
  ∀ (s : State) (r : Request) (i : Instr), s.port.request = some r → decode s.cfg r = .ok i →
    step s = match exec i s with
      | .next t => .next { t with port := { t.port with request := none } }
      | .fault f => .fault f
      | .refused e => .refused e

/-- R310, R323, R62: with no operation in progress a step waits and changes nothing; a request is taken whole then,
with exactly 512 bytes of WBUF, and has no effect while one is in progress; presenting keeps the invariant of the
machine. That `present` drops a second request is log 22; that a byte outside WBUF reads 0 is the form of the model's
buffers (log 16). -/
def Obligations.HostPort : Prop :=
  ∀ (s : State) (r : Request) (wbuf : Vector Byte 512),
    (s.port.request = none → step s = .next s ∧
      (∃ m : Memory, s.present r wbuf = { s with port := { s.port with request := some r, wbuf := m } } ∧
        m.wf = true ∧ (∀ (k : Nat) (h : k < 512), m.read k = wbuf[k]) ∧ ∀ k, 512 ≤ k → m.read k = 0)) ∧
    (s.port.request ≠ none → s.present r wbuf = s) ∧
    (s.Inv → (s.present r wbuf).Inv)

/-- R12, R283: no operation of the host port ever reaches a hazard fault: from every state with nothing pending, every
format H word is run to its end, with nothing pending again. It rests on the DEDUCED reading of RXDAVL (log 4). -/
def Obligations.HostOperationsEnd : Prop :=
  ∀ (s : State) (w : BitVec 36), s.port.request = some (.host w) → s.t.ackPending = false →
    ∃ t, step s = .next t ∧ t.t.ackPending = false ∧ t.port.request = none

/-- R20, R29, R87, R322: only INIT writes the descriptor or the sequencer, and no operation writes the parameters or the
write buffer. -/
def Obligations.OnlyInitWritesDescriptor : Prop :=
  ∀ (i : Instr) (s t : State), exec i s = .next t → t.cfg = s.cfg ∧ t.port.wbuf = s.port.wbuf ∧
    (i ≠ .init → t.cd = s.cd ∧ t.seq = s.seq ∧ t.mode = s.mode)

/-- R286: the lifecycle modes: INIT ends in Ready exactly when its status is Ok, and in Failed otherwise; LASTERR then
gives the status as a code. -/
def Obligations.ModesAfterInit : Prop :=
  ∀ s : State, s.t.ackPending = false → ∃ t, exec .init s = .next t ∧
    (t.port.status = .ok → t.mode = .ready) ∧ (t.port.status ≠ .ok → t.mode = .failed) ∧
    ∃ u, exec .lasterr t = .next u ∧ u.port.value = t.port.status.code.setWidth 64

/-- R81, R130, R136, R137, R139: the order of the interface accesses of every operation. Whatever instruction runs and
whatever ENV does, the accesses it makes are in the order `CommandStage.next` allows, from the stage the machine stands
at to the stage it is left at: `P.CMD` directly after `P.ARG`; no command started while one is unacknowledged; the
response registers read only inside a command, and never after its acknowledgment; the data path and the FIFO touched
only outside one. The accesses made are read off the model's own log (log 9). -/
def Obligations.AccessesInOrder : Prop :=
  ∀ (i : Instr) (s t : State), exec i s = .next t →
    ∃ made, t.accesses = s.accesses ++ made ∧ s.stage.run made = some t.stage

/-- Every step keeps the invariant of the machine between operations (R20 to R34, R76, R137, R182, R183, R231): the
descriptor agrees with its class, the sequencer with the descriptor, the engine is Idle, the latches and the interface
registers hold only values CORE writes, no stale command flag can be seen, the buffers keep their canonical form. The
flag clauses rest on the DEDUCED bookkeeping of log 3. -/
def Obligations.InvKept : Prop := ∀ s t : State, s.Inv → step s = .next t → t.Inv

/-- The invariant holds at reset. Values the spec does not give are DESIGN CHOICE (logs 6, 7, 16). -/
def Obligations.InvAtReset : Prop := State.reset.Inv

/-- R50: every CORE register is zero after reset and no operation is in progress. -/
def Obligations.ResetRegisters : Prop :=
  State.reset.cd.cls.code = 0 ∧ State.reset.cd.relativeAddress = 0x0000 ∧ State.reset.cd.blockCount = 0 ∧
  State.reset.cd.errorCode.code = 0 ∧ State.reset.cd.readOnly = 0 ∧ State.reset.t.frame.toWord = 0 ∧
  State.reset.t.outcome = ⟨.noResponseSent, ⟨0, 0, 0, 0⟩⟩ ∧ State.reset.t.ackPending = false ∧
  State.reset.seq.state = .notStarted ∧ State.reset.seq.tentative = .none ∧ State.reset.seq.ocr = 0 ∧
  State.reset.seq.csd = ⟨0, 0, 0, 0⟩ ∧ State.reset.t.n = 0 ∧ State.reset.seq.iter = 0 ∧ State.reset.bte.iter = 0 ∧
  State.reset.bte.phase = .idle ∧ State.reset.bte.addr = 0 ∧ State.reset.bte.n = 0 ∧ State.reset.bte.block = 0 ∧
  State.reset.p = { arg := 0, cmd := 0, dlen := 0, dctrl := 0 } ∧ State.reset.port.request = none ∧
  State.reset.mode = .uninitialized

/-! ## The laws of ENV -/

/-- R75: a latched flag that a read of `P.STA` shows as 1 is latched, and a latched flag stays so, and reads 1, through
every interface access but a write of `P.ICR` with its bit. -/
def Obligations.LatchLaw : Prop :=
  ∀ (s : State) (i : Fin 5), ((readSta s).2.getLsbD i.val = true → (readSta s).1.env.latched.getLsbD i.val = true) ∧
    (s.env.latched.getLsbD i.val = true →
      (∀ v, (writeArg v s).env.latched.getLsbD i.val = true) ∧
      (∀ v, (writeCmd v s).env.latched.getLsbD i.val = true) ∧
      (∀ v, (writeDlen v s).env.latched.getLsbD i.val = true) ∧
      (∀ v, (writeDctrl v s).env.latched.getLsbD i.val = true) ∧
      (∀ m : BitVec 5, m.getLsbD i.val = false → (writeIcr m s).env.latched.getLsbD i.val = true) ∧
      ((readSta s).1.env.latched.getLsbD i.val = true ∧ (readSta s).2.getLsbD i.val = true) ∧
      (readRespCmd s).1.env.latched.getLsbD i.val = true ∧
      (∀ r, (readResp r s).1.env.latched.getLsbD i.val = true) ∧ (readDcount s).1.env.latched.getLsbD i.val = true ∧
      (∀ w, (fifoPush w s).env.latched.getLsbD i.val = true) ∧
      (∀ w t, fifoPop s = .next (t, w) → t.env.latched.getLsbD i.val = true))

/-- R76: a write of `P.ICR` clears the flags of its bits; a command flag cleared so goes on reading 0 through every
access but a write of `P.CMD` with start = 1. The bookkeeping of the law is DEDUCED (log 3). -/
def Obligations.ClearLaw : Prop :=
  ∀ (s : State) (i : Fin 4),
    (∀ (m : BitVec 5) (k : Fin 5), m.getLsbD k.val = true → (writeIcr m s).env.latched.getLsbD k.val = false) ∧
    (∀ m : BitVec 5, m.getLsbD i.val = true → (writeIcr m s).FlagDown i) ∧
    (s.FlagDown i →
      (∀ v, (writeArg v s).FlagDown i) ∧ (∀ v : BitVec 9, v.getLsbD 8 = false → (writeCmd v s).FlagDown i) ∧
      (∀ v, (writeDlen v s).FlagDown i) ∧ (∀ v, (writeDctrl v s).FlagDown i) ∧ (∀ m, (writeIcr m s).FlagDown i) ∧
      ((readSta s).1.FlagDown i ∧ (readSta s).2.getLsbD i.val = false) ∧ (readRespCmd s).1.FlagDown i ∧
      (∀ r, (readResp r s).1.FlagDown i) ∧ (readDcount s).1.FlagDown i ∧ (∀ w, (fifoPush w s).FlagDown i) ∧
      (∀ w t, fifoPop s = .next (t, w) → t.FlagDown i))

/-- R77: from the read of `P.STA` that shows CMDREND or CCRCFAIL, the response registers keep one value through every
access but a write of `P.CMD`, and every read of them gives it. The bookkeeping of the law is DEDUCED (log 3). -/
def Obligations.StabilityLaw : Prop :=
  ∀ (s : State),
    (staCmdRend (readSta s).2 = true ∨ staCCrcFail (readSta s).2 = true → ∃ echo resp, (readSta s).1.Held echo resp) ∧
    (∀ echo resp, s.Held echo resp →
      (∀ v, (writeArg v s).Held echo resp) ∧ (∀ v, (writeDlen v s).Held echo resp) ∧
      (∀ v, (writeDctrl v s).Held echo resp) ∧ (∀ m, (writeIcr m s).Held echo resp) ∧
      (readSta s).1.Held echo resp ∧ ((readRespCmd s).1.Held echo resp ∧ (readRespCmd s).2 = echo) ∧
      ((readResp 0 s).1.Held echo resp ∧ (readResp 0 s).2 = resp.w0) ∧
      ((readResp 1 s).1.Held echo resp ∧ (readResp 1 s).2 = resp.w1) ∧
      ((readResp 2 s).1.Held echo resp ∧ (readResp 2 s).2 = resp.w2) ∧
      ((readResp 3 s).1.Held echo resp ∧ (readResp 3 s).2 = resp.w3) ∧
      (readDcount s).1.Held echo resp ∧ (∀ w, (fifoPush w s).Held echo resp) ∧
      (∀ w t, fifoPop s = .next (t, w) → t.Held echo resp))

/-- R78, R316: the FIFO is first-in first-out, in both directions: a pop takes the oldest word and leaves the rest in
order; every other access leaves the words to pop as they are, with words ENV placed behind them; a pushed word goes
behind the words pushed before it, of which every access leaves those that ENV has not taken, from the front, in order;
after a read that showed RXDAVL = 1 a pop gives a word. The two directions and RXDAVL are DEDUCED (log 4). -/
def Obligations.FifoOrderLaw : Prop :=
  ∀ (s : State),
    (∀ v, s.FifoKept (writeArg v s)) ∧ (∀ v, s.FifoKept (writeCmd v s)) ∧ (∀ m, s.FifoKept (writeIcr m s)) ∧
    (∀ v, s.FifoKept (writeDlen v s)) ∧ (∀ v, s.FifoKept (writeDctrl v s)) ∧ s.FifoKept (readSta s).1 ∧
    s.FifoKept (readRespCmd s).1 ∧ (∀ r, s.FifoKept (readResp r s).1) ∧ s.FifoKept (readDcount s).1 ∧
    (∀ w, (∃ placed, (fifoPush w s).env.rx = s.env.rx ++ placed) ∧
      ∃ taken, (fifoPush w s).env.tx = s.env.tx.drop taken ++ [w]) ∧
    (∀ w t, fifoPop s = .next (t, w) →
      (∃ placed, w :: t.env.rx = s.env.rx ++ placed) ∧ ∃ taken, t.env.tx = s.env.tx.drop taken) ∧
    (staRxDavl (readSta s).2 = true → (readSta s).1.env.rx ≠ [] ∧ ∃ w t, fifoPop (readSta s).1 = .next (t, w)) ∧
    (s.env.rx ≠ [] → ∃ w t, fifoPop s = .next (t, w)) ∧
    (s.env.move.rx = [] → fifoPop s = .fault .fifoPopEmpty)
end

