-- ==== Sys2Proof/Laws/Decode.lean ====
section
/-! SUPPORT. The encodings piece by piece: a frame and its word, a host word's two fields, the arguments. -/

namespace Sys2Proof

/-- Splits a slice of a concatenation bit by bit. -/
theorem frameWord_slices (a : Word) (p : BitVec 1) (e : BitVec 2) (i : BitVec 6) :
    (a ++ p ++ e ++ i).extractLsb' 0 6 = i ∧ (a ++ p ++ e ++ i).extractLsb' 6 2 = e ∧
      (a ++ p ++ e ++ i).extractLsb' 8 1 = p ∧ (a ++ p ++ e ++ i).extractLsb' 9 32 = a := by
  refine ⟨?_, ?_, ?_, ?_⟩ <;>
  · apply BitVec.eq_of_getLsbD_eq
    intro k hk
    simp only [BitVec.getLsbD_extractLsb', BitVec.getLsbD_append]
    interval_cases k <;> simp

@[simp] theorem Shape.ofCode_code (s : Shape) : Shape.ofCode s.code = s := by cases s <;> rfl

@[simp] theorem Shape.code_ofCode (c : BitVec 2) : (Shape.ofCode c).code = c := by revert c; decide

@[simp] theorem CrcPolicy.ofCode_code (p : CrcPolicy) : CrcPolicy.ofCode p.code = p := by cases p <;> rfl

@[simp] theorem CrcPolicy.code_ofCode (c : BitVec 1) : (CrcPolicy.ofCode c).code = c := by revert c; decide

@[simp] theorem CardClass.ofCode_code (c : CardClass) : CardClass.ofCode c.code = c := by cases c <;> rfl

/-- A frame is what its word says (R92). -/
@[simp] theorem Frame.ofWord_toWord (f : Frame) : Frame.ofWord f.toWord = f := by
  obtain ⟨h1, h2, h3, h4⟩ := frameWord_slices f.argument f.crcPolicy.code f.expectedResponse.code f.index
  unfold Frame.ofWord Frame.toWord
  rw [h1, h2, h3, h4, Shape.ofCode_code, CrcPolicy.ofCode_code]

/-- Every 41-bit word is the word of one frame (R92). -/
@[simp] theorem Frame.toWord_ofWord (w : BitVec 41) : (Frame.ofWord w).toWord = w := by
  simp only [Frame.ofWord, Frame.toWord, Shape.code_ofCode, CrcPolicy.code_ofCode]
  apply BitVec.eq_of_getLsbD_eq
  intro k hk
  simp only [BitVec.getLsbD_extractLsb', BitVec.getLsbD_append]
  interval_cases k <;> simp

/-- The two fields of a host word (R95). -/
theorem hostWord_slices (operand : Word) (op : BitVec 4) :
    (operand ++ op).extractLsb' 0 4 = op ∧ (operand ++ op).extractLsb' 4 32 = operand := by
  constructor <;>
  · apply BitVec.eq_of_getLsbD_eq
    intro k hk
    simp only [BitVec.getLsbD_extractLsb', BitVec.getLsbD_append]
    interval_cases k <;> simp

/-- The two fields of a transport word (R92). -/
theorem transportWord_slices (w : BitVec 41) (t : BitVec 1) :
    (w ++ t).extractLsb' 0 1 = t ∧ (w ++ t).extractLsb' 1 41 = w := by
  constructor <;>
  · apply BitVec.eq_of_getLsbD_eq
    intro k hk
    simp only [BitVec.getLsbD_extractLsb', BitVec.getLsbD_append]
    interval_cases k <;> simp

/-- The two halves of an argument that carries an address (R101). -/
theorem rcaArgument_slices (rca : Rca) :
    (rcaArgument rca).extractLsb' 16 16 = rca ∧ (rcaArgument rca).extractLsb' 0 16 = 0#16 := by
  unfold rcaArgument
  constructor <;>
  · apply BitVec.eq_of_getLsbD_eq
    intro k hk
    simp only [BitVec.getLsbD_extractLsb', BitVec.getLsbD_append]
    interval_cases k <;> simp

/-- An argument whose low half is 0 carries the address in its upper half (R101). -/
theorem rcaArgument_of_low {a : Word} (h : a.extractLsb' 0 16 = 0#16) : rcaArgument (a.extractLsb' 16 16) = a := by
  unfold rcaArgument
  apply BitVec.eq_of_getLsbD_eq
  intro k hk
  simp only [BitVec.getLsbD_extractLsb', BitVec.getLsbD_append]
  by_cases hk' : k < 16
  · have := congrArg (fun b => b.getLsbD k) h
    simp only [BitVec.getLsbD_extractLsb'] at this
    simpa [hk'] using this.symm
  · simp [hk', show k - 16 < 16 by omega, show 16 + (k - 16) = k by omega]

/-- The two arguments of SEND_OP_COND differ in the high-capacity request (R100). -/
theorem opcondArgument_ne {c : Config} (h : c.opcondBase.getLsbD c.hcsBit.val = false) :
    c.opcondArgument true ≠ c.opcondArgument false := by
  intro he
  have := congrArg (fun b => b.getLsbD c.hcsBit.val) he
  simp [Config.opcondArgument, -BitVec.getLsbD_eq_getElem, h, BitVec.getLsbD_shiftLeft] at this

/-! ## No frame of the catalogue has the reserved shape (70_reset_and_hazards.md R317) -/

@[simp] theorem Config.goIdleFrame_shape (c : Config) : c.goIdleFrame.expectedResponse = .none := rfl
@[simp] theorem Config.sendIfCondFrame_shape (c : Config) : c.sendIfCondFrame.expectedResponse = .short := rfl
@[simp] theorem Config.appCmdFrame_shape (c : Config) (rca : Rca) : (c.appCmdFrame rca).expectedResponse = .none := rfl
@[simp] theorem Config.sendOpCondFrame_shape (c : Config) (h : Bool) : (c.sendOpCondFrame h).expectedResponse = .short := rfl
@[simp] theorem Config.publishRcaFrame_shape (c : Config) : c.publishRcaFrame.expectedResponse = .short := rfl
@[simp] theorem Config.getCsdFrame_shape (c : Config) (rca : Rca) : (c.getCsdFrame rca).expectedResponse = .long := rfl
@[simp] theorem Config.setBlocklenFrame_shape (c : Config) : c.setBlocklenFrame.expectedResponse = .short := rfl
@[simp] theorem Config.selectFrame_shape (c : Config) (rca : Rca) : (c.selectFrame rca).expectedResponse = .short := rfl
@[simp] theorem Config.deselectFrame_shape (c : Config) : c.deselectFrame.expectedResponse = .none := rfl
@[simp] theorem Config.setBusWidthFrame_shape (c : Config) : c.setBusWidthFrame.expectedResponse = .short := rfl
@[simp] theorem Config.readSingleFrame_shape (c : Config) (addr : Word) : (c.readSingleFrame addr).expectedResponse = .short := rfl
@[simp] theorem Config.writeSingleFrame_shape (c : Config) (addr : Word) : (c.writeSingleFrame addr).expectedResponse = .short := rfl
@[simp] theorem Config.getStatusFrame_shape (c : Config) (rca : Rca) : (c.getStatusFrame rca).expectedResponse = .short := rfl

end Sys2Proof
end

