-- ==== Sys2Proof/Laws/Flags.lean ====
section
/-! SUPPORT. What a move of ENV can do (20_memory.md R75 to R78), and what the interface accesses do to ENV's side. -/

namespace Sys2Proof.Machine

/-- Everything a move of ENV can do: some move, under the laws. -/
theorem Env.move_cases (e : Env) :
    ∃ m script drawn, e.move = Env.apply m { e with script := script, drawn := drawn } := by
  unfold Env.move
  split
  · exact ⟨_, _, _, rfl⟩
  · exact ⟨_, _, _, rfl⟩

@[simp] theorem Env.move_armed (e : Env) : e.move.armed = e.armed := by
  obtain ⟨m, sc, dr, h⟩ := e.move_cases; rw [h]; rfl

@[simp] theorem Env.move_stable (e : Env) : e.move.stable = e.stable := by
  obtain ⟨m, sc, dr, h⟩ := e.move_cases; rw [h]; rfl

/-- Latch law: a move only adds flags, and only those it may raise. -/
theorem Env.move_latched (e : Env) : ∃ r, e.move.latched = e.latched ||| (r &&& e.mayRaise) := by
  obtain ⟨m, sc, dr, h⟩ := e.move_cases; exact ⟨m.raise, by rw [h]; rfl⟩

/-- FIFO order law: a move only appends words. -/
theorem Env.move_rx (e : Env) : ∃ ws, e.move.rx = e.rx ++ ws := by
  obtain ⟨m, sc, dr, h⟩ := e.move_cases; exact ⟨m.place, by rw [h]; rfl⟩

/-- FIFO order law: a move only takes the oldest pushed words. -/
theorem Env.move_tx (e : Env) : ∃ n, e.move.tx = e.tx.drop n := by
  obtain ⟨m, sc, dr, h⟩ := e.move_cases; exact ⟨m.take, by rw [h]; rfl⟩

/-- Response stability law. -/
theorem Env.move_resp_of_stable {e : Env} (h : e.stable = true) :
    e.move.respCmd = e.respCmd ∧ e.move.resp = e.resp := by
  obtain ⟨m, sc, dr, hm⟩ := e.move_cases
  rw [hm]
  exact ⟨by simp [Env.apply, h], by simp [Env.apply, h]⟩

/-- A move listed in the script is the next move. -/
theorem Env.move_scripted {e : Env} {m : EnvMove} {rest : List EnvMove} (h : e.script = m :: rest) :
    e.move = Env.apply m { e with script := rest } := by
  unfold Env.move; rw [h]

@[simp] theorem Env.seen_latched (e : Env) : e.seen.latched = e.latched := rfl
@[simp] theorem Env.seen_armed (e : Env) : e.seen.armed = e.armed := rfl
@[simp] theorem Env.seen_rx (e : Env) : e.seen.rx = e.rx := rfl
@[simp] theorem Env.seen_tx (e : Env) : e.seen.tx = e.tx := rfl
@[simp] theorem Env.seen_resp (e : Env) : e.seen.resp = e.resp := rfl
@[simp] theorem Env.seen_respCmd (e : Env) : e.seen.respCmd = e.respCmd := rfl
@[simp] theorem Env.seen_script (e : Env) : e.seen.script = e.script := rfl
@[simp] theorem Env.started_armed (e : Env) : e.started.armed = 0b1111#4 := rfl
@[simp] theorem Env.started_latched (e : Env) : e.started.latched = e.latched := rfl
@[simp] theorem Env.started_rx (e : Env) : e.started.rx = e.rx := rfl
@[simp] theorem Env.started_stable (e : Env) : e.started.stable = false := rfl
@[simp] theorem Env.started_script (e : Env) : e.started.script = e.script := rfl
@[simp] theorem Env.cleared_rx (m : BitVec 5) (e : Env) : (e.cleared m).rx = e.rx := rfl
@[simp] theorem Env.cleared_script (m : BitVec 5) (e : Env) : (e.cleared m).script = e.script := rfl
@[simp] theorem Env.cleared_armed (m : BitVec 5) (e : Env) :
    (e.cleared m).armed = e.armed &&& ~~~(m.extractLsb' 0 4) := rfl
@[simp] theorem Env.cleared_latched (m : BitVec 5) (e : Env) : (e.cleared m).latched = e.latched &&& ~~~m := rfl

/-! ## The bits of a value read from `P.STA` -/

@[simp] theorem Env.sta_cmdSent (e : Env) : staCmdSent e.sta = e.latched.getLsbD 0 := by
  simp only [staCmdSent, Env.sta, BitVec.getLsbD_append]; simp
@[simp] theorem Env.sta_cmdRend (e : Env) : staCmdRend e.sta = e.latched.getLsbD 1 := by
  simp only [staCmdRend, Env.sta, BitVec.getLsbD_append]; simp
@[simp] theorem Env.sta_cTimeout (e : Env) : staCTimeout e.sta = e.latched.getLsbD 2 := by
  simp only [staCTimeout, Env.sta, BitVec.getLsbD_append]; simp
@[simp] theorem Env.sta_cCrcFail (e : Env) : staCCrcFail e.sta = e.latched.getLsbD 3 := by
  simp only [staCCrcFail, Env.sta, BitVec.getLsbD_append]; simp
@[simp] theorem Env.sta_dataEnd (e : Env) : staDataEnd e.sta = e.latched.getLsbD 4 := by
  simp only [staDataEnd, Env.sta, BitVec.getLsbD_append]; simp
@[simp] theorem Env.sta_rxDavl (e : Env) : staRxDavl e.sta = !e.rx.isEmpty := by
  simp only [staRxDavl, Env.sta, BitVec.getLsbD_append]; simp
@[simp] theorem Env.sta_txHe (e : Env) : staTxHe e.sta = e.txhe := by
  simp only [staTxHe, Env.sta, BitVec.getLsbD_append]; simp

/-! ## The clear law -/

theorem Env.clearLaw_iff (e : Env) :
    e.ClearLaw ↔ ∀ i, i < 4 → e.latched.getLsbD i = true → e.armed.getLsbD i = true := by
  unfold Env.ClearLaw
  constructor
  · intro h i hi hl
    have := congrArg (fun b => b.getLsbD i) h
    simp [hi, hl] at this
    exact this
  · intro h
    apply BitVec.eq_of_getLsbD_eq
    intro i hi
    have := h i hi
    simp [hi]
    exact this

theorem Env.ClearLaw.move {e : Env} (h : e.ClearLaw) : e.move.ClearLaw := by
  rw [Env.clearLaw_iff] at h ⊢
  obtain ⟨r, hr⟩ := e.move_latched
  intro i hi hl
  rw [hr] at hl
  rw [Env.move_armed]
  have hm : e.mayRaise.getLsbD i = e.armed.getLsbD i := by
    simp only [Env.mayRaise, BitVec.getLsbD_append, hi, ite_true]
  simp only [BitVec.getLsbD_or, BitVec.getLsbD_and, hm, Bool.or_eq_true, Bool.and_eq_true] at hl
  rcases hl with hl | hl
  · exact h i hi hl
  · exact hl.2

theorem Env.ClearLaw.seen {e : Env} (h : e.ClearLaw) : e.seen.ClearLaw := h

theorem Env.ClearLaw.started {e : Env} (_ : e.ClearLaw) : e.started.ClearLaw := by
  rw [Env.clearLaw_iff]
  intro i hi _
  rw [Env.started_armed]
  interval_cases i <;> rfl

theorem Env.ClearLaw.cleared {e : Env} (h : e.ClearLaw) (m : BitVec 5) : (e.cleared m).ClearLaw := by
  rw [Env.clearLaw_iff] at h ⊢
  intro i hi hl
  have := h i hi
  simp [hi, show i < 5 by omega] at hl ⊢
  exact ⟨this hl.1, hl.2⟩

/-- With nothing armed, the clear law says that no command flag is latched. -/
theorem Env.ClearLaw.no_command_flag {e : Env} (h : e.ClearLaw) (ha : e.armed = 0) {i : Nat} (hi : i < 4) :
    e.latched.getLsbD i = false := by
  rw [Env.clearLaw_iff] at h
  by_contra hne
  have := h i hi (by simpa using hne)
  rw [ha] at this
  simp at this

/-! ## One move, flag by flag -/

theorem Env.move_keeps {e : Env} {i : Nat} (h : e.latched.getLsbD i = true) : e.move.latched.getLsbD i = true := by
  obtain ⟨r, hr⟩ := e.move_latched
  rw [hr, BitVec.getLsbD_or, h, Bool.true_or]

theorem Env.sta_getLsbD (e : Env) (i : Nat) (hi : i < 5) : e.sta.getLsbD i = e.latched.getLsbD i := by
  simp only [Env.sta, BitVec.getLsbD_append, hi, if_true]

theorem fifoPop_next {s t : State} {w : Word} (h : fifoPop s = .next (t, w)) :
    ∃ rest, s.env.move.rx = w :: rest ∧ t.env = { s.env.move with rx := rest } := by
  unfold fifoPop at h
  split at h
  · cases h
  · cases h
    exact ⟨_, ‹_›, rfl⟩

theorem State.FlagDown.move {s : State} {i : Fin 4} (h : s.FlagDown i) : s.env.move.latched.getLsbD i.val = false ∧ s.env.move.armed.getLsbD i.val = false := by
  refine ⟨?_, by rw [Env.move_armed]; exact h.2⟩
  obtain ⟨r, hr⟩ := s.env.move_latched
  rw [hr, BitVec.getLsbD_or, h.1, BitVec.getLsbD_and]
  have : s.env.mayRaise.getLsbD i.val = s.env.armed.getLsbD i.val := by
    simp only [Env.mayRaise, BitVec.getLsbD_append, i.isLt, if_true]
  rw [this, h.2]; simp

theorem State.Held.move {s : State} {e : BitVec 6} {r : Words4} (h : s.Held e r) :
    s.env.move.stable = true ∧ s.env.move.respCmd = e ∧ s.env.move.resp = r := by
  have := Env.move_resp_of_stable h.1
  exact ⟨by rw [Env.move_stable]; exact h.1, this.1.trans h.2.1, this.2.trans h.2.2⟩

end Sys2Proof.Machine
end

