-- ==== Sys2Proof/Laws/State.lean ====
section
/-! SUPPORT. What each named operation does to each field of the state: one lemma per field, so that no proof about a
meaning unfolds a record update. -/

namespace Sys2Proof.Machine

/-! ### `writeArg` -/

@[simp] theorem writeArg_cd (v : Word) (s : State) : (writeArg v s).cd = s.cd := rfl
@[simp] theorem writeArg_t (v : Word) (s : State) : (writeArg v s).t = s.t := rfl
@[simp] theorem writeArg_seq (v : Word) (s : State) : (writeArg v s).seq = s.seq := rfl
@[simp] theorem writeArg_bte (v : Word) (s : State) : (writeArg v s).bte = s.bte := rfl
@[simp] theorem writeArg_p (v : Word) (s : State) : (writeArg v s).p = { s.p with arg := v } := rfl
@[simp] theorem writeArg_env (v : Word) (s : State) : (writeArg v s).env = s.env.move := rfl
@[simp] theorem writeArg_port (v : Word) (s : State) : (writeArg v s).port = s.port := rfl
@[simp] theorem writeArg_decoded (v : Word) (s : State) : (writeArg v s).decoded = s.decoded := rfl
@[simp] theorem writeArg_log (v : Word) (s : State) : (writeArg v s).log = .access (.writeArg v) :: s.log := rfl
@[simp] theorem writeArg_freed (v : Word) (s : State) : (writeArg v s).freed = s.freed := rfl
@[simp] theorem writeArg_cfg (v : Word) (s : State) : (writeArg v s).cfg = s.cfg := rfl

/-! ### `writeCmd` -/

@[simp] theorem writeCmd_cd (v : BitVec 9) (s : State) : (writeCmd v s).cd = s.cd := rfl
@[simp] theorem writeCmd_t (v : BitVec 9) (s : State) : (writeCmd v s).t = s.t := rfl
@[simp] theorem writeCmd_seq (v : BitVec 9) (s : State) : (writeCmd v s).seq = s.seq := rfl
@[simp] theorem writeCmd_bte (v : BitVec 9) (s : State) : (writeCmd v s).bte = s.bte := rfl
@[simp] theorem writeCmd_p (v : BitVec 9) (s : State) : (writeCmd v s).p = { s.p with cmd := v } := rfl
@[simp] theorem writeCmd_env (v : BitVec 9) (s : State) : (writeCmd v s).env = if v.getLsbD 8 then s.env.move.started else s.env.move := rfl
@[simp] theorem writeCmd_port (v : BitVec 9) (s : State) : (writeCmd v s).port = s.port := rfl
@[simp] theorem writeCmd_decoded (v : BitVec 9) (s : State) : (writeCmd v s).decoded = s.decoded := rfl
@[simp] theorem writeCmd_log (v : BitVec 9) (s : State) : (writeCmd v s).log = .access (.writeCmd v) :: s.log := rfl
@[simp] theorem writeCmd_freed (v : BitVec 9) (s : State) : (writeCmd v s).freed = s.freed := rfl
@[simp] theorem writeCmd_cfg (v : BitVec 9) (s : State) : (writeCmd v s).cfg = s.cfg := rfl

/-! ### `writeIcr` -/

@[simp] theorem writeIcr_cd (m : BitVec 5) (s : State) : (writeIcr m s).cd = s.cd := rfl
@[simp] theorem writeIcr_t (m : BitVec 5) (s : State) : (writeIcr m s).t = s.t := rfl
@[simp] theorem writeIcr_seq (m : BitVec 5) (s : State) : (writeIcr m s).seq = s.seq := rfl
@[simp] theorem writeIcr_bte (m : BitVec 5) (s : State) : (writeIcr m s).bte = s.bte := rfl
@[simp] theorem writeIcr_p (m : BitVec 5) (s : State) : (writeIcr m s).p = s.p := rfl
@[simp] theorem writeIcr_env (m : BitVec 5) (s : State) : (writeIcr m s).env = s.env.move.cleared m := rfl
@[simp] theorem writeIcr_port (m : BitVec 5) (s : State) : (writeIcr m s).port = s.port := rfl
@[simp] theorem writeIcr_decoded (m : BitVec 5) (s : State) : (writeIcr m s).decoded = s.decoded := rfl
@[simp] theorem writeIcr_log (m : BitVec 5) (s : State) : (writeIcr m s).log = .access (.writeIcr m) :: s.log := rfl
@[simp] theorem writeIcr_freed (m : BitVec 5) (s : State) : (writeIcr m s).freed = s.freed := rfl
@[simp] theorem writeIcr_cfg (m : BitVec 5) (s : State) : (writeIcr m s).cfg = s.cfg := rfl

/-! ### `writeDlen` -/

@[simp] theorem writeDlen_cd (v : Word) (s : State) : (writeDlen v s).cd = s.cd := rfl
@[simp] theorem writeDlen_t (v : Word) (s : State) : (writeDlen v s).t = s.t := rfl
@[simp] theorem writeDlen_seq (v : Word) (s : State) : (writeDlen v s).seq = s.seq := rfl
@[simp] theorem writeDlen_bte (v : Word) (s : State) : (writeDlen v s).bte = s.bte := rfl
@[simp] theorem writeDlen_p (v : Word) (s : State) : (writeDlen v s).p = { s.p with dlen := v } := rfl
@[simp] theorem writeDlen_env (v : Word) (s : State) : (writeDlen v s).env = s.env.move := rfl
@[simp] theorem writeDlen_port (v : Word) (s : State) : (writeDlen v s).port = s.port := rfl
@[simp] theorem writeDlen_decoded (v : Word) (s : State) : (writeDlen v s).decoded = s.decoded := rfl
@[simp] theorem writeDlen_log (v : Word) (s : State) : (writeDlen v s).log = .access (.writeDlen v) :: s.log := rfl
@[simp] theorem writeDlen_freed (v : Word) (s : State) : (writeDlen v s).freed = s.freed := rfl
@[simp] theorem writeDlen_cfg (v : Word) (s : State) : (writeDlen v s).cfg = s.cfg := rfl

/-! ### `writeDctrl` -/

@[simp] theorem writeDctrl_cd (v : BitVec 2) (s : State) : (writeDctrl v s).cd = s.cd := rfl
@[simp] theorem writeDctrl_t (v : BitVec 2) (s : State) : (writeDctrl v s).t = s.t := rfl
@[simp] theorem writeDctrl_seq (v : BitVec 2) (s : State) : (writeDctrl v s).seq = s.seq := rfl
@[simp] theorem writeDctrl_bte (v : BitVec 2) (s : State) : (writeDctrl v s).bte = s.bte := rfl
@[simp] theorem writeDctrl_p (v : BitVec 2) (s : State) : (writeDctrl v s).p = { s.p with dctrl := v } := rfl
@[simp] theorem writeDctrl_env (v : BitVec 2) (s : State) : (writeDctrl v s).env = s.env.move := rfl
@[simp] theorem writeDctrl_port (v : BitVec 2) (s : State) : (writeDctrl v s).port = s.port := rfl
@[simp] theorem writeDctrl_decoded (v : BitVec 2) (s : State) : (writeDctrl v s).decoded = s.decoded := rfl
@[simp] theorem writeDctrl_log (v : BitVec 2) (s : State) : (writeDctrl v s).log = .access (.writeDctrl v) :: s.log := rfl
@[simp] theorem writeDctrl_freed (v : BitVec 2) (s : State) : (writeDctrl v s).freed = s.freed := rfl
@[simp] theorem writeDctrl_cfg (v : BitVec 2) (s : State) : (writeDctrl v s).cfg = s.cfg := rfl

/-! ### `readSta` -/

@[simp] theorem readSta_cd (s : State) : (readSta s).1.cd = s.cd := rfl
@[simp] theorem readSta_t (s : State) : (readSta s).1.t = s.t := rfl
@[simp] theorem readSta_seq (s : State) : (readSta s).1.seq = s.seq := rfl
@[simp] theorem readSta_bte (s : State) : (readSta s).1.bte = s.bte := rfl
@[simp] theorem readSta_p (s : State) : (readSta s).1.p = s.p := rfl
@[simp] theorem readSta_env (s : State) : (readSta s).1.env = s.env.move.seen := rfl
@[simp] theorem readSta_port (s : State) : (readSta s).1.port = s.port := rfl
@[simp] theorem readSta_decoded (s : State) : (readSta s).1.decoded = s.decoded := rfl
@[simp] theorem readSta_log (s : State) : (readSta s).1.log = .access (.readSta s.env.move.sta) :: s.log := rfl
@[simp] theorem readSta_freed (s : State) : (readSta s).1.freed = s.freed := rfl
@[simp] theorem readSta_cfg (s : State) : (readSta s).1.cfg = s.cfg := rfl

/-! ### `readRespCmd` -/

@[simp] theorem readRespCmd_cd (s : State) : (readRespCmd s).1.cd = s.cd := rfl
@[simp] theorem readRespCmd_t (s : State) : (readRespCmd s).1.t = s.t := rfl
@[simp] theorem readRespCmd_seq (s : State) : (readRespCmd s).1.seq = s.seq := rfl
@[simp] theorem readRespCmd_bte (s : State) : (readRespCmd s).1.bte = s.bte := rfl
@[simp] theorem readRespCmd_p (s : State) : (readRespCmd s).1.p = s.p := rfl
@[simp] theorem readRespCmd_env (s : State) : (readRespCmd s).1.env = s.env.move := rfl
@[simp] theorem readRespCmd_port (s : State) : (readRespCmd s).1.port = s.port := rfl
@[simp] theorem readRespCmd_decoded (s : State) : (readRespCmd s).1.decoded = s.decoded := rfl
@[simp] theorem readRespCmd_log (s : State) : (readRespCmd s).1.log = .access (.readRespCmd s.env.move.respCmd) :: s.log := rfl
@[simp] theorem readRespCmd_freed (s : State) : (readRespCmd s).1.freed = s.freed := rfl
@[simp] theorem readRespCmd_cfg (s : State) : (readRespCmd s).1.cfg = s.cfg := rfl

/-! ### `readResp` -/

@[simp] theorem readResp_cd (i : Fin 4) (s : State) : (readResp i s).1.cd = s.cd := rfl
@[simp] theorem readResp_t (i : Fin 4) (s : State) : (readResp i s).1.t = s.t := rfl
@[simp] theorem readResp_seq (i : Fin 4) (s : State) : (readResp i s).1.seq = s.seq := rfl
@[simp] theorem readResp_bte (i : Fin 4) (s : State) : (readResp i s).1.bte = s.bte := rfl
@[simp] theorem readResp_p (i : Fin 4) (s : State) : (readResp i s).1.p = s.p := rfl
@[simp] theorem readResp_env (i : Fin 4) (s : State) : (readResp i s).1.env = s.env.move := rfl
@[simp] theorem readResp_port (i : Fin 4) (s : State) : (readResp i s).1.port = s.port := rfl
@[simp] theorem readResp_decoded (i : Fin 4) (s : State) : (readResp i s).1.decoded = s.decoded := rfl
@[simp] theorem readResp_log (i : Fin 4) (s : State) : (readResp i s).1.log = .access (.readResp i (s.env.move.respAt i)) :: s.log := rfl
@[simp] theorem readResp_freed (i : Fin 4) (s : State) : (readResp i s).1.freed = s.freed := rfl
@[simp] theorem readResp_cfg (i : Fin 4) (s : State) : (readResp i s).1.cfg = s.cfg := rfl

/-! ### `readDcount` -/

@[simp] theorem readDcount_cd (s : State) : (readDcount s).1.cd = s.cd := rfl
@[simp] theorem readDcount_t (s : State) : (readDcount s).1.t = s.t := rfl
@[simp] theorem readDcount_seq (s : State) : (readDcount s).1.seq = s.seq := rfl
@[simp] theorem readDcount_bte (s : State) : (readDcount s).1.bte = s.bte := rfl
@[simp] theorem readDcount_p (s : State) : (readDcount s).1.p = s.p := rfl
@[simp] theorem readDcount_env (s : State) : (readDcount s).1.env = s.env.move := rfl
@[simp] theorem readDcount_port (s : State) : (readDcount s).1.port = s.port := rfl
@[simp] theorem readDcount_decoded (s : State) : (readDcount s).1.decoded = s.decoded := rfl
@[simp] theorem readDcount_log (s : State) : (readDcount s).1.log = .access (.readDcount s.env.move.dcount) :: s.log := rfl
@[simp] theorem readDcount_freed (s : State) : (readDcount s).1.freed = s.freed := rfl
@[simp] theorem readDcount_cfg (s : State) : (readDcount s).1.cfg = s.cfg := rfl

/-! ### `fifoPush` -/

@[simp] theorem fifoPush_cd (w : Word) (s : State) : (fifoPush w s).cd = s.cd := rfl
@[simp] theorem fifoPush_t (w : Word) (s : State) : (fifoPush w s).t = s.t := rfl
@[simp] theorem fifoPush_seq (w : Word) (s : State) : (fifoPush w s).seq = s.seq := rfl
@[simp] theorem fifoPush_bte (w : Word) (s : State) : (fifoPush w s).bte = s.bte := rfl
@[simp] theorem fifoPush_p (w : Word) (s : State) : (fifoPush w s).p = s.p := rfl
@[simp] theorem fifoPush_env (w : Word) (s : State) : (fifoPush w s).env = { s.env.move with tx := s.env.move.tx ++ [w] } := rfl
@[simp] theorem fifoPush_port (w : Word) (s : State) : (fifoPush w s).port = s.port := rfl
@[simp] theorem fifoPush_decoded (w : Word) (s : State) : (fifoPush w s).decoded = s.decoded := rfl
@[simp] theorem fifoPush_log (w : Word) (s : State) : (fifoPush w s).log = .access (.fifoPush w) :: s.log := rfl
@[simp] theorem fifoPush_freed (w : Word) (s : State) : (fifoPush w s).freed = s.freed := rfl
@[simp] theorem fifoPush_cfg (w : Word) (s : State) : (fifoPush w s).cfg = s.cfg := rfl

/-! ### `enterSeq` -/

@[simp] theorem enterSeq_cd (st : SeqState) (s : State) : (enterSeq st s).cd = s.cd := rfl
@[simp] theorem enterSeq_t (st : SeqState) (s : State) : (enterSeq st s).t = s.t := rfl
@[simp] theorem enterSeq_seq (st : SeqState) (s : State) : (enterSeq st s).seq = { s.seq with state := st } := rfl
@[simp] theorem enterSeq_bte (st : SeqState) (s : State) : (enterSeq st s).bte = s.bte := rfl
@[simp] theorem enterSeq_p (st : SeqState) (s : State) : (enterSeq st s).p = s.p := rfl
@[simp] theorem enterSeq_env (st : SeqState) (s : State) : (enterSeq st s).env = s.env := rfl
@[simp] theorem enterSeq_port (st : SeqState) (s : State) : (enterSeq st s).port = s.port := rfl
@[simp] theorem enterSeq_decoded (st : SeqState) (s : State) : (enterSeq st s).decoded = s.decoded := rfl
@[simp] theorem enterSeq_log (st : SeqState) (s : State) : (enterSeq st s).log = .seq st :: s.log := rfl
@[simp] theorem enterSeq_freed (st : SeqState) (s : State) : (enterSeq st s).freed = s.freed := rfl
@[simp] theorem enterSeq_cfg (st : SeqState) (s : State) : (enterSeq st s).cfg = s.cfg := rfl

/-! ### `enterPhase` -/

@[simp] theorem enterPhase_cd (ph : Phase) (s : State) : (enterPhase ph s).cd = s.cd := rfl
@[simp] theorem enterPhase_t (ph : Phase) (s : State) : (enterPhase ph s).t = s.t := rfl
@[simp] theorem enterPhase_seq (ph : Phase) (s : State) : (enterPhase ph s).seq = s.seq := rfl
@[simp] theorem enterPhase_bte (ph : Phase) (s : State) : (enterPhase ph s).bte = { s.bte with phase := ph } := rfl
@[simp] theorem enterPhase_p (ph : Phase) (s : State) : (enterPhase ph s).p = s.p := rfl
@[simp] theorem enterPhase_env (ph : Phase) (s : State) : (enterPhase ph s).env = s.env := rfl
@[simp] theorem enterPhase_port (ph : Phase) (s : State) : (enterPhase ph s).port = s.port := rfl
@[simp] theorem enterPhase_decoded (ph : Phase) (s : State) : (enterPhase ph s).decoded = s.decoded := rfl
@[simp] theorem enterPhase_log (ph : Phase) (s : State) : (enterPhase ph s).log = .phase ph :: s.log := rfl
@[simp] theorem enterPhase_freed (ph : Phase) (s : State) : (enterPhase ph s).freed = s.freed := rfl
@[simp] theorem enterPhase_cfg (ph : Phase) (s : State) : (enterPhase ph s).cfg = s.cfg := rfl

/-! ### `finish` -/

@[simp] theorem finish_cd (st : Status) (v : BitVec 64) (s : State) : (finish st v s).cd = s.cd := rfl
@[simp] theorem finish_t (st : Status) (v : BitVec 64) (s : State) : (finish st v s).t = s.t := rfl
@[simp] theorem finish_seq (st : Status) (v : BitVec 64) (s : State) : (finish st v s).seq = s.seq := rfl
@[simp] theorem finish_bte (st : Status) (v : BitVec 64) (s : State) : (finish st v s).bte = s.bte := rfl
@[simp] theorem finish_p (st : Status) (v : BitVec 64) (s : State) : (finish st v s).p = s.p := rfl
@[simp] theorem finish_env (st : Status) (v : BitVec 64) (s : State) : (finish st v s).env = s.env := rfl
@[simp] theorem finish_port (st : Status) (v : BitVec 64) (s : State) : (finish st v s).port = { s.port with status := st, value := v } := rfl
@[simp] theorem finish_decoded (st : Status) (v : BitVec 64) (s : State) : (finish st v s).decoded = s.decoded := rfl
@[simp] theorem finish_log (st : Status) (v : BitVec 64) (s : State) : (finish st v s).log = s.log := rfl
@[simp] theorem finish_freed (st : Status) (v : BitVec 64) (s : State) : (finish st v s).freed = s.freed := rfl
@[simp] theorem finish_cfg (st : Status) (v : BitVec 64) (s : State) : (finish st v s).cfg = s.cfg := rfl

/-! ### `abortInit` -/

@[simp] theorem abortInit_cd (c : ErrorCode) (s : State) : (abortInit c s).cd = { s.cd with cls := .error, errorCode := c, blockCount := 0, relativeAddress := 0 } := rfl
@[simp] theorem abortInit_t (c : ErrorCode) (s : State) : (abortInit c s).t = s.t := rfl
@[simp] theorem abortInit_seq (c : ErrorCode) (s : State) : (abortInit c s).seq = { s.seq with state := .error } := rfl
@[simp] theorem abortInit_bte (c : ErrorCode) (s : State) : (abortInit c s).bte = s.bte := rfl
@[simp] theorem abortInit_p (c : ErrorCode) (s : State) : (abortInit c s).p = s.p := rfl
@[simp] theorem abortInit_env (c : ErrorCode) (s : State) : (abortInit c s).env = s.env := rfl
@[simp] theorem abortInit_port (c : ErrorCode) (s : State) : (abortInit c s).port = { s.port with status := c.status, value := c.code.setWidth 64 } := rfl
@[simp] theorem abortInit_decoded (c : ErrorCode) (s : State) : (abortInit c s).decoded = s.decoded := rfl
@[simp] theorem abortInit_log (c : ErrorCode) (s : State) : (abortInit c s).log = .seq .error :: s.log := rfl
@[simp] theorem abortInit_freed (c : ErrorCode) (s : State) : (abortInit c s).freed = s.freed := rfl
@[simp] theorem abortInit_cfg (c : ErrorCode) (s : State) : (abortInit c s).cfg = s.cfg := rfl

/-! ### `failOp` -/

@[simp] theorem failOp_cd (st : Status) (v : BitVec 64) (s : State) : (failOp st v s).cd = s.cd := rfl
@[simp] theorem failOp_t (st : Status) (v : BitVec 64) (s : State) : (failOp st v s).t = s.t := rfl
@[simp] theorem failOp_seq (st : Status) (v : BitVec 64) (s : State) : (failOp st v s).seq = s.seq := rfl
@[simp] theorem failOp_bte (st : Status) (v : BitVec 64) (s : State) : (failOp st v s).bte = { s.bte with phase := .idle } := rfl
@[simp] theorem failOp_p (st : Status) (v : BitVec 64) (s : State) : (failOp st v s).p = s.p := rfl
@[simp] theorem failOp_env (st : Status) (v : BitVec 64) (s : State) : (failOp st v s).env = s.env := rfl
@[simp] theorem failOp_port (st : Status) (v : BitVec 64) (s : State) : (failOp st v s).port = { s.port with status := st, value := v } := rfl
@[simp] theorem failOp_decoded (st : Status) (v : BitVec 64) (s : State) : (failOp st v s).decoded = s.decoded := rfl
@[simp] theorem failOp_log (st : Status) (v : BitVec 64) (s : State) : (failOp st v s).log = s.log := rfl
@[simp] theorem failOp_freed (st : Status) (v : BitVec 64) (s : State) : (failOp st v s).freed = s.freed := rfl
@[simp] theorem failOp_cfg (st : Status) (v : BitVec 64) (s : State) : (failOp st v s).cfg = s.cfg := rfl

/-! ### `freeRbuf` -/

@[simp] theorem freeRbuf_cd (s : State) : (freeRbuf s).cd = s.cd := rfl
@[simp] theorem freeRbuf_t (s : State) : (freeRbuf s).t = s.t := rfl
@[simp] theorem freeRbuf_seq (s : State) : (freeRbuf s).seq = s.seq := rfl
@[simp] theorem freeRbuf_bte (s : State) : (freeRbuf s).bte = s.bte := rfl
@[simp] theorem freeRbuf_p (s : State) : (freeRbuf s).p = s.p := rfl
@[simp] theorem freeRbuf_env (s : State) : (freeRbuf s).env = s.env := rfl
@[simp] theorem freeRbuf_port (s : State) : (freeRbuf s).port = { s.port with rbuf := Memory.ofFun (Config.freeByte s.freed) } := rfl
@[simp] theorem freeRbuf_decoded (s : State) : (freeRbuf s).decoded = s.decoded := rfl
@[simp] theorem freeRbuf_log (s : State) : (freeRbuf s).log = s.log := rfl
@[simp] theorem freeRbuf_freed (s : State) : (freeRbuf s).freed = s.freed + 1 := rfl
@[simp] theorem freeRbuf_cfg (s : State) : (freeRbuf s).cfg = s.cfg := rfl

/-! ### `failRead` -/

@[simp] theorem failRead_cd (st : Status) (s : State) : (failRead st s).cd = s.cd := rfl
@[simp] theorem failRead_t (st : Status) (s : State) : (failRead st s).t = s.t := rfl
@[simp] theorem failRead_seq (st : Status) (s : State) : (failRead st s).seq = s.seq := rfl
@[simp] theorem failRead_bte (st : Status) (s : State) : (failRead st s).bte = { s.bte with phase := .idle } := rfl
@[simp] theorem failRead_p (st : Status) (s : State) : (failRead st s).p = s.p := rfl
@[simp] theorem failRead_env (st : Status) (s : State) : (failRead st s).env = s.env := rfl
@[simp] theorem failRead_decoded (st : Status) (s : State) : (failRead st s).decoded = s.decoded := rfl
@[simp] theorem failRead_log (st : Status) (s : State) : (failRead st s).log = .phase .idle :: s.log := rfl
@[simp] theorem failRead_freed (st : Status) (s : State) : (failRead st s).freed = s.freed + 1 := rfl
@[simp] theorem failRead_cfg (st : Status) (s : State) : (failRead st s).cfg = s.cfg := rfl

/-! ### `failWrite` -/

@[simp] theorem failWrite_cd (st : Status) (s : State) : (failWrite st s).cd = s.cd := rfl
@[simp] theorem failWrite_t (st : Status) (s : State) : (failWrite st s).t = s.t := rfl
@[simp] theorem failWrite_seq (st : Status) (s : State) : (failWrite st s).seq = s.seq := rfl
@[simp] theorem failWrite_bte (st : Status) (s : State) : (failWrite st s).bte = { s.bte with phase := .idle } := rfl
@[simp] theorem failWrite_p (st : Status) (s : State) : (failWrite st s).p = s.p := rfl
@[simp] theorem failWrite_env (st : Status) (s : State) : (failWrite st s).env = s.env := rfl
@[simp] theorem failWrite_decoded (st : Status) (s : State) : (failWrite st s).decoded = s.decoded := rfl
@[simp] theorem failWrite_log (st : Status) (s : State) : (failWrite st s).log = .phase .idle :: s.log := rfl
@[simp] theorem failWrite_freed (st : Status) (s : State) : (failWrite st s).freed = s.freed := rfl
@[simp] theorem failWrite_cfg (st : Status) (s : State) : (failWrite st s).cfg = s.cfg := rfl

/-! ### `endOperation` -/

@[simp] theorem endOperation_cd (s : State) : s.endOperation.cd = s.cd := rfl
@[simp] theorem endOperation_t (s : State) : s.endOperation.t = s.t := rfl
@[simp] theorem endOperation_seq (s : State) : s.endOperation.seq = s.seq := rfl
@[simp] theorem endOperation_bte (s : State) : s.endOperation.bte = s.bte := rfl
@[simp] theorem endOperation_p (s : State) : s.endOperation.p = s.p := rfl
@[simp] theorem endOperation_env (s : State) : s.endOperation.env = s.env := rfl
@[simp] theorem endOperation_port (s : State) : s.endOperation.port = { s.port with request := none } := rfl
@[simp] theorem endOperation_decoded (s : State) : s.endOperation.decoded = s.decoded := rfl
@[simp] theorem endOperation_log (s : State) : s.endOperation.log = s.log := rfl
@[simp] theorem endOperation_freed (s : State) : s.endOperation.freed = s.freed := rfl
@[simp] theorem endOperation_cfg (s : State) : s.endOperation.cfg = s.cfg := rfl

/-! ### Values read -/

@[simp] theorem readSta_value (s : State) : (readSta s).2 = s.env.move.sta := rfl
@[simp] theorem readRespCmd_value (s : State) : (readRespCmd s).2 = s.env.move.respCmd := rfl
@[simp] theorem readResp_value (i : Fin 4) (s : State) : (readResp i s).2 = s.env.move.respAt i := rfl
@[simp] theorem readDcount_value (s : State) : (readDcount s).2 = s.env.move.dcount := rfl

/-! ### How the part of an operation goes on -/

@[simp] theorem Flow.andThen_running (s : State) (k : State → Flow) : (Flow.running s).andThen k = k s := rfl
@[simp] theorem Flow.andThen_ended (s : State) (k : State → Flow) : (Flow.ended s).andThen k = .ended s := rfl
@[simp] theorem Flow.finally_running (s : State) (k : State → State) : (Flow.running s).finally k = k s := rfl
@[simp] theorem Flow.finally_ended (s : State) (k : State → State) : (Flow.ended s).finally k = s := rfl

end Sys2Proof.Machine
end

