-- ==== Sys2Proof/Laws/Transport.lean ====
section
/-! SUPPORT. What unit T does: the fields it leaves alone, the accesses it makes, and the outcome it classifies
(40_transport.md). Every other unit's lemmas cite these and never unfold `transact`. -/

namespace Sys2Proof.Machine

/-! ## The log -/

theorem accesses_of_access {s t : State} {a : Access} (h : t.log = .access a :: s.log) :
    t.accesses = s.accesses ++ [a] := by simp [State.accesses, h, Event.access?]

theorem accesses_of_log {s t : State} (h : t.log = s.log) : t.accesses = s.accesses := by simp [State.accesses, h]

theorem accesses_of_seq {s t : State} {st : SeqState} (h : t.log = .seq st :: s.log) : t.accesses = s.accesses := by simp [State.accesses, h, Event.access?]

theorem accesses_of_phase {s t : State} {ph : Phase} (h : t.log = .phase ph :: s.log) : t.accesses = s.accesses := by simp [State.accesses, h, Event.access?]

theorem seqEntered_of_access {s t : State} {a : Access} (h : t.log = .access a :: s.log) :
    t.seqEntered = s.seqEntered := by simp [State.seqEntered, h, Event.seq?]

theorem seqEntered_of_log {s t : State} (h : t.log = s.log) : t.seqEntered = s.seqEntered := by simp [State.seqEntered, h]

theorem seqEntered_of_seq {s t : State} {st : SeqState} (h : t.log = .seq st :: s.log) :
    t.seqEntered = s.seqEntered ++ [st] := by simp [State.seqEntered, h, Event.seq?]

@[simp] theorem writeArg_accesses (v : Word) (s : State) : (writeArg v s).accesses = s.accesses ++ [.writeArg v] :=
  accesses_of_access rfl
@[simp] theorem writeArg_seqEntered (v : Word) (s : State) : (writeArg v s).seqEntered = s.seqEntered :=
  seqEntered_of_access rfl
@[simp] theorem writeCmd_accesses (v : BitVec 9) (s : State) : (writeCmd v s).accesses = s.accesses ++ [.writeCmd v] :=
  accesses_of_access rfl
@[simp] theorem writeCmd_seqEntered (v : BitVec 9) (s : State) : (writeCmd v s).seqEntered = s.seqEntered :=
  seqEntered_of_access rfl
@[simp] theorem writeIcr_accesses (m : BitVec 5) (s : State) : (writeIcr m s).accesses = s.accesses ++ [.writeIcr m] :=
  accesses_of_access rfl
@[simp] theorem writeIcr_seqEntered (m : BitVec 5) (s : State) : (writeIcr m s).seqEntered = s.seqEntered :=
  seqEntered_of_access rfl
@[simp] theorem writeDlen_accesses (v : Word) (s : State) : (writeDlen v s).accesses = s.accesses ++ [.writeDlen v] :=
  accesses_of_access rfl
@[simp] theorem writeDlen_seqEntered (v : Word) (s : State) : (writeDlen v s).seqEntered = s.seqEntered :=
  seqEntered_of_access rfl
@[simp] theorem writeDctrl_accesses (v : BitVec 2) (s : State) : (writeDctrl v s).accesses = s.accesses ++ [.writeDctrl v] :=
  accesses_of_access rfl
@[simp] theorem writeDctrl_seqEntered (v : BitVec 2) (s : State) : (writeDctrl v s).seqEntered = s.seqEntered :=
  seqEntered_of_access rfl
@[simp] theorem readSta_accesses (s : State) : (readSta s).1.accesses = s.accesses ++ [.readSta s.env.move.sta] :=
  accesses_of_access rfl
@[simp] theorem readSta_seqEntered (s : State) : (readSta s).1.seqEntered = s.seqEntered :=
  seqEntered_of_access rfl
@[simp] theorem readRespCmd_accesses (s : State) : (readRespCmd s).1.accesses = s.accesses ++ [.readRespCmd s.env.move.respCmd] :=
  accesses_of_access rfl
@[simp] theorem readRespCmd_seqEntered (s : State) : (readRespCmd s).1.seqEntered = s.seqEntered :=
  seqEntered_of_access rfl
@[simp] theorem readResp_accesses (i : Fin 4) (s : State) : (readResp i s).1.accesses = s.accesses ++ [.readResp i (s.env.move.respAt i)] :=
  accesses_of_access rfl
@[simp] theorem readResp_seqEntered (i : Fin 4) (s : State) : (readResp i s).1.seqEntered = s.seqEntered :=
  seqEntered_of_access rfl
@[simp] theorem readDcount_accesses (s : State) : (readDcount s).1.accesses = s.accesses ++ [.readDcount s.env.move.dcount] :=
  accesses_of_access rfl
@[simp] theorem readDcount_seqEntered (s : State) : (readDcount s).1.seqEntered = s.seqEntered :=
  seqEntered_of_access rfl
@[simp] theorem fifoPush_accesses (w : Word) (s : State) : (fifoPush w s).accesses = s.accesses ++ [.fifoPush w] :=
  accesses_of_access rfl
@[simp] theorem fifoPush_seqEntered (w : Word) (s : State) : (fifoPush w s).seqEntered = s.seqEntered :=
  seqEntered_of_access rfl
@[simp] theorem enterSeq_accesses (st : SeqState) (s : State) : (enterSeq st s).accesses = s.accesses :=
  accesses_of_seq rfl
@[simp] theorem enterSeq_seqEntered (st : SeqState) (s : State) :
    (enterSeq st s).seqEntered = s.seqEntered ++ [st] :=
  seqEntered_of_seq rfl
@[simp] theorem enterPhase_accesses (ph : Phase) (s : State) : (enterPhase ph s).accesses = s.accesses :=
  accesses_of_phase rfl
@[simp] theorem finish_accesses (st : Status) (v : BitVec 64) (s : State) : (finish st v s).accesses = s.accesses := rfl
@[simp] theorem finish_seqEntered (st : Status) (v : BitVec 64) (s : State) :
    (finish st v s).seqEntered = s.seqEntered := rfl
@[simp] theorem abortInit_accesses (c : ErrorCode) (s : State) : (abortInit c s).accesses = s.accesses :=
  accesses_of_seq rfl
@[simp] theorem abortInit_seqEntered (c : ErrorCode) (s : State) :
    (abortInit c s).seqEntered = s.seqEntered ++ [.error] :=
  seqEntered_of_seq rfl
@[simp] theorem failOp_accesses (st : Status) (v : BitVec 64) (s : State) : (failOp st v s).accesses = s.accesses := rfl

/-! ## What the status poll, the classification and the extraction leave alone -/

@[simp] theorem pollStatus_cd (k : Nat) (s : State) : (pollStatus k s).1.cd = s.cd := by
  induction k generalizing s with
  | zero => rfl
  | succ k ih =>
    unfold pollStatus
    dsimp only
    split
    · rfl
    · rw [ih]; rfl
@[simp] theorem pollStatus_seq (k : Nat) (s : State) : (pollStatus k s).1.seq = s.seq := by
  induction k generalizing s with
  | zero => rfl
  | succ k ih =>
    unfold pollStatus
    dsimp only
    split
    · rfl
    · rw [ih]; rfl
@[simp] theorem pollStatus_bte (k : Nat) (s : State) : (pollStatus k s).1.bte = s.bte := by
  induction k generalizing s with
  | zero => rfl
  | succ k ih =>
    unfold pollStatus
    dsimp only
    split
    · rfl
    · rw [ih]; rfl
@[simp] theorem pollStatus_port (k : Nat) (s : State) : (pollStatus k s).1.port = s.port := by
  induction k generalizing s with
  | zero => rfl
  | succ k ih =>
    unfold pollStatus
    dsimp only
    split
    · rfl
    · rw [ih]; rfl
@[simp] theorem pollStatus_decoded (k : Nat) (s : State) : (pollStatus k s).1.decoded = s.decoded := by
  induction k generalizing s with
  | zero => rfl
  | succ k ih =>
    unfold pollStatus
    dsimp only
    split
    · rfl
    · rw [ih]; rfl
@[simp] theorem pollStatus_freed (k : Nat) (s : State) : (pollStatus k s).1.freed = s.freed := by
  induction k generalizing s with
  | zero => rfl
  | succ k ih =>
    unfold pollStatus
    dsimp only
    split
    · rfl
    · rw [ih]; rfl
@[simp] theorem pollStatus_cfg (k : Nat) (s : State) : (pollStatus k s).1.cfg = s.cfg := by
  induction k generalizing s with
  | zero => rfl
  | succ k ih =>
    unfold pollStatus
    dsimp only
    split
    · rfl
    · rw [ih]; rfl
@[simp] theorem pollStatus_p (k : Nat) (s : State) : (pollStatus k s).1.p = s.p := by
  induction k generalizing s with
  | zero => rfl
  | succ k ih =>
    unfold pollStatus
    dsimp only
    split
    · rfl
    · rw [ih]; rfl
@[simp] theorem pollStatus_t_frame (k : Nat) (s : State) : (pollStatus k s).1.t.frame = s.t.frame := by
  induction k generalizing s with
  | zero => rfl
  | succ k ih =>
    unfold pollStatus
    dsimp only
    split
    · rfl
    · rw [ih]; rfl
@[simp] theorem pollStatus_t_outcome (k : Nat) (s : State) : (pollStatus k s).1.t.outcome = s.t.outcome := by
  induction k generalizing s with
  | zero => rfl
  | succ k ih =>
    unfold pollStatus
    dsimp only
    split
    · rfl
    · rw [ih]; rfl
@[simp] theorem pollStatus_t_ackPending (k : Nat) (s : State) : (pollStatus k s).1.t.ackPending = s.t.ackPending := by
  induction k generalizing s with
  | zero => rfl
  | succ k ih =>
    unfold pollStatus
    dsimp only
    split
    · rfl
    · rw [ih]; rfl

@[simp] theorem classify_cd (f : Frame) (sta : Option (BitVec 7)) (s : State) : (classify f sta s).1.cd = s.cd := by
  unfold classify
  split
  · rfl
  · dsimp only; (repeat' split) <;> rfl
@[simp] theorem classify_seq (f : Frame) (sta : Option (BitVec 7)) (s : State) : (classify f sta s).1.seq = s.seq := by
  unfold classify
  split
  · rfl
  · dsimp only; (repeat' split) <;> rfl
@[simp] theorem classify_bte (f : Frame) (sta : Option (BitVec 7)) (s : State) : (classify f sta s).1.bte = s.bte := by
  unfold classify
  split
  · rfl
  · dsimp only; (repeat' split) <;> rfl
@[simp] theorem classify_port (f : Frame) (sta : Option (BitVec 7)) (s : State) : (classify f sta s).1.port = s.port := by
  unfold classify
  split
  · rfl
  · dsimp only; (repeat' split) <;> rfl
@[simp] theorem classify_decoded (f : Frame) (sta : Option (BitVec 7)) (s : State) : (classify f sta s).1.decoded = s.decoded := by
  unfold classify
  split
  · rfl
  · dsimp only; (repeat' split) <;> rfl
@[simp] theorem classify_freed (f : Frame) (sta : Option (BitVec 7)) (s : State) : (classify f sta s).1.freed = s.freed := by
  unfold classify
  split
  · rfl
  · dsimp only; (repeat' split) <;> rfl
@[simp] theorem classify_cfg (f : Frame) (sta : Option (BitVec 7)) (s : State) : (classify f sta s).1.cfg = s.cfg := by
  unfold classify
  split
  · rfl
  · dsimp only; (repeat' split) <;> rfl
@[simp] theorem classify_p (f : Frame) (sta : Option (BitVec 7)) (s : State) : (classify f sta s).1.p = s.p := by
  unfold classify
  split
  · rfl
  · dsimp only; (repeat' split) <;> rfl
@[simp] theorem classify_t (f : Frame) (sta : Option (BitVec 7)) (s : State) : (classify f sta s).1.t = s.t := by
  unfold classify
  split
  · rfl
  · dsimp only; (repeat' split) <;> rfl

@[simp] theorem extract_cd (f : Frame) (kind : OutcomeKind) (s : State) : (extract f kind s).1.cd = s.cd := by
  unfold extract
  split
  · cases f.expectedResponse <;> rfl
  · rfl
@[simp] theorem extract_seq (f : Frame) (kind : OutcomeKind) (s : State) : (extract f kind s).1.seq = s.seq := by
  unfold extract
  split
  · cases f.expectedResponse <;> rfl
  · rfl
@[simp] theorem extract_bte (f : Frame) (kind : OutcomeKind) (s : State) : (extract f kind s).1.bte = s.bte := by
  unfold extract
  split
  · cases f.expectedResponse <;> rfl
  · rfl
@[simp] theorem extract_port (f : Frame) (kind : OutcomeKind) (s : State) : (extract f kind s).1.port = s.port := by
  unfold extract
  split
  · cases f.expectedResponse <;> rfl
  · rfl
@[simp] theorem extract_decoded (f : Frame) (kind : OutcomeKind) (s : State) : (extract f kind s).1.decoded = s.decoded := by
  unfold extract
  split
  · cases f.expectedResponse <;> rfl
  · rfl
@[simp] theorem extract_freed (f : Frame) (kind : OutcomeKind) (s : State) : (extract f kind s).1.freed = s.freed := by
  unfold extract
  split
  · cases f.expectedResponse <;> rfl
  · rfl
@[simp] theorem extract_cfg (f : Frame) (kind : OutcomeKind) (s : State) : (extract f kind s).1.cfg = s.cfg := by
  unfold extract
  split
  · cases f.expectedResponse <;> rfl
  · rfl
@[simp] theorem extract_p (f : Frame) (kind : OutcomeKind) (s : State) : (extract f kind s).1.p = s.p := by
  unfold extract
  split
  · cases f.expectedResponse <;> rfl
  · rfl
@[simp] theorem extract_t (f : Frame) (kind : OutcomeKind) (s : State) : (extract f kind s).1.t = s.t := by
  unfold extract
  split
  · cases f.expectedResponse <;> rfl
  · rfl

/-! ## What a transaction leaves alone -/

@[simp] theorem startCommand_cd (f : Frame) (s : State) : (startCommand f s).cd = s.cd := rfl
@[simp] theorem startCommand_seq (f : Frame) (s : State) : (startCommand f s).seq = s.seq := rfl
@[simp] theorem startCommand_bte (f : Frame) (s : State) : (startCommand f s).bte = s.bte := rfl
@[simp] theorem startCommand_port (f : Frame) (s : State) : (startCommand f s).port = s.port := rfl
@[simp] theorem startCommand_decoded (f : Frame) (s : State) : (startCommand f s).decoded = s.decoded := rfl
@[simp] theorem startCommand_freed (f : Frame) (s : State) : (startCommand f s).freed = s.freed := rfl
@[simp] theorem startCommand_cfg (f : Frame) (s : State) : (startCommand f s).cfg = s.cfg := rfl

@[simp] theorem transmit_cd (f : Frame) (s : State) : (transmit f s).cd = s.cd := by simp [transmit]
@[simp] theorem transmit_seq (f : Frame) (s : State) : (transmit f s).seq = s.seq := by simp [transmit]
@[simp] theorem transmit_bte (f : Frame) (s : State) : (transmit f s).bte = s.bte := by simp [transmit]
@[simp] theorem transmit_port (f : Frame) (s : State) : (transmit f s).port = s.port := by simp [transmit]
@[simp] theorem transmit_decoded (f : Frame) (s : State) : (transmit f s).decoded = s.decoded := by simp [transmit]
@[simp] theorem transmit_freed (f : Frame) (s : State) : (transmit f s).freed = s.freed := by simp [transmit]
@[simp] theorem transmit_cfg (f : Frame) (s : State) : (transmit f s).cfg = s.cfg := by simp [transmit]

@[simp] theorem acknowledge_cd (s : State) : (acknowledge s).cd = s.cd := rfl
@[simp] theorem acknowledge_seq (s : State) : (acknowledge s).seq = s.seq := rfl
@[simp] theorem acknowledge_bte (s : State) : (acknowledge s).bte = s.bte := rfl
@[simp] theorem acknowledge_port (s : State) : (acknowledge s).port = s.port := rfl
@[simp] theorem acknowledge_decoded (s : State) : (acknowledge s).decoded = s.decoded := rfl
@[simp] theorem acknowledge_freed (s : State) : (acknowledge s).freed = s.freed := rfl
@[simp] theorem acknowledge_cfg (s : State) : (acknowledge s).cfg = s.cfg := rfl
@[simp] theorem acknowledge_p (s : State) : (acknowledge s).p = s.p := rfl
@[simp] theorem acknowledge_t_frame (s : State) : (acknowledge s).t.frame = s.t.frame := rfl
@[simp] theorem acknowledge_t_outcome (s : State) : (acknowledge s).t.outcome = s.t.outcome := rfl
@[simp] theorem acknowledge_t_n (s : State) : (acknowledge s).t.n = s.t.n := rfl

@[simp] theorem transact_cd (f : Frame) (s : State) : (transact f s).cd = s.cd := by simp [transact]
@[simp] theorem transact_seq (f : Frame) (s : State) : (transact f s).seq = s.seq := by simp [transact]
@[simp] theorem transact_bte (f : Frame) (s : State) : (transact f s).bte = s.bte := by simp [transact]
@[simp] theorem transact_port (f : Frame) (s : State) : (transact f s).port = s.port := by simp [transact]
@[simp] theorem transact_decoded (f : Frame) (s : State) : (transact f s).decoded = s.decoded := by simp [transact]
@[simp] theorem transact_freed (f : Frame) (s : State) : (transact f s).freed = s.freed := by simp [transact]
@[simp] theorem transact_cfg (f : Frame) (s : State) : (transact f s).cfg = s.cfg := by simp [transact]

end Sys2Proof.Machine
end

