-- ==== Sys2Proof/Laws/Transactions.lean ====
section
/-! SUPPORT. What a transaction does: the accesses it makes in order, the outcome it classifies, and what it does to
ENV's side and to the interface registers (40_transport.md R130 to R140). -/

namespace Sys2Proof.Machine

/-! ## The accesses of each part, in order -/

/-- The status poll (R131, R140): reads that show no command flag, then either one that shows one or none at all. -/
theorem pollStatus_trace (k : Nat) (s : State) :
    ∃ quiet : List (BitVec 7), (∀ v ∈ quiet, anyCommandFlag v = false) ∧
      (pollStatus k s).1.t.n = s.t.n + quiet.length ∧
      ((quiet.length = k ∧ (pollStatus k s).2 = none ∧
          (pollStatus k s).1.accesses = s.accesses ++ quiet.map .readSta) ∨
        (quiet.length < k ∧ ∃ v, anyCommandFlag v = true ∧ (pollStatus k s).2 = some v ∧
          (pollStatus k s).1.accesses = s.accesses ++ quiet.map .readSta ++ [.readSta v])) := by
  induction k generalizing s with
  | zero => exact ⟨[], by simp, rfl, .inl ⟨rfl, rfl, by simp [pollStatus]⟩⟩
  | succ k ih =>
    unfold pollStatus
    dsimp only
    by_cases hv : anyCommandFlag (readSta s).2 = true
    · rw [if_pos hv]
      exact ⟨[], by simp, rfl, .inr ⟨by simp, (readSta s).2, hv, rfl, by simp⟩⟩
    · rw [if_neg hv]
      have hacc : ∀ u : State, u = { (readSta s).1 with t := { (readSta s).1.t with n := (readSta s).1.t.n + 1 } } →
          u.accesses = s.accesses ++ [.readSta (readSta s).2] := by
        rintro u rfl
        exact accesses_of_access rfl
      obtain ⟨quiet, hq, hn, hcases⟩ := ih { (readSta s).1 with t := { (readSta s).1.t with n := (readSta s).1.t.n + 1 } }
      refine ⟨(readSta s).2 :: quiet, ?_, ?_, ?_⟩
      · intro v hmem
        rcases List.mem_cons.1 hmem with rfl | hmem
        · simpa using hv
        · exact hq v hmem
      · rw [hn]; simp; omega
      · rw [hacc _ rfl] at hcases
        rcases hcases with ⟨h1, h2, h3⟩ | ⟨h1, v, h2, h3, h4⟩
        · exact .inl ⟨by simp [h1], h2, by rw [h3]; simp⟩
        · exact .inr ⟨by simp [h1], v, h2, h3, by rw [h4]; simp⟩

/-- The extraction (R135). -/
theorem extract_trace (f : Frame) (kind : OutcomeKind) (s : State) :
    ((kind = .accepted ∨ kind = .rejected) ∧ ∃ regs,
        (extract f kind s).1.accesses = s.accesses ++ respReads f.expectedResponse regs ∧
        (extract f kind s).2 = responseWords f.expectedResponse regs) ∨
      (¬(kind = .accepted ∨ kind = .rejected) ∧ (extract f kind s).1 = s ∧ (extract f kind s).2 = Words4.zero) := by
  by_cases hk : kind = .accepted ∨ kind = .rejected
  · refine .inl ⟨hk, ?_⟩
    unfold extract
    rw [if_pos hk]
    cases f.expectedResponse with
    | none => exact ⟨Words4.zero, by simp [respReads], rfl⟩
    | short => exact ⟨⟨(readResp 0 s).2, 0, 0, 0⟩, by simp [respReads], rfl⟩
    | long =>
      refine ⟨⟨(readResp 0 s).2, (readResp 1 (readResp 0 s).1).2, (readResp 2 (readResp 1 (readResp 0 s).1).1).2,
        (readResp 3 (readResp 2 (readResp 1 (readResp 0 s).1).1).1).2⟩, ?_, rfl⟩
      simp [respReads]
    | reserved => exact ⟨Words4.zero, by simp [respReads], rfl⟩
  · refine .inr ⟨hk, ?_⟩
    unfold extract
    rw [if_neg hk]
    exact ⟨rfl, rfl⟩

@[simp] theorem quietReads_append (a b : List Access) : quietReads (a ++ b) = quietReads a + quietReads b := by
  simp [quietReads]

theorem quietReads_quiet {quiet : List (BitVec 7)} (hq : ∀ v ∈ quiet, anyCommandFlag v = false) :
    quietReads (quiet.map .readSta) = quiet.length := by
  unfold quietReads
  rw [List.countP_eq_length.2]
  · simp
  · intro a ha
    obtain ⟨v, hv, rfl⟩ := List.mem_map.1 ha
    simp [hq v hv]

@[simp] theorem quietReads_respReads (shape : Shape) (regs : Words4) : quietReads (respReads shape regs) = 0 := by
  cases shape <;> rfl

/-- After the read that ended the poll: the classification and the extraction (R132 to R135). -/
theorem settle_trace (f : Frame) (v : BitVec 7) (u : State) (quiet : List (BitVec 7))
    (hq : ∀ v ∈ quiet, anyCommandFlag v = false) (hn : quiet.length < u.cfg.nCmd) (hv : anyCommandFlag v = true) :
    ∃ rest, Answered u.cfg f (quiet.map .readSta ++ .readSta v :: rest)
        ⟨(classify f (some v) u).2, (extract f (classify f (some v) u).2 (classify f (some v) u).1).2⟩ ∧
      quietReads rest = 0 ∧
      (extract f (classify f (some v) u).2 (classify f (some v) u).1).1.accesses = u.accesses ++ rest := by
  unfold classify
  dsimp only
  by_cases hr : staCmdRend v = true
  · rw [if_pos hr]
    generalize hk : (if echoAccept u.cfg f.expectedResponse f.index (readRespCmd u).2 then OutcomeKind.accepted
      else .rejected) = kind
    have hkind : kind = .accepted ∨ kind = .rejected := by rw [← hk]; split <;> simp
    rcases extract_trace f kind (readRespCmd u).1 with ⟨-, regs, hacc, hwords⟩ | ⟨hno, -⟩
    · refine ⟨.readRespCmd (readRespCmd u).2 :: respReads f.expectedResponse regs, ?_, ?_, ?_⟩
      · have := Answered.response (f := f) quiet hq hn v hr (readRespCmd u).2 regs
        rw [hk] at this
        simpa [hwords] using this
      · show quietReads ([Access.readRespCmd (readRespCmd u).2] ++ respReads f.expectedResponse regs) = 0
        rw [quietReads_append, quietReads_respReads]
        rfl
      · rw [hacc]; simp
    · exact absurd hkind hno
  · have hr' : staCmdRend v = false := by simpa using hr
    rw [if_neg hr]
    by_cases hc : staCCrcFail v = true
    · rw [if_pos hc]
      by_cases hi : f.crcPolicy = .ignore
      · rw [if_pos hi]
        rcases extract_trace f .accepted u with ⟨-, regs, hacc, hwords⟩ | ⟨hno, -⟩
        · refine ⟨respReads f.expectedResponse regs, ?_, by simp, hacc⟩
          simpa [hwords] using Answered.crcIgnored quiet hq hn v hr' hc hi regs
        · exact absurd (.inl rfl) hno
      · rw [if_neg hi]
        have hreq : f.crcPolicy = .require := by cases h : f.crcPolicy <;> simp_all
        exact ⟨[], .crcFailed quiet hq hn v hr' hc hreq, rfl, by simp [extract]⟩
    · have hc' : staCCrcFail v = false := by simpa using hc
      rw [if_neg hc]
      by_cases ht : staCTimeout v = true
      · rw [if_pos ht]
        exact ⟨[], .timedOut quiet hq hn v hr' hc' ht, rfl, by simp [extract]⟩
      · have ht' : staCTimeout v = false := by simpa using ht
        rw [if_neg ht]
        have hs : staCmdSent v = true := by simpa [anyCommandFlag, hr', hc', ht'] using hv
        exact ⟨[], .sent quiet hq hn v hr' hc' ht' hs, rfl, by simp [extract]⟩

/-- SENDCMD past its checks (R130): the two writes, then an answer as `Answered` says; `T.n` counts the quiet reads. -/
theorem transmit_trace (f : Frame) (s : State) :
    ∃ answer, Answered s.cfg f answer (transmit f s).t.outcome ∧ (transmit f s).t.n = quietReads answer ∧
      (transmit f s).accesses = s.accesses ++ [.writeArg f.argument, .writeCmd (commandWord f)] ++ answer := by
  have hstart : (startCommand f s).accesses = s.accesses ++ [.writeArg f.argument, .writeCmd (commandWord f)] := by
    simp [startCommand, State.accesses, Event.access?]
  have hzero : (startCommand f s).t.n = 0 := rfl
  obtain ⟨quiet, hq, hcount, hcases⟩ := pollStatus_trace (startCommand f s).cfg.nCmd (startCommand f s)
  rw [hstart] at hcases
  rw [hzero, Nat.zero_add] at hcount
  unfold transmit
  dsimp only
  rcases hcases with ⟨hn, hnone, hacc⟩ | ⟨hn, v, hv, hsome, hacc⟩
  · rw [hnone]
    exact ⟨_, .expired quiet hq (by simpa using hn), hcount.trans (quietReads_quiet hq).symm,
      (accesses_of_log rfl).trans hacc⟩
  · rw [hsome]
    have hcfg : (pollStatus (startCommand f s).cfg.nCmd (startCommand f s)).1.cfg = s.cfg := by simp
    generalize (pollStatus (startCommand f s).cfg.nCmd (startCommand f s)).1 = u at hacc hcfg hcount
    obtain ⟨rest, hans, hquiet, hrest⟩ := settle_trace f v u quiet hq (by rw [hcfg]; simpa using hn) hv
    rw [hcfg] at hans
    have hall : (extract f (classify f (some v) u).2 (classify f (some v) u).1).1.accesses =
        s.accesses ++ [.writeArg f.argument, .writeCmd (commandWord f)] ++ (quiet.map .readSta ++ .readSta v :: rest) := by
      rw [hrest, hacc]; simp
    refine ⟨_, hans, ?_, (accesses_of_log rfl).trans hall⟩
    have hone : quietReads (Access.readSta v :: rest) = 0 := by
      rw [show Access.readSta v :: rest = [Access.readSta v] ++ rest from rfl, quietReads_append, hquiet]
      simp [quietReads, hv]
    show (extract f (classify f (some v) u).2 (classify f (some v) u).1).1.t.n = _
    rw [extract_t, classify_t, hcount, quietReads_append, quietReads_quiet hq, hone, Nat.add_zero]

/-- TXN past its checks (R139): as SENDCMD, then the acknowledgment. -/
theorem transact_trace (f : Frame) (s : State) :
    ∃ answer, Answered s.cfg f answer (transact f s).t.outcome ∧ (transact f s).t.n = quietReads answer ∧
      (transact f s).accesses =
        s.accesses ++ [.writeArg f.argument, .writeCmd (commandWord f)] ++ answer ++ [.writeIcr 0b01111] := by
  obtain ⟨answer, hans, hn, hacc⟩ := transmit_trace f s
  exact ⟨answer, hans, hn, (accesses_of_access rfl).trans (by rw [hacc])⟩

/-! ## The registers after a transaction -/

@[simp] theorem startCommand_p (f : Frame) (s : State) :
    (startCommand f s).p = { s.p with arg := f.argument, cmd := commandWord f } := rfl

@[simp] theorem transmit_p (f : Frame) (s : State) :
    (transmit f s).p = { s.p with arg := f.argument, cmd := commandWord f } := by simp [transmit]

@[simp] theorem transact_p (f : Frame) (s : State) :
    (transact f s).p = { s.p with arg := f.argument, cmd := commandWord f } := by simp [transact]

@[simp] theorem transmit_frame (f : Frame) (s : State) : (transmit f s).t.frame = f := by
  simp [transmit]; rfl

@[simp] theorem transmit_ackPending (f : Frame) (s : State) : (transmit f s).t.ackPending = true := by
  simp [transmit]; rfl

@[simp] theorem transact_frame (f : Frame) (s : State) : (transact f s).t.frame = f := by simp [transact]

@[simp] theorem acknowledge_ackPending (s : State) : (acknowledge s).t.ackPending = false := rfl

@[simp] theorem transact_ackPending (f : Frame) (s : State) : (transact f s).t.ackPending = false := rfl

@[simp] theorem acknowledge_accesses (s : State) : (acknowledge s).accesses = s.accesses ++ [.writeIcr 0b01111] :=
  accesses_of_access rfl

/-! ## ENV's side -/

theorem Env.armed_cleared (e : Env) : (e.move.cleared 0b01111).armed = 0 := by
  rw [Env.cleared_armed]
  apply BitVec.eq_of_getLsbD_eq
  intro i hi
  interval_cases i <;> simp

@[simp] theorem acknowledge_env (s : State) : (acknowledge s).env = s.env.move.cleared 0b01111 := rfl

/-- After an acknowledgment ENV may raise no command flag (R76). -/
@[simp] theorem transact_armed (f : Frame) (s : State) : (transact f s).env.armed = 0 :=
  Env.armed_cleared (transmit f s).env

theorem pollStatus_clearLaw (k : Nat) {s : State} (h : s.env.ClearLaw) : (pollStatus k s).1.env.ClearLaw := by
  induction k generalizing s with
  | zero => exact h
  | succ k ih =>
    unfold pollStatus
    dsimp only
    split
    · exact h.move.seen
    · exact ih (s := { (readSta s).1 with t := { (readSta s).1.t with n := (readSta s).1.t.n + 1 } }) h.move.seen

theorem classify_clearLaw (f : Frame) (sta : Option (BitVec 7)) {s : State} (h : s.env.ClearLaw) :
    (classify f sta s).1.env.ClearLaw := by
  unfold classify
  split
  · exact h
  · dsimp only
    split
    · exact h.move
    · split
      · exact h
      · split <;> exact h

theorem extract_clearLaw (f : Frame) (kind : OutcomeKind) {s : State} (h : s.env.ClearLaw) :
    (extract f kind s).1.env.ClearLaw := by
  unfold extract
  split
  · cases f.expectedResponse with
    | none => exact h
    | short => exact h.move
    | long => exact h.move.move.move.move
    | reserved => exact h
  · exact h

theorem transmit_clearLaw (f : Frame) {s : State} (h : s.env.ClearLaw) : (transmit f s).env.ClearLaw := by
  have h0 : (startCommand f s).env.ClearLaw := by
    have : (startCommand f s).env = s.env.move.move.started := by
      have hb : (commandWord f).getLsbD 8 = true := by
        simp only [commandWord, BitVec.getLsbD_append]; simp
      simp [startCommand, -BitVec.getLsbD_eq_getElem, hb]
    rw [this]
    exact h.move.move.started
  exact extract_clearLaw _ _ (classify_clearLaw _ _ (pollStatus_clearLaw _ h0))

theorem transact_clearLaw (f : Frame) {s : State} (h : s.env.ClearLaw) : (transact f s).env.ClearLaw :=
  (transmit_clearLaw f h).move.cleared _

/-- The words of an outcome that is neither Accepted nor Rejected are 0 (R135). -/
theorem Answered.words {c : Config} {f : Frame} {answer : List Access} {o : ResponseOutcome}
    (h : Answered c f answer o) (ha : o.kind ≠ .accepted) (hr : o.kind ≠ .rejected) : o.words = Words4.zero := by
  cases h with
  | response quiet hq hn v hv echo regs => revert ha hr; dsimp only; split <;> simp
  | crcIgnored => exact absurd rfl ha
  | expired => rfl
  | crcFailed => rfl
  | timedOut => rfl
  | sent => rfl

/-- The latches after a transaction keep their invariant (R26, R27). -/
theorem transact_t_inv (f : Frame) (s : State) (hf : f.expectedResponse ≠ .reserved) : (transact f s).t.Inv := by
  obtain ⟨answer, hans, -, -⟩ := transact_trace f s
  exact ⟨by simpa using hf, fun ha hr => hans.words ha hr⟩

theorem transmit_t_inv (f : Frame) (s : State) (hf : f.expectedResponse ≠ .reserved) : (transmit f s).t.Inv := by
  obtain ⟨answer, hans, -, -⟩ := transmit_trace f s
  exact ⟨by simpa using hf, fun ha hr => hans.words ha hr⟩

theorem commandWord_shape (f : Frame) (hf : f.expectedResponse ≠ .reserved) :
    (commandWord f).extractLsb' 6 2 ≠ 3#2 := by
  have h : (commandWord f).extractLsb' 6 2 = f.expectedResponse.code := by
    unfold commandWord
    apply BitVec.eq_of_getLsbD_eq
    intro i hi
    simp only [BitVec.getLsbD_extractLsb', BitVec.getLsbD_append]
    interval_cases i <;> simp
  rw [h]
  cases hs : f.expectedResponse <;> simp_all [Shape.code]

theorem commandWord_start (f : Frame) : (commandWord f).getLsbD 8 = true := by
  simp only [commandWord, BitVec.getLsbD_append]; simp

theorem transact_p_inv (f : Frame) {s : State} (hf : f.expectedResponse ≠ .reserved) (h : s.p.Inv) :
    (transact f s).p.Inv := by
  rw [transact_p]
  exact ⟨commandWord_shape f hf, .inr (commandWord_start f), h.dlen, h.dctrl⟩

end Sys2Proof.Machine
end

