-- ==== Sys2Proof/Laws/Replies.lean ====
section
/-! SUPPORT. A transaction that ENV answers by a scripted reply: its outcome is the reply's, and ENV's side is as
before. -/

namespace Sys2Proof.Machine

/-- No command flag is latched. -/
def Env.NoCommandFlag (e : Env) : Prop := e.latched.extractLsb' 0 4 = 0#4

theorem Env.noCommandFlag_iff (e : Env) : e.NoCommandFlag ↔ ∀ i, i < 4 → e.latched.getLsbD i = false := by
  unfold Env.NoCommandFlag
  constructor
  · intro h i hi
    have := congrArg (fun b => b.getLsbD i) h
    simp only [BitVec.getLsbD_extractLsb'] at this
    simpa [hi] using this
  · intro h
    apply BitVec.eq_of_getLsbD_eq
    intro i hi
    simp only [BitVec.getLsbD_extractLsb']
    simp [hi, h i hi]

theorem Env.quiet_move {e : Env} {rest : List EnvMove} (h : e.script = .quiet :: rest) :
    e.move.script = rest ∧ e.move.latched = e.latched ∧ e.move.armed = e.armed ∧ e.move.stable = e.stable ∧
      e.move.rx = e.rx ∧ e.move.tx = e.tx ∧
      (e.stable = true → e.move.respCmd = e.respCmd ∧ e.move.resp = e.resp) := by
  rw [Env.move_scripted h]
  refine ⟨rfl, ?_, rfl, rfl, ?_, rfl, ?_⟩
  · simp [Env.apply, EnvMove.quiet]
  · simp [Env.apply, EnvMove.quiet]
  · intro hs; simp [Env.apply, hs]

/-- The parts of ENV's side that a quiet stretch keeps. -/
structure Env.Kept (e e' : Env) (rest : List EnvMove) : Prop where
  script : e'.script = rest
  latched : e'.latched = e.latched
  armed : e'.armed = e.armed
  stable : e'.stable = e.stable
  rx : e'.rx = e.rx
  tx : e'.tx = e.tx
  resp : e.stable = true → e'.respCmd = e.respCmd ∧ e'.resp = e.resp

theorem Env.kept_quiet {e : Env} {rest : List EnvMove} (h : e.script = .quiet :: rest) : e.Kept e.move rest := by
  obtain ⟨h1, h2, h3, h4, h5, h6, h7⟩ := Env.quiet_move h
  exact ⟨h1, h2, h3, h4, h5, h6, h7⟩

theorem Env.Kept.trans {a b c : Env} {r r' : List EnvMove} (h : a.Kept b r) (h' : b.Kept c r') : a.Kept c r' where
  script := h'.script
  latched := h'.latched.trans h.latched
  armed := h'.armed.trans h.armed
  stable := h'.stable.trans h.stable
  rx := h'.rx.trans h.rx
  tx := h'.tx.trans h.tx
  resp := fun hs =>
    have hb := h'.resp (h.stable.trans hs)
    ⟨hb.1.trans (h.resp hs).1, hb.2.trans (h.resp hs).2⟩

/-- Sending the command, with ENV quiet. -/
theorem startCommand_quiet (f : Frame) {s : State} {rest : List EnvMove}
    (h : s.env.script = .quiet :: .quiet :: rest) :
    (startCommand f s).env.script = rest ∧ (startCommand f s).env.latched = s.env.latched ∧
      (startCommand f s).env.armed = 0b1111#4 ∧ (startCommand f s).env.stable = false ∧
      (startCommand f s).env.rx = s.env.rx ∧ (startCommand f s).env.tx = s.env.tx := by
  have he : (startCommand f s).env = s.env.move.move.started := by
    simp [startCommand, -BitVec.getLsbD_eq_getElem, commandWord_start]
  have k1 := Env.kept_quiet h
  have k := k1.trans (Env.kept_quiet k1.script)
  rw [he]
  exact ⟨k.script, k.latched, rfl, rfl, k.rx, k.tx⟩

/-- The extraction while the response registers are held and ENV is quiet (R77, R135). -/
theorem extract_quiet (f : Frame) (kind : OutcomeKind) (hk : kind = .accepted ∨ kind = .rejected) {s : State}
    {rest : List EnvMove} (hs : s.env.stable = true)
    (h : s.env.script = List.replicate f.expectedResponse.registers .quiet ++ rest) :
    (extract f kind s).2 = responseWords f.expectedResponse s.env.resp ∧
      s.env.Kept (extract f kind s).1.env rest := by
  unfold extract
  rw [if_pos hk]
  cases hf : f.expectedResponse with
  | none =>
    rw [hf] at h
    exact ⟨rfl, ⟨h, rfl, rfl, rfl, rfl, rfl, fun _ => ⟨rfl, rfl⟩⟩⟩
  | reserved =>
    rw [hf] at h
    exact ⟨rfl, ⟨h, rfl, rfl, rfl, rfl, rfl, fun _ => ⟨rfl, rfl⟩⟩⟩
  | short =>
    rw [hf] at h
    have k := Env.kept_quiet (show s.env.script = .quiet :: rest from h)
    exact ⟨by simp [responseWords, Env.respAt, (k.resp hs).2], k⟩
  | long =>
    rw [hf] at h
    have k1 := Env.kept_quiet (show s.env.script = .quiet :: .quiet :: .quiet :: .quiet :: rest from h)
    have k2 := k1.trans (Env.kept_quiet k1.script)
    have k3 := k2.trans (Env.kept_quiet k2.script)
    have k4 := k3.trans (Env.kept_quiet k3.script)
    refine ⟨?_, k4⟩
    simp [responseWords, Env.respAt, (k1.resp hs).2, (k2.resp hs).2, (k3.resp hs).2, (k4.resp hs).2]

/-- What a reply leaves of ENV's side after its transaction. -/
structure Env.AfterReply (e e' : Env) (rest : List EnvMove) : Prop where
  script : e'.script = rest
  noFlag : e'.NoCommandFlag
  dataEnd : e'.latched.getLsbD 4 = e.latched.getLsbD 4
  rx : e'.rx = e.rx
  tx : e'.tx = e.tx

theorem acknowledge_afterReply {e : Env} {s : State} {rest : List EnvMove} (h : s.env.script = .quiet :: rest)
    (hd : s.env.latched.getLsbD 4 = e.latched.getLsbD 4) (hrx : s.env.rx = e.rx) (htx : s.env.tx = e.tx) :
    e.AfterReply (acknowledge s).env rest := by
  have k := Env.kept_quiet h
  refine ⟨k.script, ?_, ?_, k.rx.trans hrx, k.tx.trans htx⟩
  · rw [Env.noCommandFlag_iff]
    intro i hi
    rw [acknowledge_env, Env.cleared_latched, BitVec.getLsbD_and]
    interval_cases i <;> simp
  · rw [acknowledge_env, Env.cleared_latched, BitVec.getLsbD_and, k.latched, hd]
    simp

/-- One read of `P.STA` at which a reply shows itself. -/
theorem pollStatus_reply {k : Nat} {u : State} (hv : anyCommandFlag u.env.move.sta = true) :
    pollStatus (k + 1) u = ((readSta u).1, some u.env.move.sta) := by
  unfold pollStatus
  dsimp only
  rw [readSta_value, if_pos hv]

theorem transact_eq (f : Frame) (s : State) : transact f s = acknowledge (transmit f s) := rfl

/-- A status poll in which ENV stays quiet expires (R140). -/
theorem pollStatus_silent (k : Nat) {s : State} {rest : List EnvMove}
    (h : s.env.script = List.replicate k .quiet ++ rest) (hq : s.env.NoCommandFlag) :
    (pollStatus k s).2 = none ∧ (pollStatus k s).1.env.script = rest ∧
      (pollStatus k s).1.env.latched = s.env.latched ∧ (pollStatus k s).1.env.rx = s.env.rx ∧
      (pollStatus k s).1.env.tx = s.env.tx := by
  induction k generalizing s with
  | zero => exact ⟨rfl, h, rfl, rfl, rfl⟩
  | succ k ih =>
    have hm := Env.kept_quiet (show s.env.script = .quiet :: (List.replicate k .quiet ++ rest) from h)
    have hflag := (Env.noCommandFlag_iff _).1 hq
    have hv : anyCommandFlag (readSta s).2 = false := by
      rw [readSta_value]
      unfold anyCommandFlag
      rw [Env.sta_cmdSent, Env.sta_cmdRend, Env.sta_cTimeout, Env.sta_cCrcFail, hm.latched]
      simp [-BitVec.getLsbD_eq_getElem, hflag]
    unfold pollStatus
    dsimp only
    rw [hv, if_neg Bool.false_ne_true]
    obtain ⟨h1, h2, h3, h4, h5⟩ := ih (s := { (readSta s).1 with t := { (readSta s).1.t with n := (readSta s).1.t.n + 1 } })
      hm.script (by
        show s.env.move.latched.extractLsb' 0 4 = 0#4
        rw [hm.latched]
        exact hq)
    exact ⟨h1, h2, h3.trans hm.latched, h4.trans hm.rx, h5.trans hm.tx⟩

/-- A transaction answered by a scripted reply (R139). -/
theorem transact_reply (f : Frame) (r : Reply) {s : State} {rest : List EnvMove}
    (h : s.env.script = r.moves s.cfg f ++ rest) (hq : s.env.NoCommandFlag) (hn : 1 ≤ s.cfg.nCmd) :
    (transact f s).t.outcome = r.outcome s.cfg f ∧ s.env.AfterReply (transact f s).env rest := by
  by_cases hsilent : r = .silent
  · subst hsilent
    obtain ⟨h1, h2, -, -, h5, h6⟩ := startCommand_quiet f (s := s)
      (rest := List.replicate s.cfg.nCmd .quiet ++ (.quiet :: rest)) (by rw [h]; simp [Reply.moves])
    obtain ⟨p1, p2, p3, p4, p5⟩ := pollStatus_silent s.cfg.nCmd h1 (by
      show (startCommand f s).env.latched.extractLsb' 0 4 = 0#4
      rw [h2]
      exact hq)
    rw [transact_eq]
    unfold transmit
    dsimp only
    rw [show (startCommand f s).cfg = s.cfg from rfl, p1]
    exact ⟨rfl, acknowledge_afterReply p2 (congrArg (fun b => b.getLsbD 4) (p3.trans h2)) (p4.trans h5) (p5.trans h6)⟩
  obtain ⟨k, hk⟩ : ∃ k, s.cfg.nCmd = k + 1 := ⟨s.cfg.nCmd - 1, by omega⟩
  rw [Env.noCommandFlag_iff] at hq
  obtain ⟨h1, h2, h3, h4, h5, h6⟩ := startCommand_quiet f (s := s)
    (rest := (r.moves s.cfg f).drop 2 ++ rest) (by rw [h]; rfl)
  have hcfg : (startCommand f s).cfg = s.cfg := rfl
  have may : (startCommand f s).env.mayRaise = 0b11111 := by unfold Env.mayRaise; rw [h3]; rfl
  -- The bits latched at the first read of `P.STA`, whatever the reply raises.
  have bits : ∀ (m : EnvMove) (tail : List EnvMove), (startCommand f s).env.script = m :: tail →
      ∀ i, i < 4 → (startCommand f s).env.move.latched.getLsbD i = m.raise.getLsbD i := by
    intro m tail hm i hi
    rw [Env.move_scripted hm]
    show ((startCommand f s).env.latched ||| (m.raise &&& (startCommand f s).env.mayRaise)).getLsbD i = _
    rw [may, h2, BitVec.getLsbD_or, BitVec.getLsbD_and, hq i hi]
    interval_cases i <;> simp
  have bit4 : ∀ (m : EnvMove) (tail : List EnvMove), (startCommand f s).env.script = m :: tail →
      m.raise.getLsbD 4 = false →
      (startCommand f s).env.move.latched.getLsbD 4 = s.env.latched.getLsbD 4 := by
    intro m tail hm h4
    rw [Env.move_scripted hm]
    show ((startCommand f s).env.latched ||| (m.raise &&& (startCommand f s).env.mayRaise)).getLsbD 4 = _
    rw [may, h2, BitVec.getLsbD_or, BitVec.getLsbD_and, h4]
    simp
  have rxtx : ∀ (m : EnvMove) (tail : List EnvMove), (startCommand f s).env.script = m :: tail →
      m.place = [] → m.take = 0 →
      (startCommand f s).env.move.rx = s.env.rx ∧ (startCommand f s).env.move.tx = s.env.tx := by
    intro m tail hm hp ht
    rw [Env.move_scripted hm]
    exact ⟨by simp [Env.apply, hp, h5], by simp [Env.apply, ht, h6]⟩
  have flag : ∀ (m : EnvMove) (tail : List EnvMove), (startCommand f s).env.script = m :: tail → ∀ i, i < 4 →
      m.raise.getLsbD i = true → anyCommandFlag (startCommand f s).env.move.sta = true := by
    intro m tail hm i hi hr
    have := bits m tail hm i hi
    rw [hr] at this
    unfold anyCommandFlag
    rw [Env.sta_cmdSent, Env.sta_cmdRend, Env.sta_cTimeout, Env.sta_cCrcFail]
    interval_cases i <;> simp_all
  rw [transact_eq]
  unfold transmit
  dsimp only
  rw [hcfg, hk]
  -- The status poll ends at its first read; what is left is the classification and the extraction.
  cases r with
  | silent => exact absurd rfl hsilent
  | sent =>
    have hm : (startCommand f s).env.script = { EnvMove.quiet with raise := 0b00001 } :: (.quiet :: rest) := h1
    rw [pollStatus_reply (flag _ _ hm 0 (by omega) rfl)]
    have b1 := bits _ _ hm 1 (by omega)
    have b2 := bits _ _ hm 2 (by omega)
    have b3 := bits _ _ hm 3 (by omega)
    have hx := rxtx _ _ hm rfl rfl
    have hd := bit4 _ _ hm rfl
    simp only [classify, Env.sta_cmdRend, Env.sta_cCrcFail, Env.sta_cTimeout, b1, b2, b3]
    refine ⟨rfl, acknowledge_afterReply ?_ hd hx.1 hx.2⟩
    show (startCommand f s).env.move.script = _
    rw [Env.move_scripted hm]; rfl
  | timeout =>
    have hm : (startCommand f s).env.script = { EnvMove.quiet with raise := 0b00100 } :: (.quiet :: rest) := h1
    rw [pollStatus_reply (flag _ _ hm 2 (by omega) rfl)]
    have b1 := bits _ _ hm 1 (by omega)
    have b2 := bits _ _ hm 2 (by omega)
    have b3 := bits _ _ hm 3 (by omega)
    have hx := rxtx _ _ hm rfl rfl
    have hd := bit4 _ _ hm rfl
    simp only [classify, Env.sta_cmdRend, Env.sta_cCrcFail, Env.sta_cTimeout, b1, b2, b3]
    refine ⟨rfl, acknowledge_afterReply ?_ hd hx.1 hx.2⟩
    show (startCommand f s).env.move.script = _
    rw [Env.move_scripted hm]; rfl
  | crcfail regs =>
    obtain ⟨tail, ht⟩ : ∃ tail, tail = List.replicate
        (if f.crcPolicy = .ignore then f.expectedResponse.registers else 0) EnvMove.quiet ++ (.quiet :: rest) := ⟨_, rfl⟩
    have hm : (startCommand f s).env.script =
        { EnvMove.quiet with raise := 0b01000, resp := regs } :: tail := by
      rw [h1, ht]; simp [Reply.moves]
    rw [pollStatus_reply (flag _ _ hm 3 (by omega) (show (8#5).getLsbD 3 = true by decide))]
    have b1 := (bits _ _ hm 1 (by omega)).trans (show (8#5).getLsbD 1 = false by decide)
    have b3 := (bits _ _ hm 3 (by omega)).trans (show (8#5).getLsbD 3 = true by decide)
    have hx := rxtx _ _ hm rfl rfl
    have hd := bit4 _ _ hm (show (8#5).getLsbD 4 = false by decide)
    have hscript : (readSta (startCommand f s)).1.env.script = tail := by
      show (startCommand f s).env.move.script = _
      rw [Env.move_scripted hm]; rfl
    have hstable : (readSta (startCommand f s)).1.env.stable = true := by
      show ((startCommand f s).env.move.stable || (startCommand f s).env.move.latched.getLsbD 1 ||
        (startCommand f s).env.move.latched.getLsbD 3) = true
      rw [b3]; simp
    have hresp : (readSta (startCommand f s)).1.env.resp = regs := by
      show (startCommand f s).env.move.resp = regs
      rw [Env.move_scripted hm]
      show (if (startCommand f s).env.stable then _ else regs) = regs
      rw [h4]; rfl
    simp only [classify, Env.sta_cmdRend, Env.sta_cCrcFail, b1, b3, Bool.false_eq_true, if_false, if_true]
    by_cases hi : f.crcPolicy = .ignore
    · rw [if_pos hi] at ht
      have hk := extract_quiet f .accepted (.inl rfl) hstable (hscript.trans ht)
      simp only [Reply.outcome, hi, if_true]
      refine ⟨?_, acknowledge_afterReply hk.2.script ?_ (hk.2.rx.trans hx.1) (hk.2.tx.trans hx.2)⟩
      · show (⟨_, _⟩ : ResponseOutcome) = _
        have := hk.1
        rw [hresp] at this
        exact congrArg (ResponseOutcome.mk OutcomeKind.accepted) this
      · rw [hk.2.latched]; exact hd
    · rw [if_neg hi] at ht
      simp only [Reply.outcome, hi, if_false]
      refine ⟨rfl, acknowledge_afterReply (hscript.trans ht) hd hx.1 hx.2⟩
  | resp echo regs =>
    obtain ⟨tail, ht⟩ : ∃ tail, tail =
        List.replicate f.expectedResponse.registers EnvMove.quiet ++ (.quiet :: rest) := ⟨_, rfl⟩
    have hm : (startCommand f s).env.script =
        { EnvMove.quiet with raise := 0b00010, respCmd := echo, resp := regs } :: .quiet :: tail := by
      rw [h1, ht]; simp [Reply.moves, Nat.add_comm 1, List.replicate_succ]
    rw [pollStatus_reply (flag _ _ hm 1 (by omega) (show (2#5).getLsbD 1 = true by decide))]
    have b1 := (bits _ _ hm 1 (by omega)).trans (show (2#5).getLsbD 1 = true by decide)
    have hx := rxtx _ _ hm rfl rfl
    have hd := bit4 _ _ hm (show (2#5).getLsbD 4 = false by decide)
    have hscript : (readSta (startCommand f s)).1.env.script = .quiet :: tail := by
      show (startCommand f s).env.move.script = _
      rw [Env.move_scripted hm]; rfl
    have hstable : (readSta (startCommand f s)).1.env.stable = true := by
      show ((startCommand f s).env.move.stable || (startCommand f s).env.move.latched.getLsbD 1 ||
        (startCommand f s).env.move.latched.getLsbD 3) = true
      rw [b1]; simp
    have hresp : (readSta (startCommand f s)).1.env.resp = regs ∧ (readSta (startCommand f s)).1.env.respCmd = echo := by
      constructor
      · show (startCommand f s).env.move.resp = regs
        rw [Env.move_scripted hm]
        show (if (startCommand f s).env.stable then _ else regs) = regs
        rw [h4]; rfl
      · show (startCommand f s).env.move.respCmd = echo
        rw [Env.move_scripted hm]
        show (if (startCommand f s).env.stable then _ else echo) = echo
        rw [h4]; rfl
    have k := Env.kept_quiet hscript
    have hecho : (readRespCmd (readSta (startCommand f s)).1).2 = echo := by
      rw [readRespCmd_value, (k.resp hstable).1, hresp.2]
    have hstable' : (readRespCmd (readSta (startCommand f s)).1).1.env.stable = true := k.stable.trans hstable
    have hresp' : (readRespCmd (readSta (startCommand f s)).1).1.env.resp = regs := (k.resp hstable).2.trans hresp.1
    simp only [classify, Env.sta_cmdRend, b1, if_true]
    obtain ⟨kind, hkind⟩ : ∃ kind, kind = if echoAccept s.cfg f.expectedResponse f.index echo then OutcomeKind.accepted
      else OutcomeKind.rejected := ⟨_, rfl⟩
    have hk' : kind = .accepted ∨ kind = .rejected := by rw [hkind]; split <;> simp
    have hk := extract_quiet f kind hk' (s := (readRespCmd (readSta (startCommand f s)).1).1) hstable' (k.script.trans ht)
    have hfull := k.trans hk.2
    have hcls : (if echoAccept (readSta (startCommand f s)).1.cfg f.expectedResponse f.index
        (readRespCmd (readSta (startCommand f s)).1).2 = true then OutcomeKind.accepted else OutcomeKind.rejected) = kind := by
      rw [hecho, hkind]; rfl
    refine ⟨?_, acknowledge_afterReply (s := { (extract f _ _).1 with t := _ }) ?_ ?_ ?_ ?_⟩
    · show (⟨_, _⟩ : ResponseOutcome) = _
      have hw := hk.1
      rw [hresp'] at hw
      simp only [Reply.outcome]
      rw [← hkind, ← hw]
      exact congrArg (fun x => (⟨x, (extract f x (readRespCmd (readSta (startCommand f s)).1).1).2⟩ : ResponseOutcome)) hcls
    · exact (congrArg (fun x => (extract f x (readRespCmd (readSta (startCommand f s)).1).1).1.env.script) hcls).trans hfull.script
    · exact (congrArg (fun x => (extract f x (readRespCmd (readSta (startCommand f s)).1).1).1.env.latched.getLsbD 4) hcls).trans
        ((congrArg (fun b => b.getLsbD 4) hfull.latched).trans hd)
    · exact (congrArg (fun x => (extract f x (readRespCmd (readSta (startCommand f s)).1).1).1.env.rx) hcls).trans (hfull.rx.trans hx.1)
    · exact (congrArg (fun x => (extract f x (readRespCmd (readSta (startCommand f s)).1).1).1.env.tx) hcls).trans (hfull.tx.trans hx.2)

/-! ## A run along a list of exchanges -/

/-- ENV is about to answer the commands `xs`, and then to move as `rest` says. -/
structure OnScript (c : Config) (xs : List (Frame × Reply)) (rest : List EnvMove) (s : State) : Prop where
  cfg : s.cfg = c
  polled : 1 ≤ c.nCmd
  flags : s.env.NoCommandFlag
  script : s.env.script = answers c xs ++ rest

@[simp] theorem answers_nil (c : Config) : answers c [] = [] := rfl
@[simp] theorem answers_cons (c : Config) (f : Frame) (r : Reply) (xs : List (Frame × Reply)) :
    answers c ((f, r) :: xs) = r.moves c f ++ answers c xs := rfl
@[simp] theorem answers_append (c : Config) (xs ys : List (Frame × Reply)) :
    answers c (xs ++ ys) = answers c xs ++ answers c ys := by
  simp [answers]

/-- One transaction along the list: its outcome is the reply's, and the run goes on. -/
theorem OnScript.transact {c : Config} {f : Frame} {r : Reply} {xs : List (Frame × Reply)} {rest : List EnvMove}
    {s : State} (h : OnScript c ((f, r) :: xs) rest s) :
    (transact f s).t.outcome = r.outcome c f ∧ OnScript c xs rest (transact f s) ∧
      (transact f s).env.latched.getLsbD 4 = s.env.latched.getLsbD 4 ∧ (transact f s).env.rx = s.env.rx ∧
      (transact f s).env.tx = s.env.tx := by
  have hs : s.env.script = r.moves s.cfg f ++ (answers c xs ++ rest) := by rw [h.script, h.cfg]; simp
  obtain ⟨h1, h2⟩ := transact_reply f r hs h.flags (by rw [h.cfg]; exact h.polled)
  rw [h.cfg] at h1
  exact ⟨h1, ⟨by simp [h.cfg], h.polled, h2.noFlag, h2.script⟩, h2.dataEnd, h2.rx, h2.tx⟩

/-- A change of CORE's registers does not disturb the run. -/
theorem OnScript.of_env {c : Config} {xs : List (Frame × Reply)} {rest : List EnvMove} {s t : State}
    (h : OnScript c xs rest s) (hc : t.cfg = s.cfg) (he : t.env = s.env) : OnScript c xs rest t :=
  ⟨hc.trans h.cfg, h.polled, by rw [he]; exact h.flags, by rw [he]; exact h.script⟩

end Sys2Proof.Machine
end

