-- ==== Sys2Proof/Laws/Specs.lean ====
section
/-! SUPPORT. One specification for each shared operation of unit T, in the terms of Safety.lean: what it did, and what it
left alone. -/

namespace Sys2Proof.Machine

/-! ## The sequencer marks in the log are untouched by a transaction -/

@[simp] theorem pollStatus_seqEntered (k : Nat) (s : State) : (pollStatus k s).1.seqEntered = s.seqEntered := by
  induction k generalizing s with
  | zero => rfl
  | succ k ih =>
    unfold pollStatus
    dsimp only
    split
    · exact readSta_seqEntered s
    · rw [ih]
      exact readSta_seqEntered s

@[simp] theorem classify_seqEntered (f : Frame) (sta : Option (BitVec 7)) (s : State) :
    (classify f sta s).1.seqEntered = s.seqEntered := by
  unfold classify
  split
  · rfl
  · dsimp only
    split
    · exact readRespCmd_seqEntered s
    · split
      · rfl
      · split <;> rfl

@[simp] theorem extract_seqEntered (f : Frame) (kind : OutcomeKind) (s : State) :
    (extract f kind s).1.seqEntered = s.seqEntered := by
  unfold extract
  split
  · cases f.expectedResponse <;> simp
  · rfl

@[simp] theorem startCommand_seqEntered (f : Frame) (s : State) : (startCommand f s).seqEntered = s.seqEntered := by
  rw [startCommand]
  exact (writeCmd_seqEntered _ _).trans (writeArg_seqEntered _ _)

@[simp] theorem transmit_seqEntered (f : Frame) (s : State) : (transmit f s).seqEntered = s.seqEntered := by
  unfold transmit
  dsimp only
  refine (seqEntered_of_log rfl).trans (?_ : (extract _ _ _).1.seqEntered = _)
  simp

@[simp] theorem transact_seqEntered (f : Frame) (s : State) : (transact f s).seqEntered = s.seqEntered := by
  show (acknowledge (transmit f s)).seqEntered = _
  exact (seqEntered_of_access rfl).trans (transmit_seqEntered f s)

/-! ## The specifications -/

theorem transmit_around (f : Frame) (s : State) : s.SameAround (transmit f s) where
  cd := by simp
  seq := by simp
  bte := by simp
  dlen := by simp
  dctrl := by simp
  status := by simp
  value := by simp
  bytes := fun a => by simp
  inputs := ⟨by simp, fun a => by simp, by simp, by simp⟩
  freed := by simp
  entered := by simp

theorem acknowledge_around (s : State) : s.SameAround (acknowledge s) where
  cd := rfl
  seq := rfl
  bte := rfl
  dlen := rfl
  dctrl := rfl
  status := rfl
  value := rfl
  bytes := fun _ => ⟨rfl, rfl⟩
  inputs := ⟨rfl, fun _ => rfl, rfl, rfl⟩
  freed := rfl
  entered := seqEntered_of_access rfl

theorem transact_around (f : Frame) (s : State) : s.SameAround (transact f s) where
  cd := by simp
  seq := by simp
  bte := by simp
  dlen := by simp
  dctrl := by simp
  status := by simp
  value := by simp
  bytes := fun a => by simp
  inputs := ⟨by simp, fun a => by simp, by simp, by simp⟩
  freed := by simp
  entered := by simp

/-- SENDCMD past its checks. -/
theorem transmit_sent (f : Frame) (s : State) : Sent f s (transmit f s) where
  trace := transmit_trace f s
  frame := transmit_frame f s
  pending := transmit_ackPending f s
  arg := by simp
  cmd := by simp [commandWord]
  around := transmit_around f s

/-- TXN past its checks. -/
theorem transact_transacted (f : Frame) (s : State) : Transacted f s (transact f s) where
  trace := transact_trace f s
  frame := transact_frame f s
  acknowledged := transact_ackPending f s
  arg := by simp
  cmd := by simp [commandWord]
  around := transact_around f s

/-- The checks of SENDCMD pass for a frame with a response shape and nothing pending. -/
theorem checked_next {f : Frame} {s : State} (k : State → State) (hf : f.expectedResponse ≠ .reserved)
    (ha : s.t.ackPending = false) : checked f s k = .next (k s) := by
  simp [checked, hf, ha]

/-- What the checks of SENDCMD answer, when they answer a next state. -/
theorem of_checked_next {f : Frame} {s t : State} {k : State → State} (h : checked f s k = .next t) :
    f.expectedResponse ≠ .reserved ∧ s.t.ackPending = false ∧ t = k s := by
  unfold checked at h
  by_cases hf : f.expectedResponse = .reserved
  · rw [if_pos hf] at h; cases h
  · rw [if_neg hf] at h
    by_cases ha : s.t.ackPending = true
    · rw [if_pos ha] at h; cases h
    · rw [if_neg ha] at h
      cases h
      exact ⟨hf, by simpa using ha, rfl⟩

/-- The range check, both ways (20_memory.md R64, R65). -/
theorem blockInRange_iff (cd : CardDescriptor) (block : Word) : blockInRange cd block = true ↔ cd.InRange block := by
  unfold blockInRange CardDescriptor.InRange
  by_cases h1 : cd.blockCount.toNat ≤ block.toNat
  · rw [if_pos h1]
    simp only [Bool.false_eq_true, false_iff, not_and]
    intro h
    omega
  · rw [if_neg h1]
    by_cases h2 : cd.cls = .standardCapacity ∧ 2 ^ 23 ≤ block.toNat
    · rw [if_pos h2]
      exact ⟨fun h => absurd h (by simp), fun h => absurd h2 h.2⟩
    · rw [if_neg h2]
      exact ⟨fun _ => ⟨by omega, h2⟩, fun _ => rfl⟩

/-! ## What a transaction adds to the log, by kind of access -/

theorem Answered.no_write {c : Config} {f : Frame} {answer : List Access} {o : ResponseOutcome}
    (h : Answered c f answer o) : ∀ a ∈ answer, a.isWrite = false := by
  have hresp : ∀ regs, ∀ a ∈ respReads f.expectedResponse regs, a.isWrite = false := by
    intro regs a ha
    cases hs : f.expectedResponse <;> rw [hs] at ha <;> simp [respReads] at ha
    · subst ha; rfl
    · rcases ha with rfl | rfl | rfl | rfl <;> rfl
  intro a ha
  cases h with
  | expired quiet =>
    obtain ⟨v, -, rfl⟩ := List.mem_map.1 ha; rfl
  | response quiet =>
    simp only [List.mem_append, List.mem_map, List.mem_cons, List.not_mem_nil, or_false] at ha
    rcases ha with (⟨v, -, rfl⟩ | rfl | rfl) | ha
    · rfl
    · rfl
    · rfl
    · exact hresp _ _ ha
  | crcIgnored quiet =>
    simp only [List.mem_append, List.mem_map, List.mem_cons, List.not_mem_nil, or_false] at ha
    rcases ha with (⟨v, -, rfl⟩ | rfl) | ha
    · rfl
    · rfl
    · exact hresp _ _ ha
  | crcFailed quiet =>
    simp only [List.mem_append, List.mem_map, List.mem_cons, List.not_mem_nil, or_false] at ha
    rcases ha with ⟨v, -, rfl⟩ | rfl <;> rfl
  | timedOut quiet =>
    simp only [List.mem_append, List.mem_map, List.mem_cons, List.not_mem_nil, or_false] at ha
    rcases ha with ⟨v, -, rfl⟩ | rfl <;> rfl
  | sent quiet =>
    simp only [List.mem_append, List.mem_map, List.mem_cons, List.not_mem_nil, or_false] at ha
    rcases ha with ⟨v, -, rfl⟩ | rfl <;> rfl

theorem Answered.no_pop {c : Config} {f : Frame} {answer : List Access} {o : ResponseOutcome}
    (h : Answered c f answer o) : ∀ a ∈ answer, a.popped? = none := by
  have hresp : ∀ regs, ∀ a ∈ respReads f.expectedResponse regs, a.popped? = none := by
    intro regs a ha
    cases hs : f.expectedResponse <;> rw [hs] at ha <;> simp [respReads] at ha
    · subst ha; rfl
    · rcases ha with rfl | rfl | rfl | rfl <;> rfl
  intro a ha
  cases h with
  | expired quiet =>
    obtain ⟨v, -, rfl⟩ := List.mem_map.1 ha; rfl
  | response quiet =>
    simp only [List.mem_append, List.mem_map, List.mem_cons, List.not_mem_nil, or_false] at ha
    rcases ha with (⟨v, -, rfl⟩ | rfl | rfl) | ha
    · rfl
    · rfl
    · rfl
    · exact hresp _ _ ha
  | crcIgnored quiet =>
    simp only [List.mem_append, List.mem_map, List.mem_cons, List.not_mem_nil, or_false] at ha
    rcases ha with (⟨v, -, rfl⟩ | rfl) | ha
    · rfl
    · rfl
    · exact hresp _ _ ha
  | crcFailed quiet =>
    simp only [List.mem_append, List.mem_map, List.mem_cons, List.not_mem_nil, or_false] at ha
    rcases ha with ⟨v, -, rfl⟩ | rfl <;> rfl
  | timedOut quiet =>
    simp only [List.mem_append, List.mem_map, List.mem_cons, List.not_mem_nil, or_false] at ha
    rcases ha with ⟨v, -, rfl⟩ | rfl <;> rfl
  | sent quiet =>
    simp only [List.mem_append, List.mem_map, List.mem_cons, List.not_mem_nil, or_false] at ha
    rcases ha with ⟨v, -, rfl⟩ | rfl <;> rfl

/-- An access that is no write pushes nothing. -/
theorem Access.of_not_write {a : Access} (h : a.isWrite = false) : a.pushed? = none := by
  cases a <;> simp_all [Access.isWrite, Access.pushed?]

/-- What one access adds to each view of the log. -/
theorem views_of_accesses {s t : State} {l : List Access} (h : t.accesses = s.accesses ++ l) :
    t.writes = s.writes ++ l.filter Access.isWrite ∧
      t.pushed = s.pushed ++ l.filterMap Access.pushed? ∧ t.popped = s.popped ++ l.filterMap Access.popped? := by
  simp [State.writes, State.pushed, State.popped, h]

/-- A view of the log depends on the accesses alone. -/
theorem views_of_accesses_eq {s t : State} (h : t.accesses = s.accesses) :
    t.writes = s.writes ∧ t.pushed = s.pushed ∧ t.popped = s.popped := by
  simp [State.writes, State.pushed, State.popped, h]

/-- The writes, pushes and pops of one TXN (R139). -/
theorem transact_views (f : Frame) (s : State) :
    (transact f s).writes = s.writes ++ commandWrites f ∧
      (transact f s).pushed = s.pushed ∧ (transact f s).popped = s.popped := by
  obtain ⟨answer, hans, -, hacc⟩ := transact_trace f s
  rw [List.append_assoc, List.append_assoc] at hacc
  obtain ⟨h1, h3, h4⟩ := views_of_accesses hacc
  have hw := hans.no_write
  have e1 : answer.filter Access.isWrite = [] := List.filter_eq_nil_iff.2 fun a ha => by simp [hw a ha]
  have e3 : answer.filterMap Access.pushed? = [] :=
    List.filterMap_eq_nil_iff.2 fun a ha => Access.of_not_write (hw a ha)
  have e4 : answer.filterMap Access.popped? = [] := List.filterMap_eq_nil_iff.2 hans.no_pop
  refine ⟨?_, ?_, ?_⟩
  · rw [h1, List.filter_append, List.filter_append, e1]; rfl
  · rw [h3, List.filterMap_append, List.filterMap_append, e3]; exact List.append_nil _
  · rw [h4, List.filterMap_append, List.filterMap_append, e4]; exact List.append_nil _

@[simp] theorem framesWrites_nil : framesWrites [] = [] := rfl
@[simp] theorem framesWrites_singleton (f : Frame) : framesWrites [f] = commandWrites f := rfl
@[simp] theorem framesWrites_append (fs gs : List Frame) :
    framesWrites (fs ++ gs) = framesWrites fs ++ framesWrites gs := by simp [framesWrites]

@[simp] theorem transact_writes (f : Frame) (s : State) : (transact f s).writes = s.writes ++ commandWrites f :=
  (transact_views f s).1
@[simp] theorem transact_pushed (f : Frame) (s : State) : (transact f s).pushed = s.pushed := (transact_views f s).2.1
@[simp] theorem transact_popped (f : Frame) (s : State) : (transact f s).popped = s.popped := (transact_views f s).2.2

end Sys2Proof.Machine
end

