-- ==== Sys2Proof/Laws/Flow.lean ====
section
/-! SUPPORT. Reasoning about an operation in parts: what holds where it goes on, and what holds where it has ended. -/

namespace Sys2Proof.Machine

/-- The accepted kinds of a command that expects no response (41_card_commands.md R150), both ways. -/
theorem acceptedNoReply_iff (k : OutcomeKind) : acceptedNoReply k = true ↔ k.quietOk := by
  cases k <;> simp [acceptedNoReply, OutcomeKind.quietOk]

/-- `R` holds if the operation goes on, `E` if it has ended. -/
def Flow.Sat (f : Flow) (R E : State → Prop) : Prop :=
  match f with
  | .running s => R s
  | .ended s => E s

@[simp] theorem Flow.sat_running (s : State) (R E : State → Prop) : (Flow.running s).Sat R E ↔ R s := Iff.rfl
@[simp] theorem Flow.sat_ended (s : State) (R E : State → Prop) : (Flow.ended s).Sat R E ↔ E s := Iff.rfl

/-- The next part, from where the first one goes on. -/
theorem Flow.Sat.andThen {f : Flow} {R R' E : State → Prop} {k : State → Flow} (h : f.Sat R E)
    (hk : ∀ s, R s → (k s).Sat R' E) : (f.andThen k).Sat R' E := by
  cases f with
  | running s => exact hk s h
  | ended s => exact h

/-- The last part. -/
theorem Flow.Sat.finally {f : Flow} {R E P : State → Prop} {k : State → State} (h : f.Sat R E)
    (hk : ∀ s, R s → P (k s)) (he : ∀ s, E s → P s) : P (f.finally k) := by
  cases f with
  | running s => exact hk s h
  | ended s => exact he s h

theorem Flow.Sat.mono {f : Flow} {R R' E E' : State → Prop} (h : f.Sat R E) (hr : ∀ s, R s → R' s)
    (he : ∀ s, E s → E' s) : f.Sat R' E' := by
  cases f with
  | running s => exact hr s h
  | ended s => exact he s h

end Sys2Proof.Machine
end

