-- ==== Sys2Proof/Laws/Memory.lean ====
section
/-! SUPPORT. The laws of a host buffer: every operation keeps the canonical form, a read after a write, and equal
reads give equal buffers. -/

namespace Sys2Proof.Machine

@[simp] theorem Memory.read_nil (k : Nat) : Memory.read [] k = 0 := rfl

@[simp] theorem Memory.read_cons (a : Nat) (b : Byte) (m : Memory) (k : Nat) :
    Memory.read ((a, b) :: m) k = if a = k then b else Memory.read m k := rfl

@[simp] theorem Memory.rising_nil (lo : Nat) : Memory.rising lo [] = true := rfl

@[simp] theorem Memory.rising_cons (lo a : Nat) (b : Byte) (m : Memory) :
    Memory.rising lo ((a, b) :: m) = true ↔ lo ≤ a ∧ a < 512 ∧ b ≠ 0 ∧ Memory.rising (a + 1) m = true := by
  simp [Memory.rising, and_assoc]

theorem Memory.rising_mono {lo lo' : Nat} {m : Memory} (h : Memory.rising lo m = true) (hle : lo' ≤ lo) :
    Memory.rising lo' m = true := by
  cases m with
  | nil => rfl
  | cons c m =>
    obtain ⟨a, b⟩ := c
    rw [Memory.rising_cons] at h ⊢
    exact ⟨by omega, h.2⟩

/-- Below its first address a buffer reads 0. -/
theorem Memory.read_below {lo : Nat} {m : Memory} (h : Memory.rising lo m = true) {k : Nat} (hk : k < lo) :
    m.read k = 0 := by
  induction m generalizing lo with
  | nil => rfl
  | cons c m ih =>
    obtain ⟨a, b⟩ := c
    rw [Memory.rising_cons] at h
    rw [Memory.read_cons, if_neg (by omega), ih h.2.2.2 (by omega)]

theorem Memory.rising_write {lo : Nat} {m : Memory} (h : Memory.rising lo m = true) {k : Nat} (hlo : lo ≤ k)
    (hk : k < 512) (v : Byte) : Memory.rising lo (m.write k v) = true := by
  induction m generalizing lo with
  | nil =>
    unfold Memory.write
    split <;> simp_all
  | cons c m ih =>
    obtain ⟨a, b⟩ := c
    rw [Memory.rising_cons] at h
    obtain ⟨h1, h2, h3, h4⟩ := h
    unfold Memory.write
    split
    · split
      · exact (Memory.rising_cons ..).2 ⟨h1, h2, h3, h4⟩
      · exact (Memory.rising_cons ..).2
          ⟨hlo, hk, ‹_›, (Memory.rising_cons ..).2 ⟨by omega, h2, h3, h4⟩⟩
    · split
      · subst_vars
        split
        · exact Memory.rising_mono h4 (by omega)
        · exact (Memory.rising_cons ..).2 ⟨h1, h2, ‹_›, h4⟩
      · exact (Memory.rising_cons ..).2 ⟨h1, h2, h3, ih h4 (by omega)⟩

/-- A write keeps the canonical form. -/
theorem Memory.wf_write {m : Memory} (h : m.wf = true) {k : Nat} (hk : k < 512) (v : Byte) :
    (m.write k v).wf = true :=
  Memory.rising_write h (Nat.zero_le k) hk v

theorem Memory.read_write_of_rising {lo : Nat} {m : Memory} (h : Memory.rising lo m = true) (k : Nat) (v : Byte)
    (j : Nat) : (m.write k v).read j = if k = j then v else m.read j := by
  induction m generalizing lo with
  | nil =>
    unfold Memory.write
    split <;> simp_all
  | cons c m ih =>
    obtain ⟨a, b⟩ := c
    rw [Memory.rising_cons] at h
    obtain ⟨-, -, -, h4⟩ := h
    have below : ∀ i, i < a + 1 → Memory.read m i = 0 := fun i hi => Memory.read_below h4 hi
    unfold Memory.write
    by_cases hkj : k = j
    · subst hkj
      split
      · rename_i hlt
        split
        · rename_i hv
          simp [hv, below k (by omega), show a ≠ k by omega]
        · simp
      · split
        · rename_i heq
          subst heq
          split
          · rename_i hv
            simp [hv, below k (by omega)]
          · simp
        · rename_i hne
          simp [ih h4, show a ≠ k from fun e => hne e.symm]
    · split
      · split
        · simp
        · simp [hkj]
      · split
        · rename_i heq
          subst heq
          split <;> simp [hkj]
        · simp [ih h4, hkj]

/-- A read after a write. -/
theorem Memory.read_write {m : Memory} (h : m.wf = true) (k : Nat) (v : Byte) (j : Nat) :
    (m.write k v).read j = if k = j then v else m.read j :=
  Memory.read_write_of_rising h k v j

theorem Memory.ext_of_rising {lo : Nat} {m m' : Memory} (h : Memory.rising lo m = true)
    (h' : Memory.rising lo m' = true) (heq : ∀ k, m.read k = m'.read k) : m = m' := by
  induction m generalizing lo m' with
  | nil =>
    cases m' with
    | nil => rfl
    | cons c m' =>
      obtain ⟨a, b⟩ := c
      rw [Memory.rising_cons] at h'
      exact absurd (by simpa using (heq a).symm) h'.2.2.1
  | cons c m ih =>
    obtain ⟨a, b⟩ := c
    rw [Memory.rising_cons] at h
    obtain ⟨h1, h2, h3, h4⟩ := h
    cases m' with
    | nil => exact absurd (by simpa using heq a) h3
    | cons c' m' =>
      obtain ⟨a', b'⟩ := c'
      rw [Memory.rising_cons] at h'
      obtain ⟨h1', h2', h3', h4'⟩ := h'
      have ha : a = a' := by
        rcases Nat.lt_trichotomy a a' with hlt | heq' | hgt
        · have h0 := heq a
          simp [Memory.read_below h4' (show a < a' + 1 by omega), show a' ≠ a by omega] at h0
          exact absurd h0 h3
        · exact heq'
        · have h0 := heq a'
          simp [Memory.read_below h4 (show a' < a + 1 by omega), show a ≠ a' by omega] at h0
          exact absurd h0.symm h3'
      subst ha
      have hb : b = b' := by simpa using heq a
      subst hb
      rw [ih h4 h4' (fun k => ?_)]
      by_cases hk : k = a
      · subst hk
        rw [Memory.read_below h4 (by omega), Memory.read_below h4' (by omega)]
      · have := heq k
        simpa [show a ≠ k from fun e => hk e.symm] using this

/-- Canonical buffers that read alike are equal. -/
theorem Memory.ext {m m' : Memory} (h : m.wf = true) (h' : m'.wf = true) (heq : ∀ k, m.read k = m'.read k) : m = m' :=
  Memory.ext_of_rising h h' heq

/-! ## Whole words -/

/-- Storing a word keeps the canonical form. -/
theorem Memory.wf_storeWord {m : Memory} (h : m.wf = true) {k : Nat} (hk : k < 128) (w : Word) :
    (m.storeWord k w).wf = true := by
  unfold Memory.storeWord
  exact Memory.wf_write (Memory.wf_write (Memory.wf_write (Memory.wf_write h (by omega) _) (by omega) _) (by omega) _)
    (by omega) _

/-- The bytes after a word is stored: its four bytes, least significant first, and the others as before. -/
theorem Memory.read_storeWord {m : Memory} (h : m.wf = true) {k : Nat} (hk : k < 128) (w : Word) (j : Nat) :
    (m.storeWord k w).read j = if j / 4 = k then byteOf w (j % 4) else m.read j := by
  have h0 := Memory.wf_write h (show 4 * k < 512 by omega) (byteOf w 0)
  have h1 := Memory.wf_write h0 (show 4 * k + 1 < 512 by omega) (byteOf w 1)
  have h2 := Memory.wf_write h1 (show 4 * k + 2 < 512 by omega) (byteOf w 2)
  unfold Memory.storeWord
  rw [Memory.read_write h2, Memory.read_write h1, Memory.read_write h0, Memory.read_write h]
  have hcases : j % 4 = 0 ∨ j % 4 = 1 ∨ j % 4 = 2 ∨ j % 4 = 3 := by omega
  by_cases hjk : j / 4 = k
  · rcases hcases with hm | hm | hm | hm <;> rw [if_pos hjk, hm]
    · rw [if_neg (by omega), if_neg (by omega), if_neg (by omega), if_pos (by omega)]
    · rw [if_neg (by omega), if_neg (by omega), if_pos (by omega)]
    · rw [if_neg (by omega), if_pos (by omega)]
    · rw [if_pos (by omega)]
  · rw [if_neg hjk, if_neg (by omega), if_neg (by omega), if_neg (by omega), if_neg (by omega)]

theorem byteOf_packWord (b0 b1 b2 b3 : Byte) :
    byteOf (packWord b0 b1 b2 b3) 0 = b0 ∧ byteOf (packWord b0 b1 b2 b3) 1 = b1 ∧
      byteOf (packWord b0 b1 b2 b3) 2 = b2 ∧ byteOf (packWord b0 b1 b2 b3) 3 = b3 := by
  unfold byteOf packWord
  refine ⟨?_, ?_, ?_, ?_⟩ <;> apply BitVec.eq_of_getLsbD_eq <;> intro i hi <;>
    simp only [BitVec.getLsbD_extractLsb', BitVec.getLsbD_append] <;> interval_cases i <;> simp

theorem packWord_byteOf (w : Word) : packWord (byteOf w 0) (byteOf w 1) (byteOf w 2) (byteOf w 3) = w := by
  unfold byteOf packWord
  apply BitVec.eq_of_getLsbD_eq
  intro i hi
  simp only [BitVec.getLsbD_extractLsb', BitVec.getLsbD_append]
  interval_cases i <;> simp

/-- The word read back from a buffer is the word stored. -/
theorem Memory.loadWord_storeWord {m : Memory} (h : m.wf = true) {k : Nat} (hk : k < 128) (w : Word) (j : Nat) :
    (m.storeWord k w).loadWord j = if j = k then w else m.loadWord j := by
  have hr := fun i => Memory.read_storeWord h hk w i
  unfold Memory.loadWord
  rw [hr, hr, hr, hr, show 4 * j / 4 = j by omega, show (4 * j + 1) / 4 = j by omega,
    show (4 * j + 2) / 4 = j by omega, show (4 * j + 3) / 4 = j by omega]
  split
  · rw [show 4 * j % 4 = 0 by omega, show (4 * j + 1) % 4 = 1 by omega, show (4 * j + 2) % 4 = 2 by omega,
      show (4 * j + 3) % 4 = 3 by omega]
    exact packWord_byteOf w
  · rfl

/-! ## A buffer given byte by byte -/

theorem Memory.rising_fill (f : Nat → Byte) (n lo : Nat) (h : lo + n ≤ 512) :
    Memory.rising lo (Memory.fill f n lo) = true := by
  induction n generalizing lo with
  | zero => rfl
  | succ n ih =>
    unfold Memory.fill
    split
    · exact Memory.rising_mono (ih (lo + 1) (by omega)) (by omega)
    · exact (Memory.rising_cons ..).2 ⟨le_refl _, by omega, ‹_›, ih (lo + 1) (by omega)⟩

/-- `ofFun` gives a canonical buffer. -/
theorem Memory.wf_ofFun (f : Nat → Byte) : (Memory.ofFun f).wf = true := Memory.rising_fill f 512 0 (by omega)

theorem Memory.read_fill (f : Nat → Byte) (n lo k : Nat) :
    Memory.read (Memory.fill f n lo) k = if lo ≤ k ∧ k < lo + n then f k else 0 := by
  induction n generalizing lo with
  | zero => simp [Memory.fill]
  | succ n ih =>
    unfold Memory.fill
    split
    · rename_i hz
      rw [ih]
      by_cases hk : k = lo
      · subst hk; simp [hz]
      · congr 1; simp only [eq_iff_iff]; omega
    · rw [Memory.read_cons, ih]
      by_cases hk : lo = k
      · subst hk; simp
      · rw [if_neg hk]; congr 1; simp only [eq_iff_iff]; omega

/-- The bytes of `ofFun`. -/
theorem Memory.read_ofFun (f : Nat → Byte) (k : Nat) : (Memory.ofFun f).read k = if k < 512 then f k else 0 := by
  unfold Memory.ofFun
  rw [Memory.read_fill]
  simp

/-- A buffer presented is canonical. -/
theorem Memory.wf_ofBytes (bytes : Vector Byte 512) : (Memory.ofBytes bytes).wf = true := Memory.wf_ofFun _

/-- A buffer presented holds the bytes given, and nothing beyond them. -/
theorem Memory.read_ofBytes (bytes : Vector Byte 512) (k : Nat) :
    (Memory.ofBytes bytes).read k = if h : k < 512 then bytes[k] else 0 := by
  unfold Memory.ofBytes
  rw [Memory.read_ofFun]
  by_cases h : k < 512
  · simp [h]
  · simp [h]

end Sys2Proof.Machine
end

