-- ==== Sys2Proof/Laws/Block.lean ====
section
/-! SUPPORT. The block engine part by part (44_block_transfer.md): what a block operation keeps, what it has written and
popped so far, and how each of its parts goes on or ends. -/

namespace Sys2Proof.Machine

/-! ## The views of the log -/

/-- The pushes are among the writes. -/
theorem State.pushed_of_writes (s : State) : s.pushed = s.writes.filterMap Access.pushed? := by
  unfold State.pushed State.writes
  induction s.accesses with
  | nil => rfl
  | cons a l ih =>
    cases a <;>
      first
        | exact ih
        | exact congrArg (List.cons _) ih

@[simp] theorem seqEntered_enterPhase (ph : Phase) (s : State) : (enterPhase ph s).seqEntered = s.seqEntered := by
  simp [State.seqEntered, Event.seq?]

/-- A failure adds no access. -/
theorem failRead_accesses (st : Status) (s : State) : (failRead st s).accesses = s.accesses := accesses_of_phase rfl
theorem failWrite_accesses (st : Status) (s : State) : (failWrite st s).accesses = s.accesses := accesses_of_phase rfl

@[simp] theorem failRead_writes (st : Status) (s : State) : (failRead st s).writes = s.writes :=
  (views_of_accesses_eq (failRead_accesses st s)).1
@[simp] theorem failWrite_writes (st : Status) (s : State) : (failWrite st s).writes = s.writes :=
  (views_of_accesses_eq (failWrite_accesses st s)).1
@[simp] theorem failRead_popped (st : Status) (s : State) : (failRead st s).popped = s.popped :=
  (views_of_accesses_eq (failRead_accesses st s)).2.2
@[simp] theorem failWrite_pushed (st : Status) (s : State) : (failWrite st s).pushed = s.pushed :=
  (views_of_accesses_eq (failWrite_accesses st s)).2.1

@[simp] theorem commandWrites_pushed (f : Frame) : (commandWrites f).filterMap Access.pushed? = [] := rfl

/-! ## Storing the words of a block -/

/-- The buffer with the words stored from word `k` on. -/
def Memory.storeWords : Memory → Nat → List Word → Memory
  | m, _, [] => m
  | m, k, w :: ws => Memory.storeWords (m.storeWord k w) (k + 1) ws

theorem Memory.storeWords_concat (m : Memory) (k : Nat) (ws : List Word) (w : Word) :
    m.storeWords k (ws ++ [w]) = (m.storeWords k ws).storeWord (k + ws.length) w := by
  induction ws generalizing m k with
  | nil => rfl
  | cons x xs ih =>
    show Memory.storeWords (m.storeWord k x) (k + 1) (xs ++ [w]) = _
    rw [ih]
    show ((m.storeWord k x).storeWords (k + 1) xs).storeWord (k + 1 + xs.length) w =
      ((m.storeWord k x).storeWords (k + 1) xs).storeWord (k + (x :: xs).length) w
    rw [List.length_cons, show k + 1 + xs.length = k + (xs.length + 1) by omega]

theorem Memory.wf_storeWords {m : Memory} (h : m.wf = true) {k : Nat} {ws : List Word} (hk : k + ws.length ≤ 128) :
    (m.storeWords k ws).wf = true := by
  induction ws generalizing m k with
  | nil => exact h
  | cons x xs ih =>
    rw [List.length_cons] at hk
    exact ih (Memory.wf_storeWord h (by omega) x) (by omega)

/-- Byte `j` of the word stored at `4 i + j`, and every other byte as before. -/
theorem Memory.read_storeWords {m : Memory} (h : m.wf = true) {k : Nat} {ws : List Word} (hk : k + ws.length ≤ 128)
    (a : Nat) : (m.storeWords k ws).read a =
      if k ≤ a / 4 ∧ a / 4 < k + ws.length then byteOf (ws.getD (a / 4 - k) 0) (a % 4) else m.read a := by
  induction ws generalizing m k with
  | nil => simp [Memory.storeWords, show ¬(k ≤ a / 4 ∧ a / 4 < k) by omega]
  | cons x xs ih =>
    rw [List.length_cons] at hk
    show (Memory.storeWords (m.storeWord k x) (k + 1) xs).read a = _
    rw [ih (Memory.wf_storeWord h (by omega) x) (by omega), Memory.read_storeWord h (by omega), List.length_cons]
    by_cases h1 : k + 1 ≤ a / 4 ∧ a / 4 < k + 1 + xs.length
    · rw [if_pos h1, if_pos (by omega), show a / 4 - k = (a / 4 - (k + 1)) + 1 by omega]; rfl
    · rw [if_neg h1]
      by_cases h2 : a / 4 = k
      · rw [if_pos h2, if_pos (by omega), show a / 4 - k = 0 by omega]; rfl
      · rw [if_neg h2, if_neg (by omega)]

/-! ## A state inside a block operation -/

/-- What a block operation keeps from the state `s0` it was requested in, and what it has written and popped so far. -/
structure BlockAt (s0 : State) (block : Word) (written : List Access) (words : List Word) (s : State) : Prop where
  cd : s.cd = s0.cd
  seq : s.seq = s0.seq
  wbuf : s.port.wbuf = s0.port.wbuf
  request : s.port.request = s0.port.request
  decoded : s.decoded = s0.decoded
  cfg : s.cfg = s0.cfg
  entered : s.seqEntered = s0.seqEntered
  acknowledged : s.t.ackPending = false
  target : s.bte.block = block
  addr : s.bte.addr = translateBlock s0.cd.cls block
  writes : s.writes = s0.writes ++ written
  popped : s.popped = s0.popped ++ words
  rbuf : s.port.rbuf = s0.port.rbuf.storeWords 0 words
  freed : s.freed = s0.freed

/-- A block operation has ended (R221, R230, R231): what it kept, what it wrote and popped in all. -/
structure BlockEnd (s0 : State) (block : Word) (written : List Access) (words : List Word) (s : State) : Prop where
  cd : s.cd = s0.cd
  seq : s.seq = s0.seq
  wbuf : s.port.wbuf = s0.port.wbuf
  request : s.port.request = s0.port.request
  decoded : s.decoded = s0.decoded
  cfg : s.cfg = s0.cfg
  entered : s.seqEntered = s0.seqEntered
  acknowledged : s.t.ackPending = false
  target : s.bte.block = block
  addr : s.bte.addr = translateBlock s0.cd.cls block
  writes : s.writes = s0.writes ++ written
  popped : s.popped = s0.popped ++ words
  phase : s.bte.phase = .idle
  count : s.bte.n ≤ 128
  value : s.port.value = 0

/-- A read has failed (R231). -/
def ReadFailed (s0 : State) (block : Word) (s : State) : Prop :=
  (s.port.status = .protocolError ∨ s.port.status = .timeout) ∧
    ∃ written words, BlockEnd s0 block written words s ∧ words.length ≤ 128 ∧
      written.filterMap Access.pushed? = []

/-- A write has failed (R231). -/
def WriteFailed (s0 : State) (block : Word) (s : State) : Prop :=
  (s.port.status = .protocolError ∨ s.port.status = .timeout) ∧ s.port.rbuf = s0.port.rbuf ∧ s.freed = s0.freed ∧
    ∃ written n, BlockEnd s0 block written [] s ∧ n ≤ 128 ∧
      written.filterMap Access.pushed? = s0.blockWords.take n

variable {s0 s : State} {block : Word} {written : List Access} {words : List Word}

/-- The preamble (R215). -/
theorem preamble_at (ha : s.t.ackPending = false) : BlockAt s block [] [] (preamble block s) where
  cd := rfl
  seq := rfl
  wbuf := rfl
  request := rfl
  decoded := rfl
  cfg := rfl
  entered := rfl
  acknowledged := ha
  target := rfl
  addr := rfl
  writes := (List.append_nil _).symm
  popped := (List.append_nil _).symm
  rbuf := rfl
  freed := rfl

/-- A change that touches no access and nothing the operation keeps: an engine phase, an engine counter. -/
theorem BlockAt.of_same (h : BlockAt s0 block written words s) {t : State} (hcd : t.cd = s.cd) (hseq : t.seq = s.seq)
    (hport : t.port = s.port) (hdecoded : t.decoded = s.decoded) (hcfg : t.cfg = s.cfg) (ht : t.t = s.t)
    (hblock : t.bte.block = s.bte.block) (haddr : t.bte.addr = s.bte.addr) (hfreed : t.freed = s.freed)
    (hentered : t.seqEntered = s.seqEntered) (hacc : t.accesses = s.accesses) : BlockAt s0 block written words t where
  cd := hcd.trans h.cd
  seq := hseq.trans h.seq
  wbuf := by rw [hport]; exact h.wbuf
  request := by rw [hport]; exact h.request
  decoded := hdecoded.trans h.decoded
  cfg := hcfg.trans h.cfg
  entered := hentered.trans h.entered
  acknowledged := by rw [ht]; exact h.acknowledged
  target := hblock.trans h.target
  addr := haddr.trans h.addr
  writes := (views_of_accesses_eq hacc).1.trans h.writes
  popped := (views_of_accesses_eq hacc).2.2.trans h.popped
  rbuf := by rw [hport]; exact h.rbuf
  freed := hfreed.trans h.freed

theorem BlockAt.enterPhase (h : BlockAt s0 block written words s) (ph : Phase) :
    BlockAt s0 block written words (enterPhase ph s) :=
  h.of_same rfl rfl rfl rfl rfl rfl rfl rfl rfl (seqEntered_enterPhase ph s) (enterPhase_accesses ph s)

theorem BlockAt.setCounters (h : BlockAt s0 block written words s) (n iter : Nat) :
    BlockAt s0 block written words { s with bte := { s.bte with n := n, iter := iter } } :=
  h.of_same rfl rfl rfl rfl rfl rfl rfl rfl rfl rfl rfl

/-- One interface access that is no pop. -/
theorem BlockAt.access (h : BlockAt s0 block written words s) {t : State} {a : Access} (hlog : t.log = .access a :: s.log)
    (hpop : a.popped? = none) (hcd : t.cd = s.cd) (hseq : t.seq = s.seq)
    (hport : t.port = s.port) (hdecoded : t.decoded = s.decoded) (hcfg : t.cfg = s.cfg) (ht : t.t = s.t)
    (hbte : t.bte = s.bte) (hfreed : t.freed = s.freed) :
    BlockAt s0 block (written ++ if a.isWrite then [a] else []) words t where
  cd := hcd.trans h.cd
  seq := hseq.trans h.seq
  wbuf := by rw [hport]; exact h.wbuf
  request := by rw [hport]; exact h.request
  decoded := hdecoded.trans h.decoded
  cfg := hcfg.trans h.cfg
  entered := (seqEntered_of_access hlog).trans h.entered
  acknowledged := by rw [ht]; exact h.acknowledged
  target := by rw [hbte]; exact h.target
  addr := by rw [hbte]; exact h.addr
  writes := by
    rw [(views_of_accesses (accesses_of_access hlog)).1, h.writes, List.append_assoc]
    cases ha : a.isWrite <;> simp [ha]
  popped := by
    rw [(views_of_accesses (accesses_of_access hlog)).2.2, h.popped]
    simp [hpop]
  rbuf := by rw [hport]; exact h.rbuf
  freed := hfreed.trans h.freed

theorem BlockAt.transact (h : BlockAt s0 block written words s) (f : Frame) :
    BlockAt s0 block (written ++ commandWrites f) words (transact f s) where
  cd := (transact_cd f s).trans h.cd
  seq := (transact_seq f s).trans h.seq
  wbuf := by rw [transact_port]; exact h.wbuf
  request := by rw [transact_port]; exact h.request
  decoded := (transact_decoded f s).trans h.decoded
  cfg := (transact_cfg f s).trans h.cfg
  entered := (transact_seqEntered f s).trans h.entered
  acknowledged := rfl
  target := by rw [transact_bte]; exact h.target
  addr := by rw [transact_bte]; exact h.addr
  writes := by rw [transact_writes, h.writes, List.append_assoc]
  popped := by rw [transact_popped]; exact h.popped
  rbuf := by rw [transact_port]; exact h.rbuf
  freed := (transact_freed f s).trans h.freed

/-- A read fails inside (R231). -/
theorem BlockAt.failRead (h : BlockAt s0 block written words s) {st : Status} (hst : st = .protocolError ∨ st = .timeout)
    (hn : s.bte.n ≤ 128) (hw : words.length ≤ 128) (hp : written.filterMap Access.pushed? = []) :
    ReadFailed s0 block (failRead st s) :=
  ⟨hst, written, words,
    { cd := h.cd, seq := h.seq, wbuf := h.wbuf, request := h.request, decoded := h.decoded, cfg := h.cfg,
      entered := (seqEntered_enterPhase .idle s).trans h.entered, acknowledged := h.acknowledged, target := h.target,
      addr := h.addr, writes := (failRead_writes st s).trans h.writes,
      popped := (failRead_popped st s).trans h.popped, phase := rfl, count := hn, value := rfl }, hw, hp⟩

/-- A write fails inside (R231). -/
theorem BlockAt.failWrite (h : BlockAt s0 block written [] s) {st : Status} (hst : st = .protocolError ∨ st = .timeout)
    (hn : s.bte.n ≤ 128) {n : Nat} (hle : n ≤ 128) (hp : written.filterMap Access.pushed? = s0.blockWords.take n) :
    WriteFailed s0 block (failWrite st s) :=
  ⟨hst, h.rbuf, h.freed, written, n,
    { cd := h.cd, seq := h.seq, wbuf := h.wbuf, request := h.request, decoded := h.decoded, cfg := h.cfg,
      entered := (seqEntered_enterPhase .idle s).trans h.entered, acknowledged := h.acknowledged, target := h.target,
      addr := h.addr, writes := (views_of_accesses_eq (enterPhase_accesses .idle s)).1.trans h.writes,
      popped := (views_of_accesses_eq (enterPhase_accesses .idle s)).2.2.trans h.popped, phase := rfl, count := hn, value := rfl }, hle, hp⟩

/-- The end of a successful operation. -/
theorem BlockAt.finish (h : BlockAt s0 block written words s) (hn : s.bte.n ≤ 128) :
    BlockEnd s0 block written words (finish .ok 0 (Machine.enterPhase .idle s)) :=
  { cd := h.cd, seq := h.seq, wbuf := h.wbuf, request := h.request, decoded := h.decoded, cfg := h.cfg,
    entered := (seqEntered_enterPhase .idle s).trans h.entered, acknowledged := h.acknowledged, target := h.target,
    addr := h.addr, writes := (views_of_accesses_eq (enterPhase_accesses .idle s)).1.trans h.writes,
    popped := (views_of_accesses_eq (enterPhase_accesses .idle s)).2.2.trans h.popped, phase := rfl, count := hn,
    value := rfl }

/-! ## The parts of a read -/

/-- One command of a read (R163). -/
theorem readCommand_sat (h : BlockAt s0 block written words s) (f : Frame) (hn : s.bte.n ≤ 128)
    (hw : words.length ≤ 128) (hp : written.filterMap Access.pushed? = []) :
    (blockCommand f failRead s).Sat
      (fun t => BlockAt s0 block (written ++ commandWrites f) words t ∧ t.bte = s.bte) (ReadFailed s0 block) := by
  unfold blockCommand
  dsimp only
  split
  · exact ⟨h.transact f, transact_bte f s⟩
  · exact (h.transact f).failRead (.inl rfl) (by rw [transact_bte]; exact hn) hw (by simp [hp])

/-- Phases Select, DataSetup and Command (R217 to R219). -/
theorem readSetup_sat (h : BlockAt s0 block [] [] s) (hn : s.bte.n ≤ 128) :
    (readSetup s).Sat
      (BlockAt s0 block (commandWrites (s0.cfg.selectFrame s0.cd.relativeAddress) ++
        [.writeDlen 512, .writeDctrl 0b11] ++ commandWrites (s0.cfg.readSingleFrame (translateBlock s0.cd.cls block))) [])
      (ReadFailed s0 block) := by
  unfold readSetup
  refine (readCommand_sat (h.enterPhase .select) _ hn (by simp) rfl).andThen ?_
  rintro t ⟨ht, hb⟩
  have h1 : BlockAt s0 block _ [] (writeDlen 512 (Machine.enterPhase .dataSetup t)) :=
    (ht.enterPhase .dataSetup).access rfl rfl rfl rfl rfl rfl rfl rfl rfl rfl
  have h2 : BlockAt s0 block _ [] (writeDctrl 0b11 (writeDlen 512 (Machine.enterPhase .dataSetup t))) :=
    h1.access rfl rfl rfl rfl rfl rfl rfl rfl rfl rfl
  have hn2 : t.bte.n ≤ 128 := by rw [hb]; exact hn
  refine (readCommand_sat (h2.enterPhase .command) _ hn2 (by simp) rfl).andThen ?_
  rintro u ⟨hu, -⟩
  have h3 := hu.enterPhase .stream
  have hc : t.cfg = s0.cfg := ht.cfg
  have hd : t.bte.addr = translateBlock s0.cd.cls block := ht.addr
  have hs : s.cfg.selectFrame s.cd.relativeAddress = s0.cfg.selectFrame s0.cd.relativeAddress := by rw [h.cfg, h.cd]
  simp only [Access.isWrite, if_true, writeDctrl_cfg, writeDlen_cfg, enterPhase_cfg, writeDctrl_bte, writeDlen_bte,
    enterPhase_bte, hc, hd, hs] at h3
  simpa using h3

/-- One pass of the drain loop, up to its counter read (R220): it never faults, and pops one word or none. -/
theorem drainPop_next (h : BlockAt s0 block written words s) (hn : s.bte.n = words.length) (hle : words.length ≤ 128) :
    ∃ t words', drainPop (readSta s).2 (readSta s).1 = .next t ∧ BlockAt s0 block written words' t ∧
      t.bte.n = words'.length ∧ words'.length ≤ 128 := by
  have h1 : BlockAt s0 block written words (readSta s).1 := by
    have := h.access (t := (readSta s).1) rfl rfl rfl rfl rfl rfl rfl rfl rfl rfl
    simpa [Access.isWrite] using this
  unfold drainPop
  by_cases hc : (readSta s).1.bte.n < 128 ∧ staRxDavl (readSta s).2 = true
  · rw [if_pos hc]
    have hne : (readSta s).1.env.rx ≠ [] := by
      have := hc.2
      rw [readSta_value, Env.sta_rxDavl] at this
      intro h'
      rw [readSta_env, Env.seen_rx] at h'
      rw [h'] at this
      simp at this
    obtain ⟨ws, hws⟩ := (readSta s).1.env.move_rx
    unfold fifoPop
    cases hrx : (readSta s).1.env.move.rx with
    | nil =>
      rw [hrx] at hws
      exact absurd (List.append_eq_nil_iff.1 hws.symm).1 hne
    | cons w rest =>
      have hlt : words.length < 128 := by
        have := hc.1
        rw [readSta_bte, hn] at this
        exact this
      refine ⟨_, words ++ [w], rfl, ?_, ?_, ?_⟩
      · exact
          { cd := h1.cd
            seq := h1.seq
            wbuf := h1.wbuf
            request := h1.request
            decoded := h1.decoded
            cfg := h1.cfg
            entered := (seqEntered_of_access (a := .fifoPop w) rfl).trans h1.entered
            acknowledged := h1.acknowledged
            target := h1.target
            addr := h1.addr
            writes := by
              rw [(views_of_accesses (accesses_of_access (s := (readSta s).1) (a := .fifoPop w) rfl)).1, h1.writes]
              simp [Access.isWrite]
            popped := by
              rw [(views_of_accesses (accesses_of_access (s := (readSta s).1) (a := .fifoPop w) rfl)).2.2, h1.popped]
              simp [Access.popped?]
            rbuf := by
              show (readSta s).1.port.rbuf.storeWord s.bte.n w = _
              rw [h1.rbuf, hn, Memory.storeWords_concat, Nat.zero_add]
            freed := h1.freed }
      · show s.bte.n + 1 = _
        rw [hn, List.length_append]
        rfl
      · rw [List.length_append]
        exact hlt
  · rw [if_neg hc]
    exact ⟨_, words, rfl, h1, by rw [readSta_bte]; exact hn, hle⟩

/-- The drain loop (R220). -/
theorem drainLoop_sat (k : Nat) {s : State} {words : List Word} (h : BlockAt s0 block written words s)
    (hn : s.bte.n = words.length) (hle : words.length ≤ 128) (hp : written.filterMap Access.pushed? = []) :
    ∃ flow, drainLoop k s = .next flow ∧
      flow.Sat (fun t => ∃ words', words'.length = 128 ∧ BlockAt s0 block written words' t ∧ t.bte.n = 128)
        (ReadFailed s0 block) := by
  induction k generalizing s words with
  | zero => exact ⟨_, rfl, h.failRead (.inr rfl) (by rw [hn]; exact hle) hle hp⟩
  | succ k ih =>
    obtain ⟨t, words', h1, h2, h3, h4⟩ := drainPop_next h hn hle
    have h5 : BlockAt s0 block written words' (readDcount t).1 := by
      have := h2.access (t := (readDcount t).1) rfl rfl rfl rfl rfl rfl rfl rfl rfl rfl
      simpa [Access.isWrite] using this
    unfold drainLoop
    dsimp only
    rw [h1]
    dsimp only
    by_cases hc : (readDcount t).1.bte.n = 128 ∧ (readDcount t).2 = 0
    · rw [if_pos hc]
      have hn' : t.bte.n = 128 := hc.1
      exact ⟨_, rfl, words', by rw [← h3]; exact hn', h5, hn'⟩
    · rw [if_neg hc]
      exact ih (h5.setCounters _ _) h3 h4

/-- The last phase of a read (R221). -/
theorem readDeselect_end (h : BlockAt s0 block written words s) (hn : s.bte.n ≤ 128) (hw : words.length ≤ 128)
    (hp : written.filterMap Access.pushed? = []) :
    ((blockDeselect failRead s).port.status = .ok ∧
        BlockEnd s0 block (written ++ commandWrites s0.cfg.deselectFrame) words (blockDeselect failRead s) ∧
        (blockDeselect failRead s).port.rbuf = s0.port.rbuf.storeWords 0 words ∧
        (blockDeselect failRead s).freed = s0.freed) ∨
      ReadFailed s0 block (blockDeselect failRead s) := by
  have h1 := (h.enterPhase .deselect).transact s0.cfg.deselectFrame
  unfold blockDeselect
  dsimp only
  rw [h.cfg]
  split
  · exact .inl ⟨rfl, h1.finish (by rw [transact_bte]; exact hn), h1.rbuf, h1.freed⟩
  · exact .inr (h1.failRead (.inl rfl) (by rw [transact_bte]; exact hn) hw (by simp [hp]))

/-- A read of a block in range, from its preamble to its end (R216): it never faults. -/
theorem readBlock_end (ha : s.t.ackPending = false) :
    ∃ t, readBlock block s = .next t ∧
      ((t.port.status = .ok ∧ ∃ words, words.length = 128 ∧ t.bte.n ≤ 128 ∧
          BlockEnd s block (commandWrites (s.cfg.selectFrame s.cd.relativeAddress) ++
            [.writeDlen 512, .writeDctrl 0b11] ++
            commandWrites (s.cfg.readSingleFrame (translateBlock s.cd.cls block)) ++
            commandWrites s.cfg.deselectFrame) words t ∧
          t.port.rbuf = s.port.rbuf.storeWords 0 words ∧ t.freed = s.freed) ∨
        ReadFailed s block t) := by
  have h1 := readSetup_sat (preamble_at (block := block) ha) (by simp [preamble])
  unfold readBlock
  cases hf : readSetup (preamble block s) with
  | ended t =>
    rw [hf] at h1
    exact ⟨t, rfl, .inr h1⟩
  | running t =>
    rw [hf] at h1
    have h1 : BlockAt s block _ [] t := h1
    obtain ⟨flow, h2, h3⟩ := drainLoop_sat s.cfg.nRx (h1.setCounters 0 0) rfl (by simp)
      rfl
    dsimp only
    unfold drain
    rw [show t.cfg.nRx = s.cfg.nRx from congrArg Config.nRx h1.cfg, h2]
    refine ⟨_, rfl, h3.finally (k := blockDeselect failRead)
      (P := fun t => (t.port.status = .ok ∧ ∃ words, words.length = 128 ∧ t.bte.n ≤ 128 ∧
          BlockEnd s block (commandWrites (s.cfg.selectFrame s.cd.relativeAddress) ++
            [.writeDlen 512, .writeDctrl 0b11] ++
            commandWrites (s.cfg.readSingleFrame (translateBlock s.cd.cls block)) ++
            commandWrites s.cfg.deselectFrame) words t ∧
          t.port.rbuf = s.port.rbuf.storeWords 0 words ∧ t.freed = s.freed) ∨ ReadFailed s block t)
      (fun u hu => ?_) (fun u hu => .inr hu)⟩
    obtain ⟨words, hw, hu, hn⟩ := hu
    rcases readDeselect_end hu (by omega) (by omega) rfl with hok | hbad
    · exact .inl ⟨hok.1, words, hw, hok.2.1.count, hok.2.1, hok.2.2.1, hok.2.2.2⟩
    · exact .inr hbad

/-! ## The parts of a write -/

theorem State.blockWords_take {n : Nat} (s : State) (hn : n < 128) :
    s.blockWords.take (n + 1) = s.blockWords.take n ++ [s.port.wbuf.loadWord n] := by
  unfold State.blockWords
  rw [List.take_add_one]
  simp [hn]

@[simp] theorem State.blockWords_length (s : State) : s.blockWords.length = 128 := by simp [State.blockWords]

@[simp] theorem filterMap_pushed_fifoPush (ws : List Word) : (ws.map Access.fifoPush).filterMap Access.pushed? = ws := by
  induction ws with
  | nil => rfl
  | cons w ws ih => exact congrArg (List.cons w) ih

@[simp] theorem filterMap_pushed_flatten (j : Nat) (f : Frame) :
    (List.replicate j (commandWrites f)).flatten.filterMap Access.pushed? = [] := by
  induction j with
  | zero => rfl
  | succ j ih =>
    rw [List.replicate_succ, List.flatten_cons, List.filterMap_append, ih]
    rfl

@[simp] theorem filterMap_pushed_dataPath (mask : BitVec 5) (v : Word) (d : BitVec 2) :
    [Access.writeIcr mask, .writeDlen v, .writeDctrl d].filterMap Access.pushed? = [] := rfl

/-- One command of a write (R163). -/
theorem writeCommand_sat (h : BlockAt s0 block written [] s) (f : Frame) (hn : s.bte.n ≤ 128) {n : Nat} (hle : n ≤ 128)
    (hp : written.filterMap Access.pushed? = s0.blockWords.take n) :
    (blockCommand f failWrite s).Sat
      (fun t => BlockAt s0 block (written ++ commandWrites f) [] t ∧ t.bte = s.bte) (WriteFailed s0 block) := by
  unfold blockCommand
  dsimp only
  split
  · exact ⟨h.transact f, transact_bte f s⟩
  · exact (h.transact f).failWrite (.inl rfl) (by rw [transact_bte]; exact hn) hle (by simp [hp])

/-- The ready-for-data loop (R223, R229). -/
theorem readyLoop_sat (k : Nat) {s : State} {written : List Access} (h : BlockAt s0 block written [] s)
    (hn : s.bte.n ≤ 128) {n : Nat} (hle : n ≤ 128) (hp : written.filterMap Access.pushed? = s0.blockWords.take n) :
    (readyLoop k s).Sat
      (fun t => ∃ j, 1 ≤ j ∧ j ≤ k ∧
        BlockAt s0 block (written ++
          (List.replicate j (commandWrites (s0.cfg.getStatusFrame s0.cd.relativeAddress))).flatten) [] t ∧
        t.bte.n = s.bte.n)
      (WriteFailed s0 block) := by
  induction k generalizing s written with
  | zero => exact h.failWrite (.inr rfl) hn hle hp
  | succ k ih =>
    have h1 := h.transact (s0.cfg.getStatusFrame s0.cd.relativeAddress)
    unfold readyLoop
    dsimp only
    rw [h.cfg, h.cd]
    split
    · split
      · exact ⟨1, by omega, by omega, by simpa using h1, by simp⟩
      · have h2 := h1.setCounters (transact (s0.cfg.getStatusFrame s0.cd.relativeAddress) s).bte.n
          ((transact (s0.cfg.getStatusFrame s0.cd.relativeAddress) s).bte.iter + 1)
        refine (ih h2 (by simpa using hn) (by simp [hp])).mono ?_ (fun _ => id)
        rintro t ⟨j, hj1, hj2, hj3, hj4⟩
        refine ⟨j + 1, by omega, by omega, ?_, by rw [hj4]; simp⟩
        rw [List.replicate_succ, List.flatten_cons, ← List.append_assoc]
        exact hj3
    · exact h1.failWrite (.inl rfl) (by simpa using hn) hle (by simp [hp])

theorem readyPoll_sat (h : BlockAt s0 block written [] s) (hn : s.bte.n ≤ 128) {n : Nat} (hle : n ≤ 128)
    (hp : written.filterMap Access.pushed? = s0.blockWords.take n) :
    (readyPoll s).Sat
      (fun t => ∃ j, 1 ≤ j ∧ j ≤ s0.cfg.nReady ∧
        BlockAt s0 block (written ++
          (List.replicate j (commandWrites (s0.cfg.getStatusFrame s0.cd.relativeAddress))).flatten) [] t ∧
        t.bte.n = s.bte.n)
      (WriteFailed s0 block) := by
  unfold readyPoll
  rw [show s.cfg.nReady = s0.cfg.nReady from congrArg Config.nReady h.cfg]
  exact readyLoop_sat s0.cfg.nReady (h.setCounters s.bte.n 0) hn hle hp

/-- Phases Select, ReadyWait1 and Command (R222 to R224). -/
theorem writeSetup_sat (h : BlockAt s0 block [] [] s) (hn : s.bte.n ≤ 128) :
    (writeSetup s).Sat
      (fun t => ∃ j, 1 ≤ j ∧ j ≤ s0.cfg.nReady ∧
        BlockAt s0 block (commandWrites (s0.cfg.selectFrame s0.cd.relativeAddress) ++
          (List.replicate j (commandWrites (s0.cfg.getStatusFrame s0.cd.relativeAddress))).flatten ++
          commandWrites (s0.cfg.writeSingleFrame (translateBlock s0.cd.cls block))) [] t ∧ t.bte.n = s.bte.n)
      (WriteFailed s0 block) := by
  unfold writeSetup
  rw [h.cfg, h.cd]
  refine (writeCommand_sat (h.enterPhase .select) _ hn (n := 0) (by omega) rfl).andThen ?_
  rintro t ⟨ht, hb⟩
  have hn1 : t.bte.n ≤ 128 := by rw [hb]; exact hn
  refine (readyPoll_sat (ht.enterPhase .readyWait1) hn1 (n := 0) (by omega) rfl).andThen ?_
  rintro u ⟨j, hj1, hj2, hu, hn2⟩
  have hn3 : u.bte.n = s.bte.n := by rw [hn2]; show t.bte.n = _; rw [hb]; rfl
  rw [hu.cfg, hu.addr]
  refine (writeCommand_sat (hu.enterPhase .command) _ (by show u.bte.n ≤ 128; omega) (n := 0) (by omega)
    (by simp)).mono ?_ (fun _ => id)
  rintro v ⟨hv, hbv⟩
  refine ⟨j, hj1, hj2, by simpa using hv, ?_⟩
  rw [hbv]
  exact hn3

/-- Phase DataSetup and the first word (R225 to R227). -/
theorem writeData_at (h : BlockAt s0 block written [] s) :
    BlockAt s0 block (written ++ [.writeIcr 0b10000, .writeDlen 512, .writeDctrl 0b01] ++
      (s0.blockWords.take 1).map .fifoPush) [] (writeData s) ∧ (writeData s).bte.n = 1 := by
  have h1 : BlockAt s0 block _ [] (writeIcr 0b10000 (Machine.enterPhase .dataSetup s)) :=
    (h.enterPhase .dataSetup).access rfl rfl rfl rfl rfl rfl rfl rfl rfl rfl
  have h2 : BlockAt s0 block _ [] (writeDlen 512 (writeIcr 0b10000 (Machine.enterPhase .dataSetup s))) :=
    h1.access rfl rfl rfl rfl rfl rfl rfl rfl rfl rfl
  have h3 : BlockAt s0 block _ [] (writeDctrl 0b01 (writeDlen 512 (writeIcr 0b10000 (Machine.enterPhase .dataSetup s)))) :=
    h2.access rfl rfl rfl rfl rfl rfl rfl rfl rfl rfl
  have h4 := h3.enterPhase .stream
  generalize hu : Machine.enterPhase .stream
    (writeDctrl 0b01 (writeDlen 512 (writeIcr 0b10000 (Machine.enterPhase .dataSetup s)))) = u at h4
  have h5 : BlockAt s0 block _ [] (fifoPush (u.port.wbuf.loadWord 0) u) :=
    h4.access rfl rfl rfl rfl rfl rfl rfl rfl rfl rfl
  have h6 := h5.setCounters 1 u.bte.iter
  have hw : u.port.wbuf = s0.port.wbuf := h4.wbuf
  have hdef : writeData s =
      { fifoPush (u.port.wbuf.loadWord 0) u with bte := { (fifoPush (u.port.wbuf.loadWord 0) u).bte with n := 1 } } := by
    rw [← hu]; rfl
  refine ⟨?_, by rw [hdef]⟩
  rw [hdef]
  rw [State.blockWords_take s0 (show 0 < 128 by omega)]
  simpa [Access.isWrite, hw] using h6

/-- The push loop (R228): the words of WBUF in order, never a 129th. -/
theorem pushLoop_sat (k : Nat) {s : State} (hw : written.filterMap Access.pushed? = [])
    (h : BlockAt s0 block (written ++ (s0.blockWords.take s.bte.n).map .fifoPush) [] s) (hn : s.bte.n ≤ 128) :
    (pushLoop k s).Sat
      (fun t => BlockAt s0 block (written ++ s0.blockWords.map .fifoPush) [] t ∧ t.bte.n = 128)
      (WriteFailed s0 block) := by
  induction k generalizing s with
  | zero => exact h.failWrite (.inr rfl) hn hn (by rw [List.filterMap_append, hw, filterMap_pushed_fifoPush]; rfl)
  | succ k ih =>
    have h1 : BlockAt s0 block (written ++ (s0.blockWords.take s.bte.n).map .fifoPush) [] (readSta s).1 := by
      have := h.access (t := (readSta s).1) rfl rfl rfl rfl rfl rfl rfl rfl rfl rfl
      simpa [Access.isWrite] using this
    have hn1 : (readSta s).1.bte.n = s.bte.n := rfl
    unfold pushLoop
    dsimp only
    split
    · split
      · exact h1.failWrite (.inl rfl) hn hn (by rw [List.filterMap_append, hw, filterMap_pushed_fifoPush]; rfl)
      · rename_i hlt
        have hfull : s.bte.n = 128 := by rw [hn1] at hlt; omega
        refine ⟨?_, hfull⟩
        rw [hfull, List.take_of_length_le (by simp)] at h1
        exact h1
    · split
      · rename_i hc
        have hlt : s.bte.n < 128 := hc.2
        generalize hu : (readSta s).1 = u at h1
        have hun : u.bte.n = s.bte.n := by rw [← hu]; rfl
        have h2 : BlockAt s0 block _ [] (fifoPush (u.port.wbuf.loadWord u.bte.n) u) :=
          h1.access rfl rfl rfl rfl rfl rfl rfl rfl rfl rfl
        have h3 := h2.setCounters (s.bte.n + 1) (u.bte.iter + 1)
        have hdef : ({ pushNext u with bte := { (pushNext u).bte with iter := (pushNext u).bte.iter + 1 } } : State) =
            { fifoPush (u.port.wbuf.loadWord u.bte.n) u with
              bte := { (fifoPush (u.port.wbuf.loadWord u.bte.n) u).bte with n := s.bte.n + 1, iter := u.bte.iter + 1 } } := by
          rw [← hun]; rfl
        rw [hdef]
        refine ih ?_ (by show s.bte.n + 1 ≤ 128; omega)
        show BlockAt s0 block (written ++ (s0.blockWords.take (s.bte.n + 1)).map .fifoPush) [] _
        rw [State.blockWords_take s0 hlt, List.map_append, ← List.append_assoc]
        rw [h1.wbuf, hun] at h3 ⊢
        exact h3
      · exact ih (h1.setCounters s.bte.n _) hn

/-- The last phase of a write (R230). -/
theorem writeDeselect_end (h : BlockAt s0 block written [] s) (hn : s.bte.n ≤ 128)
    (hp : written.filterMap Access.pushed? = s0.blockWords) :
    ((blockDeselect failWrite s).port.status = .ok ∧
        BlockEnd s0 block (written ++ commandWrites s0.cfg.deselectFrame) [] (blockDeselect failWrite s) ∧
        (blockDeselect failWrite s).port.rbuf = s0.port.rbuf ∧ (blockDeselect failWrite s).freed = s0.freed) ∨
      WriteFailed s0 block (blockDeselect failWrite s) := by
  have h1 := (h.enterPhase .deselect).transact s0.cfg.deselectFrame
  unfold blockDeselect
  dsimp only
  rw [h.cfg]
  split
  · exact .inl ⟨rfl, h1.finish (by rw [transact_bte]; exact hn), h1.rbuf, h1.freed⟩
  · refine .inr (h1.failWrite (.inl rfl) (by rw [transact_bte]; exact hn) (n := 128) (by omega) ?_)
    rw [List.filterMap_append, hp, List.take_of_length_le (by simp)]
    exact List.append_nil _

/-- The writes of a successful write, between its first GET_STATUS polls `j` and its last `k`. -/
def writeWrites (s0 : State) (block : Word) (j k : Nat) : List Access :=
  commandWrites (s0.cfg.selectFrame s0.cd.relativeAddress) ++
    (List.replicate j (commandWrites (s0.cfg.getStatusFrame s0.cd.relativeAddress))).flatten ++
    commandWrites (s0.cfg.writeSingleFrame (translateBlock s0.cd.cls block)) ++
    [.writeIcr 0b10000, .writeDlen 512, .writeDctrl 0b01] ++ s0.blockWords.map .fifoPush ++
    (List.replicate k (commandWrites (s0.cfg.getStatusFrame s0.cd.relativeAddress))).flatten ++
    commandWrites s0.cfg.deselectFrame

/-- A write of a block in range, from its preamble to its end (R222). -/
theorem writeBlock_end (ha : s.t.ackPending = false) :
    ((writeBlock block s).port.status = .ok ∧ ∃ j k, 1 ≤ j ∧ j ≤ s.cfg.nReady ∧ 1 ≤ k ∧ k ≤ s.cfg.nReady ∧
        BlockEnd s block (writeWrites s block j k) [] (writeBlock block s) ∧
        (writeBlock block s).port.rbuf = s.port.rbuf ∧ (writeBlock block s).freed = s.freed) ∨
      WriteFailed s block (writeBlock block s) := by
  have h1 := writeSetup_sat (preamble_at (block := block) ha) (by simp [preamble])
  have h2 := h1.andThen (k := writeStream)
    (R' := fun t => ∃ j, 1 ≤ j ∧ j ≤ s.cfg.nReady ∧
      BlockAt s block (commandWrites (s.cfg.selectFrame s.cd.relativeAddress) ++
        (List.replicate j (commandWrites (s.cfg.getStatusFrame s.cd.relativeAddress))).flatten ++
        commandWrites (s.cfg.writeSingleFrame (translateBlock s.cd.cls block)) ++
        [.writeIcr 0b10000, .writeDlen 512, .writeDctrl 0b01] ++ s.blockWords.map .fifoPush) [] t ∧ t.bte.n = 128)
    (by
      rintro u ⟨j, hj1, hj2, hu, -⟩
      obtain ⟨hd, hd1⟩ := writeData_at hu
      unfold writeStream
      have h3 := hd.setCounters (writeData u).bte.n 0
      refine (pushLoop_sat (writeData u).cfg.nTx
        (written := commandWrites (s.cfg.selectFrame s.cd.relativeAddress) ++
          (List.replicate j (commandWrites (s.cfg.getStatusFrame s.cd.relativeAddress))).flatten ++
          commandWrites (s.cfg.writeSingleFrame (translateBlock s.cd.cls block)) ++
          [.writeIcr 0b10000, .writeDlen 512, .writeDctrl 0b01])
        (by simp only [List.filterMap_append, commandWrites_pushed, filterMap_pushed_flatten,
          filterMap_pushed_dataPath, List.append_nil])
        (by rw [← hd1] at h3; exact h3)
        (by show (writeData u).bte.n ≤ 128; omega)).mono ?_ (fun _ => id)
      rintro t ⟨ht, hn⟩
      exact ⟨j, hj1, hj2, ht, hn⟩)
  have h3 := h2.andThen (k := fun t => readyPoll (Machine.enterPhase .readyWait2 t))
    (R' := fun t => ∃ j k, 1 ≤ j ∧ j ≤ s.cfg.nReady ∧ 1 ≤ k ∧ k ≤ s.cfg.nReady ∧
      BlockAt s block (commandWrites (s.cfg.selectFrame s.cd.relativeAddress) ++
        (List.replicate j (commandWrites (s.cfg.getStatusFrame s.cd.relativeAddress))).flatten ++
        commandWrites (s.cfg.writeSingleFrame (translateBlock s.cd.cls block)) ++
        [.writeIcr 0b10000, .writeDlen 512, .writeDctrl 0b01] ++ s.blockWords.map .fifoPush ++
        (List.replicate k (commandWrites (s.cfg.getStatusFrame s.cd.relativeAddress))).flatten) [] t ∧ t.bte.n = 128)
    (by
      rintro u ⟨j, hj1, hj2, hu, hn⟩
      refine (readyPoll_sat (hu.enterPhase .readyWait2) (by show u.bte.n ≤ 128; omega) (n := 128) (by omega)
        (by
          simp only [List.filterMap_append, commandWrites_pushed, filterMap_pushed_flatten, filterMap_pushed_dataPath,
            filterMap_pushed_fifoPush, List.nil_append, List.append_nil,
            List.take_of_length_le (State.blockWords_length s).le])).mono ?_ (fun _ => id)
      rintro t ⟨k, hk1, hk2, ht, hn'⟩
      exact ⟨j, k, hj1, hj2, hk1, hk2, ht, hn'.trans hn⟩)
  unfold writeBlock
  refine h3.finally (k := blockDeselect failWrite)
    (P := fun t => (t.port.status = .ok ∧ ∃ j k, 1 ≤ j ∧ j ≤ s.cfg.nReady ∧ 1 ≤ k ∧ k ≤ s.cfg.nReady ∧
        BlockEnd s block (writeWrites s block j k) [] t ∧ t.port.rbuf = s.port.rbuf ∧ t.freed = s.freed) ∨
      WriteFailed s block t) ?_ (fun _ h => .inr h)
  rintro u ⟨j, k, hj1, hj2, hk1, hk2, hu, hn⟩
  rcases writeDeselect_end hu (by omega) (by
      simp only [List.filterMap_append, commandWrites_pushed, filterMap_pushed_flatten, filterMap_pushed_dataPath,
        filterMap_pushed_fifoPush, List.nil_append, List.append_nil]) with hok | hbad
  · exact .inl ⟨hok.1, j, k, hj1, hj2, hk1, hk2, hok.2.1, hok.2.2.1, hok.2.2.2⟩
  · exact .inr hbad

/-! ## The operations -/

/-- RDBLK of a block in range with nothing pending (R216). -/
theorem execRdblk_inRange (hr : s.cd.InRange block) (ha : s.t.ackPending = false) :
    execRdblk block s = readBlock block s := by
  unfold execRdblk
  rw [if_pos ((blockInRange_iff _ _).2 hr), ha]
  rfl

/-- WRBLK of a block in range with nothing pending (R222). -/
theorem execWrblk_inRange (hr : s.cd.InRange block) (ha : s.t.ackPending = false) :
    execWrblk block s = .next (writeBlock block s) := by
  unfold execWrblk
  rw [if_pos ((blockInRange_iff _ _).2 hr), ha]
  rfl

end Sys2Proof.Machine
end

