-- ==== Sys2Proof/Laws/BlockScript.lean ====
section
/-! SUPPORT. The block engine along scripted answers of ENV: which way each part goes when the replies are known. -/

namespace Sys2Proof.Machine

theorem readSta_dataEnd (s : State) : staDataEnd (readSta s).2 = s.env.move.latched.getLsbD 4 := by
  rw [readSta_value, Env.sta_dataEnd]

/-! ## One access with a listed move -/

/-- A quiet move under any access that leaves the flags alone: what the scripted runs need of ENV's side. -/
structure Env.OnMoves (e : Env) (rest : List EnvMove) : Prop where
  script : e.script = rest
  flags : e.NoCommandFlag

/-- A listed move that raises no command flag keeps the command flags clear. -/
theorem Env.OnMoves.move {e : Env} {m : EnvMove} {rest : List EnvMove} (h : e.OnMoves (m :: rest))
    (hm : m.raise.extractLsb' 0 4 = 0#4) : e.move.OnMoves rest := by
  refine ⟨by rw [Env.move_scripted h.script]; rfl, ?_⟩
  rw [Env.noCommandFlag_iff]
  intro i hi
  have h1 := (Env.noCommandFlag_iff e).1 h.flags i hi
  have h2 : m.raise.getLsbD i = false := by
    have := congrArg (fun b => b.getLsbD i) hm
    simpa [-BitVec.getLsbD_eq_getElem, hi] using this
  rw [Env.move_scripted h.script]
  show (e.latched ||| (m.raise &&& e.mayRaise)).getLsbD i = false
  rw [BitVec.getLsbD_or, BitVec.getLsbD_and, h1, h2]
  rfl

/-- One command of a block operation along a script: it goes on exactly if the reply is accepted. -/
theorem blockCommand_script {c : Config} {f : Frame} {r : Reply} {rest : List EnvMove} {s : State}
    (fail : Status → State → State) (hc : s.cfg = c) (h : s.env.OnMoves (r.moves c f ++ rest)) (hn : 1 ≤ c.nCmd) :
    (transact f s).env.OnMoves rest ∧ (transact f s).t.outcome = r.outcome c f ∧
      (transact f s).env.rx = s.env.rx ∧ (transact f s).env.tx = s.env.tx ∧
      (transact f s).env.latched.getLsbD 4 = s.env.latched.getLsbD 4 ∧
      ((r.outcome c f).kind = .accepted → blockCommand f fail s = .running (transact f s)) ∧
      ((r.outcome c f).kind ≠ .accepted → blockCommand f fail s = .ended (fail .protocolError (transact f s))) := by
  subst hc
  obtain ⟨h1, h2⟩ := transact_reply f r h.script h.flags hn
  refine ⟨⟨h2.script, h2.noFlag⟩, h1, h2.rx, h2.tx, h2.dataEnd, fun hk => ?_, fun hk => ?_⟩
  · unfold blockCommand
    dsimp only
    rw [h1, if_pos hk]
  · unfold blockCommand
    dsimp only
    rw [h1, if_neg hk]

/-! ## The drain of placed words (vector B1) -/

theorem drainLoop_script (words : List Word) : ∀ {k : Nat} {s : State} {rest : List EnvMove},
    s.env.OnMoves (drainMoves words ++ rest) → s.env.rx = [] → words ≠ [] → s.bte.n + words.length = 128 →
    words.length ≤ k →
    ∃ t, drainLoop k s = .next (.running t) ∧ t.env.OnMoves rest ∧ t.env.rx = [] ∧ t.popped = s.popped ++ words ∧
      t.port = { s.port with rbuf := s.port.rbuf.storeWords s.bte.n words } ∧ t.bte.n = 128 ∧ t.cfg = s.cfg ∧
      t.cd = s.cd := by
  induction words with
  | nil => intro k s rest _ _ h; exact absurd rfl h
  | cons w ws ih =>
    intro k s rest h hrx _ hlen hk
    rw [List.length_cons] at hlen hk
    obtain ⟨k, rfl⟩ : ∃ k', k = k' + 1 := ⟨k - 1, by omega⟩
    have h0 : s.env.OnMoves ({ EnvMove.quiet with place := [w] } :: .quiet ::
        { EnvMove.quiet with dcount := BitVec.ofNat 32 (4 * ws.length) } :: (drainMoves ws ++ rest)) := h
    have h1 := h0.move rfl
    have hrx1 : s.env.move.rx = [w] := by
      rw [Env.move_scripted h0.script]
      show s.env.rx ++ [w] = [w]
      rw [hrx]
      rfl
    have h1' : (readSta s).1.env.OnMoves _ := ⟨h1.script, h1.flags⟩
    have h2 := h1'.move rfl
    have hrx2 : (readSta s).1.env.move.rx = [w] := by
      rw [Env.move_scripted h1'.script]
      show s.env.move.rx ++ [] = [w]
      rw [hrx1]
      rfl
    obtain ⟨u, hu⟩ : ∃ u : State, u =
      { (readSta s).1 with
        env := { (readSta s).1.env.move with rx := [] },
        log := .access (.fifoPop w) :: (readSta s).1.log,
        port := { s.port with rbuf := s.port.rbuf.storeWord s.bte.n w },
        bte := { s.bte with n := s.bte.n + 1 } } := ⟨_, rfl⟩
    have hpop : drainPop (readSta s).2 (readSta s).1 = .next u := by
      unfold drainPop
      rw [if_pos ⟨by show s.bte.n < 128; omega, by rw [readSta_value, Env.sta_rxDavl, hrx1]; rfl⟩]
      unfold fifoPop
      rw [hrx2, hu]
      rfl
    have h3 : u.env.OnMoves ({ EnvMove.quiet with dcount := BitVec.ofNat 32 (4 * ws.length) } ::
        (drainMoves ws ++ rest)) := ⟨by rw [hu]; exact h2.script, by rw [hu]; exact h2.flags⟩
    have h4 := h3.move rfl
    have hrx4 : u.env.move.rx = [] := by
      rw [Env.move_scripted h3.script]
      show u.env.rx ++ [] = []
      rw [hu]
      rfl
    have hdc : (readDcount u).2 = BitVec.ofNat 32 (4 * ws.length) := by
      rw [readDcount_value, Env.move_scripted h3.script]
      rfl
    have hn : u.bte.n = s.bte.n + 1 := by rw [hu]
    have hpopped : (readDcount u).1.popped = s.popped ++ [w] := by
      rw [(views_of_accesses (readDcount_accesses u)).2.2]
      rw [(views_of_accesses (accesses_of_access (s := (readSta s).1) (t := u) (a := .fifoPop w) (by rw [hu]))).2.2]
      rw [(views_of_accesses (readSta_accesses s)).2.2]
      rw [List.append_assoc, List.append_assoc]
      rfl
    have hport : u.port = { s.port with rbuf := s.port.rbuf.storeWord s.bte.n w } := by rw [hu]
    have hcfg : u.cfg = s.cfg := by rw [hu]; rfl
    have hcd : u.cd = s.cd := by rw [hu]; rfl
    unfold drainLoop
    dsimp only
    rw [hpop]
    dsimp only
    rw [hdc]
    cases ws with
    | nil =>
      rw [List.length_nil] at hlen
      rw [if_pos ⟨by show u.bte.n = 128; omega, rfl⟩]
      exact ⟨_, rfl, ⟨h4.script, h4.flags⟩, hrx4, hpopped, hport, by show u.bte.n = 128; omega, hcfg, hcd⟩
    | cons w' ws' =>
      rw [List.length_cons] at hlen hk
      rw [if_neg (by intro hc; have := hc.1; rw [readDcount_bte, hn] at this; omega)]
      obtain ⟨t, i1, i2, i3, i4, i5, i6, i7, i8⟩ := ih (k := k) (rest := rest)
        (s := { (readDcount u).1 with bte := { (readDcount u).1.bte with iter := (readDcount u).1.bte.iter + 1 } })
        ⟨h4.script, h4.flags⟩ hrx4 (by simp) (by show u.bte.n + _ = 128; rw [List.length_cons]; omega)
        (by rw [List.length_cons]; omega)
      refine ⟨t, i1, i2, i3, ?_, ?_, i6, i7.trans hcfg, i8.trans hcd⟩
      · rw [i4]
        show (readDcount u).1.popped ++ _ = _
        rw [hpopped, List.append_assoc]
        rfl
      · rw [i5]
        show ({ u.port with rbuf := u.port.rbuf.storeWords u.bte.n (w' :: ws') } : HostPort) = _
        rw [hport, hn]
        rfl

/-! ## The ready-for-data loop -/

/-- Busy answers, then what the loop does next (R223). -/
theorem readyLoop_busy {c : Config} {rca : Rca} (busy : List Reply) : ∀ {k : Nat} {s : State} {rest : List EnvMove},
    s.cfg = c → 1 ≤ c.nCmd → s.cd.relativeAddress = rca →
    s.env.OnMoves (answers c (readyExchanges c rca busy) ++ rest) → (∀ r ∈ busy, StatusReply c rca r false) →
    ∃ t, readyLoop (busy.length + k) s = readyLoop k t ∧ t.env.OnMoves rest ∧ t.env.tx = s.env.tx ∧
      t.env.latched.getLsbD 4 = s.env.latched.getLsbD 4 ∧ t.port = s.port ∧
      t.cd = s.cd ∧ t.cfg = c ∧ t.bte = { s.bte with iter := s.bte.iter + busy.length } ∧
      t.writes = s.writes ++ framesWrites (List.replicate busy.length (c.getStatusFrame rca)) ∧
      t.pushed = s.pushed := by
  induction busy with
  | nil =>
    intro k s rest hc _ _ h _
    exact ⟨s, by rw [List.length_nil, Nat.zero_add], h, rfl, rfl, rfl, rfl, hc, rfl, by simp [framesWrites], rfl⟩
  | cons r rs ih =>
    intro k s rest hc hn hrca h hb
    have h0 : s.env.OnMoves (r.moves c (c.getStatusFrame rca) ++ (answers c (readyExchanges c rca rs) ++ rest)) := by
      simpa [readyExchanges] using h
    obtain ⟨h1, h2, h3, h4, h5, -, -⟩ := blockCommand_script failWrite hc h0 hn
    have hr := hb r (by simp)
    generalize hu : transact (c.getStatusFrame rca) s = u at *
    have hucfg : u.cfg = c := by rw [← hu]; simp [hc]
    have hucd : u.cd = s.cd := by rw [← hu]; simp
    have hubte : u.bte = s.bte := by rw [← hu]; simp
    have huport : u.port = s.port := by rw [← hu]; simp
    obtain ⟨t, i1, i2, i3, il, i4, i5, i6, i7, i8, i9⟩ := ih (k := k)
      (s := { u with bte := { u.bte with iter := u.bte.iter + 1 } }) hucfg hn (by show u.cd.relativeAddress = rca; rw [hucd, hrca])
      h1 (fun r' hr' => hb r' (by simp [hr']))
    refine ⟨t, ?_, i2, i3.trans h4, il.trans h5, i4.trans huport, i5.trans hucd, i6, ?_, ?_, ?_⟩
    · rw [List.length_cons, show rs.length + 1 + k = (rs.length + k) + 1 by omega, ← i1]
      conv_lhs => unfold readyLoop
      dsimp only
      rw [hc, hrca, hu, h2, if_pos hr.accepted, hucfg]
      rw [if_neg (by rw [readyForData, hr.flag]; simp)]
    · rw [i7, List.length_cons]
      show ({ u.bte with iter := u.bte.iter + 1 + rs.length } : BlockEngine) = _
      rw [hubte, show s.bte.iter + 1 + rs.length = s.bte.iter + (rs.length + 1) by omega]
    · rw [i8]
      show u.writes ++ _ = _
      rw [← hu, transact_writes, List.append_assoc, List.length_cons, List.replicate_succ]
      rfl
    · rw [i9]
      show u.pushed = _
      rw [← hu, transact_pushed]

/-- Busy answers, then ready (R223). -/
theorem readyPoll_script {c : Config} {rca : Rca} (busy : List Reply) (last : Reply) {s : State} {rest : List EnvMove}
    (hc : s.cfg = c) (hn : 1 ≤ c.nCmd) (hrca : s.cd.relativeAddress = rca)
    (h : s.env.OnMoves (answers c (readyExchanges c rca (busy ++ [last])) ++ rest))
    (hb : ∀ r ∈ busy, StatusReply c rca r false) (hl : StatusReply c rca last true) (hlen : busy.length < c.nReady) :
    ∃ t, readyPoll s = .running t ∧ t.env.OnMoves rest ∧ t.env.tx = s.env.tx ∧
      t.env.latched.getLsbD 4 = s.env.latched.getLsbD 4 ∧ t.port = s.port ∧ t.cd = s.cd ∧
      t.cfg = c ∧ t.bte.n = s.bte.n ∧ t.bte.addr = s.bte.addr := by
  obtain ⟨k, hk⟩ : ∃ k, c.nReady = busy.length + (k + 1) := ⟨c.nReady - busy.length - 1, by omega⟩
  have h0 : s.env.OnMoves (answers c (readyExchanges c rca busy) ++ (last.moves c (c.getStatusFrame rca) ++ rest)) := by
    simpa [readyExchanges] using h
  obtain ⟨t, i1, i2, i3, il, i4, i5, i6, i7, -, -⟩ := readyLoop_busy busy (k := k + 1)
    (s := { s with bte := { s.bte with iter := 0 } }) hc hn hrca h0 hb
  obtain ⟨h1, h2, h3, h4, h5, -, -⟩ := blockCommand_script failWrite i6 i2 hn
  refine ⟨transact (c.getStatusFrame rca) t, ?_, h1, h4.trans i3, h5.trans il, by rw [transact_port, i4], by rw [transact_cd, i5],
    by rw [transact_cfg, i6], by rw [transact_bte, i7], by rw [transact_bte, i7]⟩
  unfold readyPoll
  rw [show s.cfg.nReady = busy.length + (k + 1) by rw [hc, hk], i1]
  unfold readyLoop
  dsimp only
  rw [i6, i5]
  show (if (transact (c.getStatusFrame s.cd.relativeAddress) t).t.outcome.kind = .accepted then _ else _) = _
  rw [hrca, h2, if_pos hl.accepted, transact_cfg, i6, if_pos (by rw [readyForData, hl.flag])]

/-! ## The push of a block (vector B8) -/

/-- Room at each status read, one word a pass, then DATAEND (R228). -/
theorem pushLoop_script (j : Nat) : ∀ {k : Nat} {s : State} {rest : List EnvMove},
    s.env.OnMoves ((List.replicate j [{ EnvMove.quiet with txhe := true }, .quiet]).flatten ++
      ({ EnvMove.quiet with raise := 0b10000 } :: rest)) →
    s.env.latched.getLsbD 4 = false → s.bte.n + j = 128 → j + 1 ≤ k →
    ∃ t, pushLoop k s = .running t ∧ t.env.OnMoves rest ∧ t.env.latched.getLsbD 4 = true ∧
      t.env.tx = s.env.tx ++ s.blockWords.drop s.bte.n ∧ t.port = s.port ∧ t.cd = s.cd ∧ t.cfg = s.cfg ∧
      t.bte.n = 128 := by
  induction j with
  | zero =>
    intro k s rest h _ hlen hk
    obtain ⟨k, rfl⟩ : ∃ k', k = k' + 1 := ⟨k - 1, by omega⟩
    have h0 : s.env.OnMoves ({ EnvMove.quiet with raise := 0b10000 } :: rest) := h
    have h1 := h0.move (show (0b10000#5).extractLsb' 0 4 = 0#4 by decide)
    have hl : s.env.move.latched.getLsbD 4 = true := by
      rw [Env.move_scripted h0.script]
      show (s.env.latched ||| (0b10000#5 &&& s.env.mayRaise)).getLsbD 4 = true
      simp only [BitVec.getLsbD_or, BitVec.getLsbD_and, Env.mayRaise, BitVec.getLsbD_append]
      simp
    have htx : s.env.move.tx = s.env.tx := by
      rw [Env.move_scripted h0.script]
      rfl
    unfold pushLoop
    dsimp only
    rw [if_pos (by rw [readSta_dataEnd]; exact hl), if_neg (by show ¬ s.bte.n < 128; omega)]
    refine ⟨_, rfl, ⟨h1.script, h1.flags⟩, hl, ?_, rfl, rfl, rfl, by show s.bte.n = 128; omega⟩
    rw [List.drop_of_length_le (by rw [State.blockWords_length]; omega), List.append_nil]
    exact htx
  | succ j ih =>
    intro k s rest h hd hlen hk
    obtain ⟨k, rfl⟩ : ∃ k', k = k' + 1 := ⟨k - 1, by omega⟩
    have h0 : s.env.OnMoves ({ EnvMove.quiet with txhe := true } :: .quiet ::
        ((List.replicate j [{ EnvMove.quiet with txhe := true }, .quiet]).flatten ++
          ({ EnvMove.quiet with raise := 0b10000 } :: rest))) := by
      simpa [List.replicate_succ] using h
    have h1 := h0.move (show (0#5).extractLsb' 0 4 = 0#4 by decide)
    have quiet4 : ∀ (e : Env) (m : EnvMove) (ms : List EnvMove), e.script = m :: ms → m.raise = 0 → m.take = 0 →
        e.move.latched.getLsbD 4 = e.latched.getLsbD 4 ∧ e.move.tx = e.tx := by
      intro e m ms he hm ht
      rw [Env.move_scripted he]
      exact ⟨by simp [Env.apply, hm], by simp [Env.apply, ht]⟩
    have k1 := quiet4 _ _ _ h0.script rfl rfl
    have h1' : (readSta s).1.env.OnMoves (.quiet ::
        ((List.replicate j [{ EnvMove.quiet with txhe := true }, .quiet]).flatten ++
          ({ EnvMove.quiet with raise := 0b10000 } :: rest))) := ⟨h1.script, h1.flags⟩
    have h2 := h1'.move (show (0#5).extractLsb' 0 4 = 0#4 by decide)
    have k2 := quiet4 _ _ _ h1'.script rfl rfl
    have hroom : s.env.move.txhe = true := by
      rw [Env.move_scripted h0.script]
      rfl
    unfold pushLoop
    dsimp only
    rw [if_neg (by rw [readSta_dataEnd, k1.1, hd]; simp),
      if_pos ⟨by rw [readSta_value, Env.sta_txHe]; exact hroom, by show s.bte.n < 128; omega⟩]
    obtain ⟨t, i1, i2, i3, i4, i5, i6, i7, i8⟩ := ih (k := k) (rest := rest)
      (s := { pushNext (readSta s).1 with
        bte := { (pushNext (readSta s).1).bte with iter := (pushNext (readSta s).1).bte.iter + 1 } })
      ⟨h2.script, h2.flags⟩ (by exact k2.1.trans (k1.1.trans hd)) (by show s.bte.n + 1 + j = 128; omega) (by omega)
    refine ⟨t, i1, i2, i3, ?_, i5, i6, i7, i8⟩
    rw [i4]
    show ((readSta s).1.env.move.tx ++ [s.port.wbuf.loadWord s.bte.n]) ++ s.blockWords.drop (s.bte.n + 1) = _
    rw [k2.2]
    show (s.env.move.tx ++ [s.port.wbuf.loadWord s.bte.n]) ++ s.blockWords.drop (s.bte.n + 1) = _
    rw [k1.2, List.append_assoc]
    congr 1
    have hlt : s.bte.n < s.blockWords.length := by rw [State.blockWords_length]; omega
    rw [List.drop_eq_getElem_cons hlt]
    simp [State.blockWords]

/-- The last phase along a script (R221, R230). -/
theorem blockDeselect_script {r : Reply} {rest : List EnvMove} {s : State} (fail : Status → State → State)
    (h : s.env.OnMoves (r.moves s.cfg s.cfg.deselectFrame ++ rest)) (hn : 1 ≤ s.cfg.nCmd)
    (hk : (r.outcome s.cfg s.cfg.deselectFrame).kind.quietOk) :
    blockDeselect fail s = finish .ok 0 (enterPhase .idle (transact s.cfg.deselectFrame (enterPhase .deselect s))) ∧
      (transact s.cfg.deselectFrame (enterPhase .deselect s)).env.rx = s.env.rx ∧
      (transact s.cfg.deselectFrame (enterPhase .deselect s)).env.tx = s.env.tx ∧
      (transact s.cfg.deselectFrame (enterPhase .deselect s)).env.latched.getLsbD 4 = s.env.latched.getLsbD 4 := by
  have h0 : (enterPhase .deselect s).env.OnMoves (r.moves s.cfg s.cfg.deselectFrame ++ rest) := h
  obtain ⟨-, h2, h3, h4, h5, -, -⟩ := blockCommand_script fail rfl h0 hn
  refine ⟨?_, h3, h4, h5⟩
  unfold blockDeselect
  dsimp only
  rw [h2, enterPhase_cfg, if_pos ((acceptedNoReply_iff _).2 hk)]

end Sys2Proof.Machine
end

