-- ==== Sys2Proof/Laws/Course.lean ====
section
/-! SUPPORT. The log of an operation, event by event: what each named operation adds to it, and what one transaction
adds. -/

namespace Sys2Proof.Machine

/-! ## The events of each operation -/

theorem events_of_log {s t : State} {e : Event} (h : t.log = e :: s.log) : t.events = s.events ++ [e] := by
  simp [State.events, h]

@[simp] theorem enterPhase_events (ph : Phase) (s : State) : (enterPhase ph s).events = s.events ++ [.phase ph] :=
  events_of_log rfl
@[simp] theorem enterSeq_events (st : SeqState) (s : State) : (enterSeq st s).events = s.events ++ [.seq st] :=
  events_of_log rfl
@[simp] theorem writeIcr_events (m : BitVec 5) (s : State) :
    (writeIcr m s).events = s.events ++ [.access (.writeIcr m)] := events_of_log rfl
@[simp] theorem writeDlen_events (v : Word) (s : State) :
    (writeDlen v s).events = s.events ++ [.access (.writeDlen v)] := events_of_log rfl
@[simp] theorem writeDctrl_events (v : BitVec 2) (s : State) :
    (writeDctrl v s).events = s.events ++ [.access (.writeDctrl v)] := events_of_log rfl
@[simp] theorem readSta_events (s : State) :
    (readSta s).1.events = s.events ++ [.access (.readSta (readSta s).2)] := events_of_log rfl
@[simp] theorem readDcount_events (s : State) :
    (readDcount s).1.events = s.events ++ [.access (.readDcount (readDcount s).2)] := events_of_log rfl
@[simp] theorem fifoPush_events (w : Word) (s : State) :
    (fifoPush w s).events = s.events ++ [.access (.fifoPush w)] := events_of_log rfl
@[simp] theorem abortInit_events (c : ErrorCode) (s : State) : (abortInit c s).events = s.events ++ [.seq .error] :=
  events_of_log rfl
@[simp] theorem failRead_events (st : Status) (s : State) : (failRead st s).events = s.events ++ [.phase .idle] :=
  events_of_log rfl
@[simp] theorem failWrite_events (st : Status) (s : State) : (failWrite st s).events = s.events ++ [.phase .idle] :=
  events_of_log rfl

/-! ## What a command logs -/

/-- Between the logs of `s` and `t` there are interface accesses only. -/
def State.OnlyAccesses (s t : State) : Prop := ∃ made : List Access, t.events = s.events ++ made.map .access

theorem State.OnlyAccesses.of_log {s t : State} (h : t.log = s.log) : s.OnlyAccesses t := ⟨[], by simp [State.events, h]⟩

theorem State.OnlyAccesses.of_access {s t : State} {a : Access} (h : t.log = .access a :: s.log) : s.OnlyAccesses t :=
  ⟨[a], events_of_log h⟩

theorem State.OnlyAccesses.trans {s t u : State} (h : s.OnlyAccesses t) (h' : t.OnlyAccesses u) : s.OnlyAccesses u := by
  obtain ⟨a, ha⟩ := h
  obtain ⟨b, hb⟩ := h'
  exact ⟨a ++ b, by rw [hb, ha, List.map_append, List.append_assoc]⟩

theorem pollStatus_onlyAccesses (k : Nat) (s : State) : s.OnlyAccesses (pollStatus k s).1 := by
  induction k generalizing s with
  | zero => exact .of_log rfl
  | succ k ih =>
    unfold pollStatus
    dsimp only
    split
    · exact .of_access rfl
    · exact State.OnlyAccesses.trans (.of_access rfl) (ih _)

theorem classify_onlyAccesses (f : Frame) (sta : Option (BitVec 7)) (s : State) :
    s.OnlyAccesses (classify f sta s).1 := by
  unfold classify
  split
  · exact .of_log rfl
  · dsimp only
    split
    · exact .of_access rfl
    · split
      · exact .of_log rfl
      · split <;> exact .of_log rfl

theorem extract_onlyAccesses (f : Frame) (kind : OutcomeKind) (s : State) : s.OnlyAccesses (extract f kind s).1 := by
  unfold extract
  split
  · cases f.expectedResponse with
    | none => exact .of_log rfl
    | short => exact .of_access rfl
    | long =>
      exact State.OnlyAccesses.trans (.of_access rfl)
        (State.OnlyAccesses.trans (.of_access rfl) (State.OnlyAccesses.trans (.of_access rfl) (.of_access rfl)))
    | reserved => exact .of_log rfl
  · exact .of_log rfl

theorem transact_onlyAccesses (f : Frame) (s : State) : s.OnlyAccesses (transact f s) := by
  have h0 : s.OnlyAccesses (startCommand f s) :=
    State.OnlyAccesses.trans (t := writeArg f.argument s) (.of_access rfl) (.of_access rfl)
  have h1 := h0.trans (pollStatus_onlyAccesses (startCommand f s).cfg.nCmd (startCommand f s))
  have h2 := h1.trans (classify_onlyAccesses f (pollStatus (startCommand f s).cfg.nCmd (startCommand f s)).2 _)
  have h3 := h2.trans (extract_onlyAccesses f
    (classify f (pollStatus (startCommand f s).cfg.nCmd (startCommand f s)).2
      (pollStatus (startCommand f s).cfg.nCmd (startCommand f s)).1).2 _)
  exact h3.trans (.of_access rfl)

theorem accesses_of_events {s t : State} {made : List Access} (h : t.events = s.events ++ made.map .access) :
    t.accesses = s.accesses ++ made := by
  have hm : (made.map Event.access).filterMap Event.access? = made := by
    rw [List.filterMap_map]
    exact List.filterMap_some
  show t.events.filterMap _ = s.events.filterMap _ ++ made
  rw [h, List.filterMap_append, hm]

/-- What one transaction logs. -/
theorem transact_exchanged (f : Frame) (s : State) :
    ∃ l, Exchanged s.cfg f (transact f s).t.outcome l ∧ (transact f s).events = s.events ++ l := by
  obtain ⟨answer, hans, -, hacc⟩ := transact_trace f s
  obtain ⟨made, hm⟩ := transact_onlyAccesses f s
  have hmade := accesses_of_events hm
  rw [hacc, List.append_assoc, List.append_assoc, List.append_cancel_left_eq] at hmade
  exact ⟨_, ⟨answer, hans, rfl⟩, by rw [hm, ← hmade]; rfl⟩

@[simp] theorem transact_lastExchange (f : Frame) (s : State) :
    (transact f s).lastExchange = ⟨f, (transact f s).t.outcome⟩ := by
  unfold State.lastExchange
  rw [transact_frame]

/-! ## The views of what a command logs -/

@[simp] theorem Exchanged.phases {c : Config} {f : Frame} {o : ResponseOutcome} {l : List Event}
    (h : Exchanged c f o l) : l.filterMap Event.phase? = [] := by
  obtain ⟨answer, -, rfl⟩ := h
  rw [List.filterMap_map]
  exact List.filterMap_eq_nil_iff.2 fun _ _ => rfl

/-- The writes of a list of events. -/
def eventWrites (l : List Event) : List Access := (l.filterMap Event.access?).filter Access.isWrite

@[simp] theorem eventWrites_append (a b : List Event) : eventWrites (a ++ b) = eventWrites a ++ eventWrites b := by
  simp [eventWrites]

theorem Exchanged.writes {c : Config} {f : Frame} {o : ResponseOutcome} {l : List Event} (h : Exchanged c f o l) :
    eventWrites l = commandWrites f := by
  obtain ⟨answer, hans, rfl⟩ := h
  have ha : answer.filter Access.isWrite = [] := List.filter_eq_nil_iff.2 fun a ha => by simp [hans.no_write a ha]
  have hm : ∀ l : List Access, (l.map Event.access).filterMap Event.access? = l := fun l => by
    rw [List.filterMap_map]
    exact List.filterMap_some
  unfold eventWrites commandAccesses
  rw [hm, List.filter_append, List.filter_append, ha]
  rfl

theorem writes_of_events {s t : State} {made : List Event} (h : t.events = s.events ++ made) :
    t.writes = s.writes ++ eventWrites made := by
  show (t.events.filterMap _).filter _ = (s.events.filterMap _).filter _ ++ _
  rw [h, List.filterMap_append, List.filter_append]
  rfl

theorem phasesEntered_of_events {s t : State} {made : List Event} (h : t.events = s.events ++ made) :
    t.phasesEntered = s.phasesEntered ++ made.filterMap Event.phase? := by
  show t.events.filterMap _ = s.events.filterMap _ ++ _
  rw [h, List.filterMap_append]

end Sys2Proof.Machine
end

