-- ==== Sys2Proof/Laws/Ends.lean ====
section
/-! SUPPORT. The course of a block operation: each part of RDBLK and WRBLK goes on as `ReadCourse` and `WriteCourse` say, or
ends by one of the causes `ReadEnd` and `WriteEnd` list (44_block_transfer.md R216 to R231). -/

namespace Sys2Proof.Machine

/-- A state inside a block operation on `block` requested in `s0`, on a course `C`. -/
structure BlockOn (s0 : State) (block : Word) (C : Nat → Nat → Exchange → List Event → Prop) (s : State) : Prop where
  cfg : s.cfg = s0.cfg
  cd : s.cd = s0.cd
  addr : s.bte.addr = translateBlock s0.cd.cls block
  wbuf : s.port.wbuf = s0.port.wbuf
  course : ∃ made, s.events = s0.events ++ made ∧ C s.bte.n s.bte.iter s.lastExchange made

section parts

variable {s0 s : State} {block : Word} {C C' : Nat → Nat → Exchange → List Event → Prop}

/-- Something that is no command goes on. -/
theorem BlockOn.step (h : BlockOn s0 block C s) {t : State} {after : List Event} (he : t.events = s.events ++ after)
    (hcfg : t.cfg = s.cfg) (hcd : t.cd = s.cd) (haddr : t.bte.addr = s.bte.addr) (hwbuf : t.port.wbuf = s.port.wbuf)
    (ht : t.t = s.t)
    (hc : ∀ made, C s.bte.n s.bte.iter s.lastExchange made → C' t.bte.n t.bte.iter s.lastExchange (made ++ after)) :
    BlockOn s0 block C' t where
  cfg := hcfg.trans h.cfg
  cd := hcd.trans h.cd
  addr := haddr.trans h.addr
  wbuf := hwbuf.trans h.wbuf
  course := by
    obtain ⟨made, hm, hx⟩ := h.course
    refine ⟨made ++ after, by rw [he, hm, List.append_assoc], ?_⟩
    rw [show t.lastExchange = s.lastExchange by unfold State.lastExchange; rw [ht]]
    exact hc made hx

/-- The engine's counters are set. -/
theorem BlockOn.setCounters (h : BlockOn s0 block C s) {n i : Nat} (hc : ∀ n' i' x made, C n' i' x made → C' n i x made) :
    BlockOn s0 block C' { s with bte := { s.bte with n := n, iter := i } } where
  cfg := h.cfg
  cd := h.cd
  addr := h.addr
  wbuf := h.wbuf
  course := by
    obtain ⟨made, hm, hx⟩ := h.course
    exact ⟨made, hm, hc _ _ _ _ hx⟩

/-- A command goes on. -/
theorem BlockOn.passed (h : BlockOn s0 block C s) (f : Frame) {t : State} {after : List Event}
    (he : t.events = (transact f s).events ++ after) (hcfg : t.cfg = (transact f s).cfg) (hcd : t.cd = (transact f s).cd)
    (haddr : t.bte.addr = (transact f s).bte.addr) (hwbuf : t.port.wbuf = (transact f s).port.wbuf)
    (ht : t.t = (transact f s).t)
    (hc : ∀ x made l, C s.bte.n s.bte.iter x made → Exchanged s0.cfg f (transact f s).t.outcome l →
      C' t.bte.n t.bte.iter ⟨f, (transact f s).t.outcome⟩ (made ++ l ++ after)) :
    BlockOn s0 block C' t where
  cfg := by rw [hcfg, transact_cfg, h.cfg]
  cd := by rw [hcd, transact_cd, h.cd]
  addr := by rw [haddr, transact_bte, h.addr]
  wbuf := by rw [hwbuf, transact_port, h.wbuf]
  course := by
    obtain ⟨made, hm, hx⟩ := h.course
    obtain ⟨l, hl, hev⟩ := transact_exchanged f s
    rw [h.cfg] at hl
    refine ⟨made ++ l ++ after, by rw [he, hev, hm]; simp, ?_⟩
    rw [show t.lastExchange = (transact f s).lastExchange by unfold State.lastExchange; rw [ht], transact_lastExchange]
    exact hc _ _ _ hx hl

/-- What a command has logged, where the operation ends after it. -/
theorem BlockOn.last (h : BlockOn s0 block C s) (f : Frame) :
    ∃ made, (transact f s).events = s0.events ++ made ∧
      ∃ x before l, C (transact f s).bte.n (transact f s).bte.iter x before ∧
        Exchanged s0.cfg f (transact f s).t.outcome l ∧ (transact f s).t.frame = f ∧ made = before ++ l := by
  obtain ⟨made, hm, hx⟩ := h.course
  obtain ⟨l, hl, hev⟩ := transact_exchanged f s
  rw [h.cfg] at hl
  exact ⟨made ++ l, by rw [hev, hm, List.append_assoc], s.lastExchange, made, l, by rw [transact_bte]; exact hx, hl,
    transact_frame f s, rfl⟩

end parts

section read

variable {s0 s : State} {block : Word} {ph : Phase}

/-- A read has ended by one of its causes. -/
def ReadEnded (s0 : State) (block : Word) (t : State) : Prop :=
  ∃ made, t.events = s0.events ++ made ∧ ReadEnd s0 t block made t.port.status

/-- A read on its course fails after a command. -/
theorem ReadEnded.of_last (h : BlockOn s0 block (ReadCourse s0 block ph) s) (f : Frame) {st : Status}
    (he : ∀ made, ReadLast s0 (failRead st (transact f s)) block ph f made →
      ReadEnd s0 (failRead st (transact f s)) block (made ++ [.phase .idle]) st) :
    ReadEnded s0 block (failRead st (transact f s)) := by
  obtain ⟨made, hm, hl⟩ := h.last f
  exact ⟨made ++ [.phase .idle], by rw [failRead_events, hm, List.append_assoc], he made hl⟩

/-- A command of a read: `go` says how it goes on, `fail` gives the cause of its end. -/
theorem readCommand_course (h : BlockOn s0 block (ReadCourse s0 block ph) s) (f : Frame) {R : State → Prop}
    (go : (transact f s).t.outcome.kind = .accepted → R (transact f s))
    (fail : (transact f s).t.outcome.kind ≠ .accepted → ∀ made,
      ReadLast s0 (failRead .protocolError (transact f s)) block ph f made →
      ReadEnd s0 (failRead .protocolError (transact f s)) block (made ++ [.phase .idle]) .protocolError) :
    (blockCommand f failRead s).Sat R (ReadEnded s0 block) := by
  unfold blockCommand
  dsimp only
  split
  · exact go ‹_›
  · exact .of_last h f (fail ‹_›)

/-- Phases Select, DataSetup and Command of a read (R217 to R219), and the counters set to 0 (R220). -/
theorem readSetup_course (h : BlockOn s0 block (ReadCourse s0 block .select) (enterPhase .select s)) (hn : s.bte.n = 0) :
    (readSetup s).Sat
      (fun t => BlockOn s0 block (ReadCourse s0 block .stream) { t with bte := { t.bte with n := 0, iter := 0 } })
      (ReadEnded s0 block) := by
  unfold readSetup
  rw [show s.cfg = s0.cfg from h.cfg, show s.cd = s0.cd from h.cd]
  refine (readCommand_course (R := fun u => BlockOn s0 block (ReadCourse s0 block .dataSetup) (enterPhase .dataSetup u) ∧
      u.bte.n = 0) h _ (fun ha => ⟨?_, ?_⟩) fun hk made hl => .selectFailed hl hk ?_).andThen ?_
  · refine h.passed _ (enterPhase_events _ _) rfl rfl rfl rfl rfl fun x made l hx hl => ?_
    simpa using hx.dataSetup hl ha
  · simpa using hn
  · simpa using hn
  rintro u ⟨hu, hn1⟩
  dsimp only
  have h2 : BlockOn s0 block (ReadCourse s0 block .command)
      (enterPhase .command (writeDctrl 0b11 (writeDlen 512 (enterPhase .dataSetup u)))) :=
    hu.step (after := [.access (.writeDlen 512), .access (.writeDctrl 0b11), .phase .command]) (by simp) rfl rfl rfl rfl
      rfl fun made hx => hx.command
  have hn2 : (enterPhase .command (writeDctrl 0b11 (writeDlen 512 (enterPhase .dataSetup u)))).bte.n = 0 := hn1
  rw [show (writeDctrl 0b11 (writeDlen 512 (enterPhase .dataSetup u))).cfg = s0.cfg from h2.cfg,
    show (writeDctrl 0b11 (writeDlen 512 (enterPhase .dataSetup u))).bte.addr = _ from h2.addr]
  generalize enterPhase .command (writeDctrl 0b11 (writeDlen 512 (enterPhase .dataSetup u))) = v at h2 hn2
  refine (readCommand_course (R := fun w => BlockOn s0 block (ReadCourse s0 block .stream)
      { enterPhase .stream w with bte := { (enterPhase .stream w).bte with n := 0, iter := 0 } }) h2 _
      (fun ha => ?_) fun hk made hl => .commandFailed hl hk ?_).andThen fun w hw => hw
  · have h3 : BlockOn s0 block (fun _ _ => ReadCourse s0 block .stream 0 0)
        (enterPhase .stream (transact (s0.cfg.readSingleFrame (translateBlock s0.cd.cls block)) v)) :=
      h2.passed _ (enterPhase_events .stream _) rfl rfl rfl rfl rfl fun x made l hx hl => hx.stream hl ha
    exact h3.setCounters fun _ _ _ _ h => h
  · simpa using hn2

/-- One pass of the drain loop (R220). -/
theorem drainPop_course {t : State} (hp : drainPop (readSta s).2 (readSta s).1 = .next t) :
    ∃ l, t.events = s.events ++ l ∧ DrainPass s.bte.n t.bte.n (readDcount t).2
        (l ++ [.access (.readDcount (readDcount t).2)]) ∧
      t.cfg = s.cfg ∧ t.cd = s.cd ∧ t.bte.addr = s.bte.addr ∧ t.bte.iter = s.bte.iter ∧ t.port.wbuf = s.port.wbuf ∧
      t.t = s.t := by
  unfold drainPop at hp
  split at hp
  · rename_i hc
    unfold fifoPop at hp
    cases hrx : (readSta s).1.env.move.rx with
    | nil => rw [hrx] at hp; cases hp
    | cons w rest =>
      rw [hrx] at hp
      cases hp
      exact ⟨[.access (.readSta (readSta s).2), .access (.fifoPop w)], by simp [State.events],
        .pop w _ hc.1 hc.2, rfl, rfl, rfl, rfl, rfl, rfl⟩
  · rename_i hc
    cases hp
    exact ⟨[.access (.readSta (readSta s).2)], readSta_events s, .noPop _ hc, rfl, rfl, rfl, rfl, rfl, rfl⟩

/-- The drain loop with `k` passes left (R220). -/
theorem drainLoop_course (k : Nat) {s : State} (h : BlockOn s0 block (ReadCourse s0 block .stream) s) {flow : Flow}
    (hk : s.bte.iter + k = s0.cfg.nRx) (hf : drainLoop k s = .next flow) :
    flow.Sat (fun t => BlockOn s0 block (ReadCourse s0 block .deselect) (enterPhase .deselect t) ∧ t.bte.n = 128)
      (ReadEnded s0 block) := by
  induction k generalizing s with
  | zero =>
    cases hf
    obtain ⟨made, hm, hx⟩ := h.course
    exact ⟨made ++ [.phase .idle], by rw [failRead_events, hm, List.append_assoc],
      ReadEnd.drainExpired (t := failRead .timeout s) hx hk⟩
  | succ k ih =>
    unfold drainLoop at hf
    dsimp only at hf
    cases hp : drainPop (readSta s).2 (readSta s).1 with
    | fault e => rw [hp] at hf; cases hf
    | refused e => rw [hp] at hf; cases hf
    | next u =>
      rw [hp] at hf
      obtain ⟨l, hl, hpass, hcfg, hcd, haddr, hiter, hwbuf, ht⟩ := drainPop_course hp
      have hev : (readDcount u).1.events = s.events ++ (l ++ [.access (.readDcount (readDcount u).2)]) := by
        rw [readDcount_events, hl, List.append_assoc]
      dsimp only at hf
      split at hf
      · rename_i hc
        cases hf
        have hn : u.bte.n = 128 := hc.1
        rw [hn, hc.2] at hpass
        refine ⟨h.step (after := l ++ [.access (.readDcount (readDcount u).2)] ++ [.phase .deselect])
          (by rw [enterPhase_events, hev]; simp) hcfg hcd haddr hwbuf ht fun made hx => ?_, hn⟩
        have := hx.deselect (by omega) hpass
        show ReadCourse s0 block .deselect u.bte.n u.bte.iter _ _
        rw [hn, hiter, hc.2]
        simpa using this
      · rename_i hc
        have h1 : BlockOn s0 block (fun n i => ReadCourse s0 block .stream n (i + 1)) (readDcount u).1 :=
          h.step hev hcfg hcd haddr hwbuf ht fun made hx => by
            show ReadCourse s0 block .stream u.bte.n (u.bte.iter + 1) _ _
            rw [hiter]
            exact hx.pass (by omega) hpass hc
        refine ih (s := { (readDcount u).1 with
            bte := { (readDcount u).1.bte with iter := (readDcount u).1.bte.iter + 1 } })
          ⟨h1.cfg, h1.cd, h1.addr, h1.wbuf, h1.course⟩ ?_ hf
        · show u.bte.iter + 1 + k = _
          omega

/-- A read of a block in range ends by one of its causes. -/
theorem readBlock_ends {t : State} (ht : readBlock block s = .next t) : ReadEnded s block t := by
  have h0 : BlockOn s block (ReadCourse s block .select) (enterPhase .select (preamble block s)) :=
    ⟨rfl, rfl, rfl, rfl, [.phase .select], enterPhase_events .select (preamble block s), .select⟩
  have h1 := readSetup_course h0 rfl
  unfold readBlock at ht
  cases hf : readSetup (preamble block s) with
  | ended u =>
    rw [hf] at ht h1
    cases ht
    exact h1
  | running u =>
    rw [hf] at ht h1
    have h1 : BlockOn s block (ReadCourse s block .stream) { u with bte := { u.bte with n := 0, iter := 0 } } := h1
    dsimp only at ht
    unfold drain at ht
    rw [show u.cfg.nRx = s.cfg.nRx from congrArg Config.nRx h1.cfg] at ht
    cases hd : drainLoop s.cfg.nRx { u with bte := { u.bte with n := 0, iter := 0 } } with
    | fault e => rw [hd] at ht; cases ht
    | refused e => rw [hd] at ht; cases ht
    | next flow =>
      rw [hd] at ht
      cases ht
      refine (drainLoop_course _ h1 (Nat.zero_add _) hd).finally (fun v hv => ?_) (fun _ => id)
      unfold blockDeselect
      dsimp only
      rw [show v.cfg = s.cfg from hv.1.cfg]
      split
      · rename_i hk
        obtain ⟨made, hm, hl⟩ := hv.1.last s.cfg.deselectFrame
        exact ⟨made ++ [.phase .idle], by rw [← List.append_assoc, ← hm]; exact enterPhase_events .idle _,
          ReadEnd.delivered (t := finish .ok 0 (enterPhase .idle _)) hl ((acceptedNoReply_iff _).1 hk)
            (by simpa using hv.2)⟩
      · rename_i hk
        exact .of_last hv.1 _ fun made hl => .deselectFailed hl (fun hq => hk ((acceptedNoReply_iff _).2 hq))
          (by simpa using hv.2)

end read

section write

variable {s0 s : State} {block : Word} {ph : Phase}

/-- A write has ended by one of its causes. -/
def WriteEnded (s0 : State) (block : Word) (t : State) : Prop :=
  ∃ made, t.events = s0.events ++ made ∧ WriteEnd s0 t block made t.port.status

/-- A write on its course fails after a command. -/
theorem WriteEnded.of_last (h : BlockOn s0 block (WriteCourse s0 block ph) s) (f : Frame) {st : Status}
    (he : ∀ made, WriteLast s0 (failWrite st (transact f s)) block ph f made →
      WriteEnd s0 (failWrite st (transact f s)) block (made ++ [.phase .idle]) st) :
    WriteEnded s0 block (failWrite st (transact f s)) := by
  obtain ⟨made, hm, hl⟩ := h.last f
  exact ⟨made ++ [.phase .idle], by rw [failWrite_events, hm, List.append_assoc], he made hl⟩

/-- A write on its course fails without a command. -/
theorem WriteEnded.of_course (h : BlockOn s0 block (WriteCourse s0 block ph) s) {st : Status}
    (he : ∀ made, WriteCourse s0 block ph s.bte.n s.bte.iter s.lastExchange made →
      WriteEnd s0 (failWrite st s) block (made ++ [.phase .idle]) st) :
    WriteEnded s0 block (failWrite st s) := by
  obtain ⟨made, hm, hx⟩ := h.course
  exact ⟨made ++ [.phase .idle], by rw [failWrite_events, hm, List.append_assoc], he made hx⟩

/-- A command of a write: `go` says how it goes on, `fail` gives the cause of its end. -/
theorem writeCommand_course (h : BlockOn s0 block (WriteCourse s0 block ph) s) (f : Frame) {R : State → Prop}
    (go : (transact f s).t.outcome.kind = .accepted → R (transact f s))
    (fail : (transact f s).t.outcome.kind ≠ .accepted → ∀ made,
      WriteLast s0 (failWrite .protocolError (transact f s)) block ph f made →
      WriteEnd s0 (failWrite .protocolError (transact f s)) block (made ++ [.phase .idle]) .protocolError) :
    (blockCommand f failWrite s).Sat R (WriteEnded s0 block) := by
  unfold blockCommand
  dsimp only
  split
  · exact go ‹_›
  · exact .of_last h f (fail ‹_›)

/-- A ready-for-data poll with `k` passes left (R223, R229), in the phase `ph`, before the phase `next`. -/
theorem readyLoop_course (k : Nat) {s : State} {m : Nat} {next : Phase} (hph : ph = .readyWait1 ∨ ph = .readyWait2)
    (go : ∀ {i x made o l}, WriteCourse s0 block ph m i x made → i < s0.cfg.nReady →
      Exchanged s0.cfg (s0.cfg.getStatusFrame s0.cd.relativeAddress) o l → o.kind = .accepted →
      o.words.w0.getLsbD s0.cfg.rfdBit.val = true →
      WriteCourse s0 block next m i ⟨s0.cfg.getStatusFrame s0.cd.relativeAddress, o⟩ (made ++ l ++ [.phase next]))
    (failed : ∀ {t made}, WriteLast s0 t block ph (s0.cfg.getStatusFrame s0.cd.relativeAddress) made →
      t.t.outcome.kind ≠ .accepted → t.bte.n = m → t.bte.iter < s0.cfg.nReady →
      WriteEnd s0 t block (made ++ [.phase .idle]) .protocolError)
    (expired : ∀ {t made}, WriteCourse s0 block ph t.bte.n t.bte.iter t.lastExchange made →
      t.bte.iter = s0.cfg.nReady → t.bte.n = m → WriteEnd s0 t block (made ++ [.phase .idle]) .timeout)
    (h : BlockOn s0 block (WriteCourse s0 block ph) s) (hn : s.bte.n = m) (hk : s.bte.iter + k = s0.cfg.nReady) :
    (readyLoop k s).Sat (fun t => BlockOn s0 block (WriteCourse s0 block next) (enterPhase next t) ∧ t.bte.n = m)
      (WriteEnded s0 block) := by
  induction k generalizing s with
  | zero => exact .of_course h fun made hx => expired (t := failWrite .timeout s) hx hk hn
  | succ k ih =>
    unfold readyLoop
    dsimp only
    rw [h.cfg, h.cd]
    split
    · rename_i ha
      rw [show readyForData (transact (s0.cfg.getStatusFrame s0.cd.relativeAddress) s).cfg = readyForData s0.cfg by
        rw [transact_cfg, h.cfg]]
      split
      · rename_i hr
        refine ⟨h.passed _ (enterPhase_events next _) rfl rfl rfl rfl rfl fun x made l hx hl => ?_, by simpa using hn⟩
        rw [hn] at hx
        have h1 := go hx (by omega) hl ha hr
        rw [← hn] at h1
        simpa using h1
      · rename_i hr
        have h1 : BlockOn s0 block (fun n i => WriteCourse s0 block ph n (i + 1))
            (transact (s0.cfg.getStatusFrame s0.cd.relativeAddress) s) :=
          h.passed _ (after := []) (List.append_nil _).symm rfl rfl rfl rfl rfl fun x made l hx hl => by
            rw [transact_bte, List.append_nil]
            exact hx.busy hph (by omega) hl ha (Bool.eq_false_iff.2 hr)
        refine ih (s := { transact (s0.cfg.getStatusFrame s0.cd.relativeAddress) s with
            bte := { (transact (s0.cfg.getStatusFrame s0.cd.relativeAddress) s).bte with
              iter := (transact (s0.cfg.getStatusFrame s0.cd.relativeAddress) s).bte.iter + 1 } })
          ⟨h1.cfg, h1.cd, h1.addr, h1.wbuf, h1.course⟩ (by simpa using hn) (by simp; omega)
    · rename_i ha
      exact .of_last h _ fun made hl => failed hl ha (by simpa using hn) (by simp; omega)

/-- Phases Select, ReadyWait1 and Command of a write (R222 to R224). -/
theorem writeSetup_course (h : BlockOn s0 block (WriteCourse s0 block .select) (enterPhase .select s)) (hn : s.bte.n = 0) :
    (writeSetup s).Sat
      (fun t => BlockOn s0 block (WriteCourse s0 block .dataSetup) (enterPhase .dataSetup t) ∧ t.bte.n = 0)
      (WriteEnded s0 block) := by
  unfold writeSetup
  rw [show s.cfg = s0.cfg from h.cfg, show s.cd = s0.cd from h.cd]
  refine (writeCommand_course (R := fun u => BlockOn s0 block (fun n _ => WriteCourse s0 block .readyWait1 n 0)
      (enterPhase .readyWait1 u) ∧ u.bte.n = 0) h _ (fun ha => ⟨?_, ?_⟩) fun hk made hl => .selectFailed hl hk ?_).andThen ?_
  · refine h.passed _ (enterPhase_events _ _) rfl rfl rfl rfl rfl fun x made l hx hl => ?_
    simpa using hx.readyWait1 hl ha
  · simpa using hn
  · simpa using hn
  rintro u ⟨hu, hn1⟩
  unfold readyPoll
  rw [show (enterPhase .readyWait1 u).cfg.nReady = s0.cfg.nReady from congrArg Config.nReady hu.cfg]
  refine (readyLoop_course (m := 0) (next := .command) _ (.inl rfl) (fun hx hi hl ha hr => hx.command hi hl ha hr)
    (fun hl hk hm hi => .statusFailed hl hk hm hi) (fun hx hi hm => .notReady hx hi hm)
    (s := { enterPhase .readyWait1 u with bte := { (enterPhase .readyWait1 u).bte with iter := 0 } })
    ⟨hu.cfg, hu.cd, hu.addr, hu.wbuf, hu.course⟩ hn1 (Nat.zero_add _)).andThen ?_
  rintro v ⟨hv, hn2⟩
  rw [show v.cfg = s0.cfg from hv.cfg, show v.bte.addr = _ from hv.addr]
  refine writeCommand_course hv _ (fun ha => ⟨?_, by simpa using hn2⟩) fun hk made hl =>
    .commandFailed hl hk (by simpa using hn2)
  refine hv.passed _ (enterPhase_events .dataSetup _) rfl rfl rfl rfl rfl fun x made l hx hl => ?_
  simpa using hx.dataSetup hl ha

/-- Phase DataSetup of a write, and the first word (R225 to R227). -/
theorem writeData_course (h : BlockOn s0 block (WriteCourse s0 block .dataSetup) (enterPhase .dataSetup s)) :
    BlockOn s0 block (fun n _ => WriteCourse s0 block .stream n 0) (writeData s) := by
  refine h.step (after := [.access (.writeIcr 0b10000), .access (.writeDlen 512), .access (.writeDctrl 0b01),
    .phase .stream, .access (.fifoPush (s0.port.wbuf.loadWord 0))]) ?_ rfl rfl rfl rfl rfl fun made hx => hx.stream
  show (fifoPush (s.port.wbuf.loadWord 0) (enterPhase .stream
    (writeDctrl 0b01 (writeDlen 512 (writeIcr 0b10000 (enterPhase .dataSetup s)))))).events = _
  rw [show s.port.wbuf = s0.port.wbuf from h.wbuf]
  simp

/-- The push loop with `k` passes left (R228). -/
theorem pushLoop_course (k : Nat) {s : State} (h : BlockOn s0 block (WriteCourse s0 block .stream) s)
    (hk : s.bte.iter + k = s0.cfg.nTx) (h1 : 1 ≤ s.bte.n) (h2 : s.bte.n ≤ 128) :
    (pushLoop k s).Sat
      (fun t => BlockOn s0 block (fun n _ => WriteCourse s0 block .readyWait2 n 0) (enterPhase .readyWait2 t) ∧
        t.bte.n = 128)
      (WriteEnded s0 block) := by
  induction k generalizing s with
  | zero => exact .of_course h fun made hx => .pushExpired (t := failWrite .timeout s) hx hk h1 h2
  | succ k ih =>
    unfold pushLoop
    dsimp only
    split
    · rename_i hd
      split
      · rename_i hlt
        obtain ⟨made, hm, hx⟩ := h.course
        refine ⟨made ++ [.access (.readSta (readSta s).2)] ++ [.phase .idle], by rw [failWrite_events, readSta_events, hm]; simp,
          .endedEarly (t := failWrite .protocolError (readSta s).1) hx ?_ hd h1 hlt⟩
        show s.bte.iter < _
        omega
      · rename_i hlt
        have hn : s.bte.n = 128 := le_antisymm h2 (not_lt.1 hlt)
        refine ⟨h.step (after := [.access (.readSta (readSta s).2), .phase .readyWait2])
          (by rw [enterPhase_events, readSta_events]; simp) rfl rfl rfl rfl rfl fun made hx => ?_, hn⟩
        show WriteCourse s0 block .readyWait2 s.bte.n 0 _ _
        rw [hn] at hx ⊢
        exact hx.readyWait2 (by omega) hd
    · rename_i hd
      have hd : staDataEnd (readSta s).2 = false := by simpa using hd
      split
      · rename_i hc
        have h3 : BlockOn s0 block (fun n i => WriteCourse s0 block .stream n (i + 1)) (pushNext (readSta s).1) := by
          refine h.step (after := [.access (.readSta (readSta s).2), .access (.fifoPush (s0.port.wbuf.loadWord s.bte.n))])
            ?_ rfl rfl rfl rfl rfl fun made hx => hx.push (by omega) hd hc.1 hc.2
          show (fifoPush (s.port.wbuf.loadWord s.bte.n) (readSta s).1).events = _
          rw [h.wbuf]
          simp
        exact ih (s := { pushNext (readSta s).1 with
            bte := { (pushNext (readSta s).1).bte with iter := (pushNext (readSta s).1).bte.iter + 1 } })
          ⟨h3.cfg, h3.cd, h3.addr, h3.wbuf, h3.course⟩ (by show s.bte.iter + 1 + k = _; omega) (Nat.le_add_left 1 _) hc.2
      · rename_i hc
        have h3 : BlockOn s0 block (fun n i => WriteCourse s0 block .stream n (i + 1)) (readSta s).1 :=
          h.step (readSta_events s) rfl rfl rfl rfl rfl fun made hx => hx.wait (by omega) hd hc
        exact ih (s := { (readSta s).1 with bte := { (readSta s).1.bte with iter := (readSta s).1.bte.iter + 1 } })
          ⟨h3.cfg, h3.cd, h3.addr, h3.wbuf, h3.course⟩ (by show s.bte.iter + 1 + k = _; omega) h1 h2

/-- A write of a block in range ends by one of its causes. -/
theorem writeBlock_ends (s : State) (block : Word) : WriteEnded s block (writeBlock block s) := by
  have h0 : BlockOn s block (WriteCourse s block .select) (enterPhase .select (preamble block s)) :=
    ⟨rfl, rfl, rfl, rfl, [.phase .select], enterPhase_events .select (preamble block s), .select⟩
  have h2 := (writeSetup_course h0 rfl).andThen (k := writeStream)
    (R' := fun t => BlockOn s block (fun n _ => WriteCourse s block .readyWait2 n 0) (enterPhase .readyWait2 t) ∧
      t.bte.n = 128) (by
    rintro u ⟨hu, -⟩
    have hd := writeData_course hu
    unfold writeStream
    dsimp only
    rw [show (writeData u).cfg.nTx = s.cfg.nTx from congrArg Config.nTx hd.cfg]
    exact pushLoop_course _ (s := { writeData u with bte := { (writeData u).bte with iter := 0 } })
      ⟨hd.cfg, hd.cd, hd.addr, hd.wbuf, hd.course⟩ (Nat.zero_add _) (le_refl 1) (by show 1 ≤ 128; omega))
  have h3 := h2.andThen (k := fun t => readyPoll (enterPhase .readyWait2 t))
    (R' := fun t => BlockOn s block (WriteCourse s block .deselect) (enterPhase .deselect t) ∧ t.bte.n = 128) (by
    rintro u ⟨hu, hn⟩
    unfold readyPoll
    rw [show (enterPhase .readyWait2 u).cfg.nReady = s.cfg.nReady from congrArg Config.nReady hu.cfg]
    exact readyLoop_course (m := 128) (next := .deselect) _ (.inr rfl) (fun hx hi hl ha hr => hx.deselect hi hl ha hr)
      (fun hl hk hm hi => .commitFailed hl hk hm hi) (fun hx hi hm => .notCommitted hx hi hm)
      (s := { enterPhase .readyWait2 u with bte := { (enterPhase .readyWait2 u).bte with iter := 0 } })
      ⟨hu.cfg, hu.cd, hu.addr, hu.wbuf, hu.course⟩ hn (Nat.zero_add _))
  unfold writeBlock
  refine h3.finally (k := blockDeselect failWrite) (P := WriteEnded s block) (fun v hv => ?_) (fun _ => id)
  unfold blockDeselect
  dsimp only
  rw [show v.cfg = s.cfg from hv.1.cfg]
  split
  · rename_i hk
    obtain ⟨made, hm, hl⟩ := hv.1.last s.cfg.deselectFrame
    exact ⟨made ++ [.phase .idle], by rw [← List.append_assoc, ← hm]; exact enterPhase_events .idle _,
      WriteEnd.committed (t := finish .ok 0 (enterPhase .idle _)) hl ((acceptedNoReply_iff _).1 hk)
        (by simpa using hv.2)⟩
  · rename_i hk
    exact .of_last hv.1 _ fun made hl => .deselectFailed hl (fun hq => hk ((acceptedNoReply_iff _).2 hq))
      (by simpa using hv.2)

end write

/-! ## The phases of a course -/

/-- How many phases a read has entered, by the phase it stands in. -/
def readPlace : Phase → Nat
  | .idle => 0
  | .select => 1
  | .dataSetup => 2
  | .command => 3
  | .stream => 4
  | .deselect => 5
  | .readyWait1 => 0
  | .readyWait2 => 0

/-- How many phases a write has entered, by the phase it stands in. -/
def writePlace : Phase → Nat
  | .idle => 0
  | .select => 1
  | .readyWait1 => 2
  | .command => 3
  | .dataSetup => 4
  | .stream => 5
  | .readyWait2 => 6
  | .deselect => 7

theorem DrainPass.phases {n m : Nat} {count : Word} {l : List Event} (h : DrainPass n m count l) :
    l.filterMap Event.phase? = [] := by cases h <;> rfl

section phases

variable {s : State} {block : Word} {ph : Phase} {n i : Nat} {x : Exchange} {made : List Event}

theorem ReadCourse.phases (h : ReadCourse s block ph n i x made) :
    1 ≤ readPlace ph ∧ made.filterMap Event.phase? =
      [Phase.select, .dataSetup, .command, .stream, .deselect].take (readPlace ph) := by
  induction h with
  | select => exact ⟨le_refl 1, rfl⟩
  | dataSetup _ exchange _ ih => simp [ih.2, exchange.phases, readPlace, Event.phase?]
  | command _ ih => exact ⟨by simp [readPlace], by rw [List.filterMap_append, ih.2]; rfl⟩
  | stream _ exchange _ ih => simp [ih.2, exchange.phases, readPlace, Event.phase?]
  | pass _ _ made' _ ih => simp [ih.2, made'.phases, readPlace]
  | deselect _ _ made' ih => simp [ih.2, made'.phases, readPlace, Event.phase?]

theorem WriteCourse.phases (h : WriteCourse s block ph n i x made) :
    1 ≤ writePlace ph ∧ made.filterMap Event.phase? =
      [Phase.select, .readyWait1, .command, .dataSetup, .stream, .readyWait2, .deselect].take (writePlace ph) := by
  induction h with
  | select => exact ⟨le_refl 1, rfl⟩
  | readyWait1 _ exchange _ ih => simp [ih.2, exchange.phases, writePlace, Event.phase?]
  | busy _ _ _ exchange _ _ ih => simpa [exchange.phases] using ih
  | command _ _ exchange _ _ ih => simp [ih.2, exchange.phases, writePlace, Event.phase?]
  | dataSetup _ exchange _ ih => simp [ih.2, exchange.phases, writePlace, Event.phase?]
  | stream _ ih => exact ⟨by simp [writePlace], by rw [List.filterMap_append, ih.2]; rfl⟩
  | push _ _ _ _ _ ih => exact ⟨ih.1, by rw [List.filterMap_append, ih.2]; rfl⟩
  | wait _ _ _ _ ih => exact ⟨ih.1, by rw [List.filterMap_append, ih.2]; rfl⟩
  | readyWait2 _ _ _ ih => exact ⟨by simp [writePlace], by rw [List.filterMap_append, ih.2]; rfl⟩
  | deselect _ _ exchange _ _ ih => simp [ih.2, exchange.phases, writePlace, Event.phase?]

/-- The phases a read entered, to its end. -/
theorem ReadEnd.phases {t : State} {st : Status} (h : ReadEnd s t block made st) :
    ∃ k, 1 ≤ k ∧ k ≤ 5 ∧ (st = .ok → k = 5) ∧ made.filterMap Event.phase? =
      [Phase.select, .dataSetup, .command, .stream, .deselect].take k ++ [.idle] := by
  have last : ∀ {ph f made}, ReadLast s t block ph f made → made.filterMap Event.phase? =
      [Phase.select, .dataSetup, .command, .stream, .deselect].take (readPlace ph) := by
    rintro ph f _ ⟨x, before, l, hc, hl, -, rfl⟩
    rw [List.filterMap_append, hc.phases.2, hl.phases, List.append_nil]
  cases h with
  | delivered hl => exact ⟨5, by omega, by omega, fun _ => rfl, by rw [List.filterMap_append, last hl]; rfl⟩
  | selectFailed hl => exact ⟨1, by omega, by omega, nofun, by rw [List.filterMap_append, last hl]; rfl⟩
  | commandFailed hl => exact ⟨3, by omega, by omega, nofun, by rw [List.filterMap_append, last hl]; rfl⟩
  | deselectFailed hl => exact ⟨5, by omega, by omega, nofun, by rw [List.filterMap_append, last hl]; rfl⟩
  | drainExpired hc => exact ⟨4, by omega, by omega, nofun, by rw [List.filterMap_append, hc.phases.2]; rfl⟩

/-- The phases a write entered, to its end. -/
theorem WriteEnd.phases {t : State} {st : Status} (h : WriteEnd s t block made st) :
    ∃ k, 1 ≤ k ∧ k ≤ 7 ∧ (st = .ok → k = 7) ∧ made.filterMap Event.phase? =
      [Phase.select, .readyWait1, .command, .dataSetup, .stream, .readyWait2, .deselect].take k ++ [.idle] := by
  have last : ∀ {ph f made}, WriteLast s t block ph f made → made.filterMap Event.phase? =
      [Phase.select, .readyWait1, .command, .dataSetup, .stream, .readyWait2, .deselect].take (writePlace ph) := by
    rintro ph f _ ⟨x, before, l, hc, hl, -, rfl⟩
    rw [List.filterMap_append, hc.phases.2, hl.phases, List.append_nil]
  cases h with
  | committed hl => exact ⟨7, by omega, by omega, fun _ => rfl, by rw [List.filterMap_append, last hl]; rfl⟩
  | selectFailed hl => exact ⟨1, by omega, by omega, nofun, by rw [List.filterMap_append, last hl]; rfl⟩
  | statusFailed hl => exact ⟨2, by omega, by omega, nofun, by rw [List.filterMap_append, last hl]; rfl⟩
  | notReady hc => exact ⟨2, by omega, by omega, nofun, by rw [List.filterMap_append, hc.phases.2]; rfl⟩
  | commandFailed hl => exact ⟨3, by omega, by omega, nofun, by rw [List.filterMap_append, last hl]; rfl⟩
  | endedEarly hc =>
    exact ⟨5, by omega, by omega, nofun, by rw [List.filterMap_append, List.filterMap_append, hc.phases.2]; rfl⟩
  | pushExpired hc => exact ⟨5, by omega, by omega, nofun, by rw [List.filterMap_append, hc.phases.2]; rfl⟩
  | commitFailed hl => exact ⟨6, by omega, by omega, nofun, by rw [List.filterMap_append, last hl]; rfl⟩
  | notCommitted hc => exact ⟨6, by omega, by omega, nofun, by rw [List.filterMap_append, hc.phases.2]; rfl⟩
  | deselectFailed hl => exact ⟨7, by omega, by omega, nofun, by rw [List.filterMap_append, last hl]; rfl⟩

theorem ReadEnded.phases {t : State} (h : ReadEnded s block t) :
    ∃ k, 1 ≤ k ∧ k ≤ 5 ∧ (t.port.status = .ok → k = 5) ∧ t.phasesEntered = s.phasesEntered ++
      ([Phase.select, .dataSetup, .command, .stream, .deselect].take k ++ [.idle]) := by
  obtain ⟨made, hm, hx⟩ := h
  obtain ⟨k, h1, h2, h3, h4⟩ := hx.phases
  exact ⟨k, h1, h2, h3, by rw [phasesEntered_of_events hm, h4]⟩

theorem WriteEnded.phases {t : State} (h : WriteEnded s block t) :
    ∃ k, 1 ≤ k ∧ k ≤ 7 ∧ (t.port.status = .ok → k = 7) ∧ t.phasesEntered = s.phasesEntered ++
      ([Phase.select, .readyWait1, .command, .dataSetup, .stream, .readyWait2, .deselect].take k ++ [.idle]) := by
  obtain ⟨made, hm, hx⟩ := h
  obtain ⟨k, h1, h2, h3, h4⟩ := hx.phases
  exact ⟨k, h1, h2, h3, by rw [phasesEntered_of_events hm, h4]⟩

end phases

end Sys2Proof.Machine
end

