-- ==== Sys2Proof/Laws/Init.lean ====
section
/-! SUPPORT. INIT part by part: what each state of the sequencer does when it passes, and what an abort leaves
(42_init_sequencer.md R171 to R184). -/

namespace Sys2Proof.Machine

/-- The first eight states, in order (R172). -/
def initStates : List SeqState :=
  [.reset, .interfaceCondition, .operatingConditionsPoll, .classFinalize, .addressAssign, .descriptorFetch,
    .blockLengthFix, .selectBusWidth]

/-- What INIT never touches, against the state it was requested in. -/
structure InitBase (s0 s : State) : Prop where
  bte : s.bte = s0.bte
  dlen : s.p.dlen = s0.p.dlen
  dctrl : s.p.dctrl = s0.p.dctrl
  wbuf : s.port.wbuf = s0.port.wbuf
  rbuf : s.port.rbuf = s0.port.rbuf
  request : s.port.request = s0.port.request
  decoded : s.decoded = s0.decoded
  freed : s.freed = s0.freed
  cfg : s.cfg = s0.cfg
  pushed : s.pushed = s0.pushed
  popped : s.popped = s0.popped

theorem InitBase.transact {s0 s : State} (h : InitBase s0 s) (f : Frame) : InitBase s0 (transact f s) where
  bte := (transact_bte f s).trans h.bte
  dlen := by simp [h.dlen]
  dctrl := by simp [h.dctrl]
  wbuf := by simp [h.wbuf]
  rbuf := by simp [h.rbuf]
  request := by simp [h.request]
  decoded := by simp [h.decoded]
  freed := by simp [h.freed]
  cfg := by simp [h.cfg]
  pushed := by simp [h.pushed]
  popped := by simp [h.popped]

theorem InitBase.enterSeq {s0 s : State} (h : InitBase s0 s) (st : SeqState) : InitBase s0 (enterSeq st s) where
  bte := h.bte
  dlen := h.dlen
  dctrl := h.dctrl
  wbuf := h.wbuf
  rbuf := h.rbuf
  request := h.request
  decoded := h.decoded
  freed := h.freed
  cfg := h.cfg
  pushed := (views_of_accesses_eq (enterSeq_accesses st s)).2.1.trans h.pushed
  popped := (views_of_accesses_eq (enterSeq_accesses st s)).2.2.trans h.popped

theorem InitBase.setSeq {s0 s : State} (h : InitBase s0 s) (seq : Sequencer) : InitBase s0 { s with seq := seq } :=
  ⟨h.bte, h.dlen, h.dctrl, h.wbuf, h.rbuf, h.request, h.decoded, h.freed, h.cfg, h.pushed, h.popped⟩

theorem InitBase.setCd {s0 s : State} (h : InitBase s0 s) (cd : CardDescriptor) : InitBase s0 { s with cd := cd } :=
  ⟨h.bte, h.dlen, h.dctrl, h.wbuf, h.rbuf, h.request, h.decoded, h.freed, h.cfg, h.pushed, h.popped⟩

theorem InitBase.setBoth {s0 s : State} (h : InitBase s0 s) (seq : Sequencer) (cd : CardDescriptor) :
    InitBase s0 { s with seq := seq, cd := cd } :=
  ⟨h.bte, h.dlen, h.dctrl, h.wbuf, h.rbuf, h.request, h.decoded, h.freed, h.cfg, h.pushed, h.popped⟩

/-! ## What a course of INIT says -/

/-- The frames up to the `k`-th pass of the operating-conditions loop (R173, R174, R176). -/
def pollingFrames (c : Config) (tentative : Tentative) (k : Nat) : List Frame :=
  [c.goIdleFrame, c.sendIfCondFrame] ++
    (List.replicate k [c.appCmdFrame 0, c.sendOpCondFrame (tentative == .highCapacityCandidate)]).flatten

theorem pollingFrames_succ (c : Config) (tentative : Tentative) (k : Nat) :
    pollingFrames c tentative (k + 1) =
      pollingFrames c tentative k ++ [c.appCmdFrame 0, c.sendOpCondFrame (tentative == .highCapacityCandidate)] := by
  simp [pollingFrames, List.replicate_succ']

/-- The frames of AddressAssign, DescriptorFetch and BlockLengthFix (R178 to R180). -/
def addressedFrames (c : Config) (seq : Sequencer) (rca : Rca) : List Frame :=
  [c.publishRcaFrame, c.getCsdFrame rca] ++
    (if seq.tentative = .highCapacityCandidate ∧ seq.ocr.getLsbD 30 = true then [] else [c.setBlocklenFrame])

/-- The frames of the bus-width step (R181). -/
def busWidthFrames (c : Config) (rca : Rca) : List Frame :=
  [c.selectFrame rca, c.appCmdFrame rca, c.setBusWidthFrame, c.deselectFrame]

/-- The frames of a course of INIT, by the state it stands at and the commands passed there. -/
def initFrames (c : Config) (seq : Sequencer) (rca : Rca) (n : Nat) : List Frame :=
  match seq.state with
  | .notStarted => []
  | .reset => []
  | .interfaceCondition => [c.goIdleFrame]
  | .operatingConditionsPoll => pollingFrames c seq.tentative seq.iter ++ [c.appCmdFrame 0].take n
  | .classFinalize => pollingFrames c seq.tentative (seq.iter + 1)
  | .addressAssign => pollingFrames c seq.tentative (seq.iter + 1)
  | .descriptorFetch => pollingFrames c seq.tentative (seq.iter + 1) ++ [c.publishRcaFrame]
  | .blockLengthFix => pollingFrames c seq.tentative (seq.iter + 1) ++ [c.publishRcaFrame, c.getCsdFrame rca]
  | .selectBusWidth =>
    pollingFrames c seq.tentative (seq.iter + 1) ++ addressedFrames c seq rca ++ (busWidthFrames c rca).take n
  | .ready =>
    pollingFrames c seq.tentative (seq.iter + 1) ++ addressedFrames c seq rca ++
      (if c.buswidthStep = true then busWidthFrames c rca else [])
  | .error => []

/-- What holds of the registers of unit S by the state: the address before it is published, the tentative class (R175),
the passes of the loop and the bit that ended it (R176). -/
def InitFacts (c : Config) (seq : Sequencer) (rca : Rca) (n : Nat) : Prop :=
  match seq.state with
  | .notStarted => False
  | .reset => rca = 0
  | .interfaceCondition => rca = 0
  | .operatingConditionsPoll => rca = 0 ∧ seq.tentative ≠ .none ∧ (n = 1 → seq.iter < c.nOcr)
  | .error => False
  | .selectBusWidth => (seq.tentative ≠ .none ∧ seq.iter < c.nOcr ∧ seq.ocr.getLsbD 31 = true) ∧
    (n ≠ 0 → c.buswidthStep = true)
  | _ => seq.tentative ≠ .none ∧ seq.iter < c.nOcr ∧ seq.ocr.getLsbD 31 = true

section course

variable {s : State} {seq : Sequencer} {rca : Rca} {n : Nat} {x : Exchange} {made : List Event}

theorem InitCourse.facts (h : InitCourse s seq rca n x made) : InitFacts s.cfg seq rca n := by
  induction h with
  | reset => rfl
  | goIdle _ here _ _ ih => rw [InitFacts, here] at ih; exact ih
  | legacy _ here _ _ ih => rw [InitFacts, here] at ih; exact ⟨ih, by simp, by simp⟩
  | candidate _ here _ _ _ ih => rw [InitFacts, here] at ih; exact ⟨ih, by simp, by simp⟩
  | opCondPrefix _ here left _ _ ih => rw [InitFacts, here] at ih ⊢; exact ⟨ih.1, ih.2.1, fun _ => left⟩
  | busy _ here _ _ _ ih =>
    rw [InitFacts, here] at ih
    rw [InitFacts, here]
    exact ⟨ih.1, ih.2.1, by simp⟩
  | poweredUp _ here _ _ bit ih => rw [InitFacts, here] at ih; exact ⟨ih.2.1, ih.2.2 rfl, bit⟩
  | classFinalized _ here ih => rw [InitFacts, here] at ih; exact ih
  | published _ here _ _ ih => rw [InitFacts, here] at ih; exact ih
  | described _ here _ _ ih => rw [InitFacts, here] at ih; exact ih
  | lengthSet _ here _ _ _ ih => rw [InitFacts, here] at ih; exact ⟨ih, by simp⟩
  | lengthFixed _ here _ ih => rw [InitFacts, here] at ih; exact ⟨ih, by simp⟩
  | ready _ here _ ih => rw [InitFacts, here] at ih; exact ih.1
  | widthSelected _ here step _ _ ih => rw [InitFacts, here] at ih ⊢; exact ⟨ih.1, fun _ => step⟩
  | widthPrefix _ here _ _ ih => rw [InitFacts, here] at ih ⊢; exact ⟨ih.1, fun _ => ih.2 (by simp)⟩
  | widthSet _ here _ _ ih => rw [InitFacts, here] at ih ⊢; exact ⟨ih.1, fun _ => ih.2 (by simp)⟩
  | widthDeselected _ here _ _ ih => rw [InitFacts, here] at ih; exact ih.1

@[simp] theorem eventWrites_seq (st : SeqState) : eventWrites [.seq st] = [] := rfl
@[simp] theorem eventWrites_phase (ph : Phase) : eventWrites [.phase ph] = [] := rfl

/-- Everything a course of INIT writes is the commands of its frames. -/
theorem InitCourse.writes (h : InitCourse s seq rca n x made) :
    eventWrites made = framesWrites (initFrames s.cfg seq rca n) := by
  induction h with
  | reset => rfl
  | goIdle _ here exchange _ ih => simp [ih, exchange.writes, initFrames, here]
  | legacy _ here exchange _ ih => simp [ih, exchange.writes, initFrames, here, pollingFrames, framesWrites]
  | candidate _ here exchange _ _ ih => simp [ih, exchange.writes, initFrames, here, pollingFrames, framesWrites]
  | opCondPrefix course here _ exchange _ ih =>
    have h0 := course.facts
    rw [InitFacts, here] at h0
    simp [ih, exchange.writes, initFrames, here, h0.1]
  | busy course here exchange _ _ ih =>
    simp [ih, exchange.writes, initFrames, here, pollingFrames_succ, framesWrites]
  | poweredUp course here exchange _ _ ih =>
    simp [ih, exchange.writes, initFrames, here, pollingFrames_succ, framesWrites]
  | classFinalized _ here ih => simp [ih, initFrames, here]
  | published _ here exchange _ ih => simp [ih, exchange.writes, initFrames, here]
  | described _ here exchange _ ih => simp [ih, exchange.writes, initFrames, here, framesWrites]
  | lengthSet _ here standard exchange _ ih =>
    simp only [eventWrites_append, ih, exchange.writes, initFrames, here, addressedFrames]
    rw [if_neg standard]
    simp [framesWrites]
  | lengthFixed _ here high ih => simp [ih, initFrames, here, addressedFrames, high.1, high.2]
  | ready _ here step ih => simp [ih, initFrames, here, step, addressedFrames]
  | widthSelected _ here step exchange _ ih =>
    simp [ih, exchange.writes, initFrames, here, busWidthFrames, framesWrites]
  | widthPrefix _ here exchange _ ih => simp [ih, exchange.writes, initFrames, here, busWidthFrames, framesWrites]
  | widthSet _ here exchange _ ih => simp [ih, exchange.writes, initFrames, here, busWidthFrames, framesWrites]
  | widthDeselected course here exchange _ ih =>
    have h0 := course.facts
    rw [InitFacts, here] at h0
    simp [ih, exchange.writes, initFrames, here, busWidthFrames, addressedFrames, h0.2, framesWrites]

end course

/-! ## A state inside INIT -/

/-- A state inside INIT: the states `entered` entered, `k` commands passed in the state it stands at, nothing pending. -/
structure InitAt (s0 : State) (entered : List SeqState) (k : Nat) (s : State) : Prop where
  base : InitBase s0 s
  entered : s.seqEntered = s0.seqEntered ++ entered
  acknowledged : s.t.ackPending = false
  errorNone : s.cd.errorCode = .none
  course : ∃ made, s.events = s0.events ++ made ∧
    InitCourse s0 s.seq s.cd.relativeAddress k s.lastExchange made

/-- INIT has ended in an abort (R183, 60_exceptions.md R281). -/
structure InitAborted (s0 s : State) : Prop where
  base : InitBase s0 s
  entered : ∃ n, 1 ≤ n ∧ n ≤ 8 ∧ s.seqEntered = s0.seqEntered ++ (initStates.take n ++ [.error])
  state : s.seq.state = .error
  acknowledged : s.t.ackPending = false
  cls : s.cd.cls = .error
  relativeAddress : s.cd.relativeAddress = 0
  blockCount : s.cd.blockCount = 0
  code : s.cd.errorCode ≠ .none
  status : s.port.status = s.cd.errorCode.status
  value : s.port.value = s.cd.errorCode.code.setWidth 64
  ending : ∃ made, s.events = s0.events ++ made ∧ InitEnd s0 s made s.cd.errorCode

section inside

variable {s0 s : State} {entered : List SeqState} {k : Nat}

/-- An abort inside INIT, for a cause. -/
theorem InitAborted.of_abort {u : State} {n : Nat} (hb : InitBase s0 u)
    (he : u.seqEntered = s0.seqEntered ++ initStates.take n) (hn : 1 ≤ n ∧ n ≤ 8) (ha : u.t.ackPending = false)
    {c : ErrorCode} (hc : c ≠ .none)
    (hend : ∃ made, (abortInit c u).events = s0.events ++ made ∧ InitEnd s0 (abortInit c u) made c) :
    InitAborted s0 (abortInit c u) where
  base :=
    { bte := hb.bte
      dlen := hb.dlen
      dctrl := hb.dctrl
      wbuf := hb.wbuf
      rbuf := hb.rbuf
      request := hb.request
      decoded := hb.decoded
      freed := hb.freed
      cfg := hb.cfg
      pushed := (views_of_accesses_eq (abortInit_accesses c u)).2.1.trans hb.pushed
      popped := (views_of_accesses_eq (abortInit_accesses c u)).2.2.trans hb.popped }
  entered := ⟨n, hn.1, hn.2, by rw [abortInit_seqEntered, he, List.append_assoc]⟩
  state := rfl
  acknowledged := ha
  cls := rfl
  relativeAddress := rfl
  blockCount := rfl
  code := hc
  status := rfl
  value := rfl
  ending := hend

/-- A command of INIT goes on: it is among those the course passes, and nothing or the next state is logged after it. -/
theorem InitAt.passed (h : InitAt s0 entered k s) (f : Frame) {t : State} {after : List SeqState} {k' : Nat}
    (hb : InitBase s0 (transact f s) → InitBase s0 t)
    (he : t.events = (transact f s).events ++ after.map .seq)
    (hs : t.seqEntered = (transact f s).seqEntered ++ after) (ht : t.t = (transact f s).t)
    (herr : t.cd.errorCode = s.cd.errorCode)
    (hc : ∀ x made l, InitCourse s0 s.seq s.cd.relativeAddress k x made → Exchanged s0.cfg f (transact f s).t.outcome l →
      InitCourse s0 t.seq t.cd.relativeAddress k' ⟨f, (transact f s).t.outcome⟩ (made ++ l ++ after.map .seq)) :
    InitAt s0 (entered ++ after) k' t where
  base := hb (h.base.transact f)
  entered := by rw [hs, transact_seqEntered, h.entered, List.append_assoc]
  acknowledged := by rw [ht]; rfl
  errorNone := herr.trans h.errorNone
  course := by
    obtain ⟨made, hm, hx⟩ := h.course
    obtain ⟨l, hl, hev⟩ := transact_exchanged f s
    rw [h.base.cfg] at hl
    refine ⟨made ++ l ++ after.map .seq, by rw [he, hev, hm]; simp, ?_⟩
    rw [show t.lastExchange = (transact f s).lastExchange by unfold State.lastExchange; rw [ht], transact_lastExchange]
    exact hc _ _ _ hx hl

/-- A command of INIT fails: the abort, by the cause `he` gives. -/
theorem InitAt.failed {n : Nat} (h : InitAt s0 (initStates.take n) k s) (hn : 1 ≤ n ∧ n ≤ 8) (f : Frame) {c : ErrorCode}
    (hc : c ≠ .none) {st : SeqState} (hst : s.seq.state = st)
    (he : ∀ made, InitLast s0 (abortInit c (transact f s)) st s.cd.relativeAddress k f made →
      InitEnd s0 (abortInit c (transact f s)) (made ++ [.seq .error]) c) :
    InitAborted s0 (abortInit c (transact f s)) := by
  refine .of_abort (h.base.transact f) ((transact_seqEntered f s).trans h.entered) hn rfl hc ?_
  obtain ⟨made, hm, hx⟩ := h.course
  obtain ⟨l, hl, hev⟩ := transact_exchanged f s
  rw [h.base.cfg] at hl
  refine ⟨made ++ l ++ [.seq .error], by rw [abortInit_events, hev, hm]; simp, he _ ⟨s.lastExchange, made, l, ?_, hl, ?_, rfl⟩⟩
  · have hseq : { (abortInit c (transact f s)).seq with state := st } = s.seq := by
      rw [abortInit_seq, transact_seq, ← hst]
    rw [hseq]
    exact hx
  · exact transact_frame f s

/-- The next state is entered, with no command between. -/
theorem InitAt.next (h : InitAt s0 entered k s) {t : State} {st : SeqState} {k' : Nat} (hb : InitBase s0 t)
    (he : t.log = .seq st :: s.log) (ht : t.t = s.t) (herr : t.cd.errorCode = s.cd.errorCode)
    (hc : ∀ made, InitCourse s0 s.seq s.cd.relativeAddress k s.lastExchange made →
      InitCourse s0 t.seq t.cd.relativeAddress k' s.lastExchange (made ++ [.seq st])) :
    InitAt s0 (entered ++ [st]) k' t where
  base := hb
  entered := by rw [seqEntered_of_seq he, h.entered, List.append_assoc]
  acknowledged := by rw [ht]; exact h.acknowledged
  errorNone := herr.trans h.errorNone
  course := by
    obtain ⟨made, hm, hx⟩ := h.course
    refine ⟨made ++ [.seq st], by rw [events_of_log he, hm, List.append_assoc], ?_⟩
    rw [show t.lastExchange = s.lastExchange by unfold State.lastExchange; rw [ht]]
    exact hc made hx

/-! ## The states -/

/-- The entry (R171). -/
theorem initEntry_at (ha : s.t.ackPending = false) : InitAt s [.reset] 0 (enterSeq .reset (initEntry s)) where
  base := InitBase.enterSeq (s0 := s) (s := initEntry s) ⟨rfl, rfl, rfl, rfl, rfl, rfl, rfl, rfl, rfl, rfl, rfl⟩ .reset
  entered := enterSeq_seqEntered .reset (initEntry s)
  acknowledged := ha
  errorNone := rfl
  course := ⟨[.seq .reset], enterSeq_events .reset (initEntry s), .reset⟩

/-- The pattern test (R174), both ways. -/
theorem patternMatches_iff (c : Config) (w : Word) : patternMatches c w = true ↔ w.extractLsb' 0 9 = c.ifcondArg12.extractLsb' 0 9 := by
  have : c.ifcondArgument.extractLsb' 0 9 = c.ifcondArg12.extractLsb' 0 9 := by
    unfold Config.ifcondArgument
    apply BitVec.eq_of_getLsbD_eq; intro i hi
    simp only [BitVec.getLsbD_extractLsb', BitVec.getLsbD_setWidth]
    simp [hi]; omega
  simp [patternMatches, this]

/-- State Reset (R173). -/
theorem initReset_sat (h : InitAt s0 [.reset] 0 (enterSeq .reset s)) :
    (initReset s).Sat (fun t => InitAt s0 [.reset, .interfaceCondition] 0 (enterSeq .interfaceCondition t))
      (InitAborted s0) := by
  unfold initReset
  dsimp only
  rw [show s.cfg = s0.cfg from h.base.cfg]
  split
  · rename_i hk
    exact h.passed s0.cfg.goIdleFrame (after := [.interfaceCondition]) (fun hb => hb.enterSeq _) (enterSeq_events _ _)
      (enterSeq_seqEntered _ _) rfl (by simp)
      fun x made l hx hl => by
        have := hx.goIdle rfl hl ((acceptedNoReply_iff _).1 hk)
        simpa using this
  · rename_i hk
    exact h.failed (n := 1) (by omega) _ (by simp) rfl fun made hl =>
      .noCard hl fun hq => hk ((acceptedNoReply_iff _).2 hq)

/-- State InterfaceCondition (R174); its end is the state after it, with the pass count set to 0 (R176). -/
theorem initInterfaceCondition_sat (h : InitAt s0 [.reset, .interfaceCondition] 0 (enterSeq .interfaceCondition s)) :
    (initInterfaceCondition s).Sat
      (fun t => InitAt s0 (initStates.take 3) 0
        { enterSeq .operatingConditionsPoll t with seq := { (enterSeq .operatingConditionsPoll t).seq with iter := 0 } })
      (InitAborted s0) := by
  have hcfg := (h.base.transact s0.cfg.sendIfCondFrame).cfg
  unfold initInterfaceCondition
  dsimp only
  rw [show s.cfg = s0.cfg from h.base.cfg]
  have fails : ∀ c, c ≠ ErrorCode.none → _ := fun c hc => h.failed (n := 2) (by omega) s0.cfg.sendIfCondFrame (c := c) hc rfl
  split
  · rename_i hk
    refine h.passed s0.cfg.sendIfCondFrame (after := [.operatingConditionsPoll])
      (fun hb => ((hb.setSeq _).enterSeq .operatingConditionsPoll).setSeq _)
      (enterSeq_events .operatingConditionsPoll _) (enterSeq_seqEntered .operatingConditionsPoll _) rfl (by simp)
      fun x made l hx hl => ?_
    simpa using hx.legacy rfl hl hk
  · rename_i hk
    split
    · rename_i hp
      rw [hcfg, patternMatches_iff] at hp
      refine h.passed s0.cfg.sendIfCondFrame (after := [.operatingConditionsPoll])
        (fun hb => ((hb.setSeq _).enterSeq .operatingConditionsPoll).setSeq _)
        (enterSeq_events .operatingConditionsPoll _) (enterSeq_seqEntered .operatingConditionsPoll _) rfl (by simp)
        fun x made l hx hl => ?_
      simpa using hx.candidate rfl hl hk hp
    · rename_i hp
      rw [hcfg, patternMatches_iff] at hp
      exact fails _ (by simp) fun made hl => .wrongVoltage hl hk hp
  all_goals
    rename_i hk
    exact fails _ (by simp) fun made hl =>
      .noInterface hl (by show (transact _ _).t.outcome.kind ≠ _; simp [hk])
        (by show (transact _ _).t.outcome.kind ≠ _; simp [hk])

/-- The loop of OperatingConditionsPoll with `k` passes left (R176). -/
theorem opCondLoop_sat (k : Nat) {s : State} (h : InitAt s0 (initStates.take 3) 0 s)
    (hs : s.seq.state = .operatingConditionsPoll) (hk : s.seq.iter + k = s0.cfg.nOcr) :
    (opCondLoop k s).Sat (fun t => InitAt s0 (initStates.take 4) 0 (enterSeq .classFinalize t)) (InitAborted s0) := by
  induction k generalizing s with
  | zero =>
    refine .of_abort h.base h.entered (by omega) h.acknowledged (by simp) ?_
    obtain ⟨made, hm, hx⟩ := h.course
    refine ⟨made ++ [.seq .error], by rw [abortInit_events, hm, List.append_assoc],
      InitEnd.powerUpExpired (t := abortInit .timeout s) (rca := s.cd.relativeAddress) ?_ hk⟩
    have hseq : { (abortInit .timeout s).seq with state := .operatingConditionsPoll } = s.seq := by
      rw [abortInit_seq, ← hs]
    rw [hseq]
    exact hx
  | succ k ih =>
    unfold opCondLoop
    dsimp only
    rw [h.base.cfg]
    split
    · rename_i ha
      have h1 : InitAt s0 (initStates.take 3) 1 (transact (s0.cfg.appCmdFrame s.cd.relativeAddress) s) := by
        refine h.passed _ (after := []) id (by simp) (by simp) rfl (by simp) fun x made l hx hl => ?_
        simpa using hx.opCondPrefix hs (by omega) hl ((acceptedNoReply_iff _).1 ha)
      have hseq := transact_seq (s0.cfg.appCmdFrame s.cd.relativeAddress) s
      generalize transact (s0.cfg.appCmdFrame s.cd.relativeAddress) s = u at h1 hseq
      rw [← hseq] at hs hk
      clear hseq ha h
      rw [h1.base.cfg]
      split
      · rename_i ha
        split
        · rename_i hb
          refine h1.passed _ (after := [.classFinalize]) (fun hb => (hb.setSeq _).enterSeq .classFinalize)
            (enterSeq_events .classFinalize _) (enterSeq_seqEntered .classFinalize _) rfl (by simp)
            fun x made l hx hl => ?_
          simpa using hx.poweredUp hs hl ha hb
        · rename_i hb
          refine ih ?_ ?_ ?_
          · refine h1.passed _ (after := []) (fun hb => hb.setSeq _) (by simp [State.events]) (by simp [State.seqEntered]) rfl (by simp) fun x made l hx hl => ?_
            simpa using hx.busy hs hl ha (Bool.eq_false_iff.2 hb)
          · simpa using hs
          · simp; omega
      · rename_i ha
        exact h1.failed (n := 3) (by omega) _ (by simp) hs fun made hl => by
          refine .opCondFailed (rca := u.cd.relativeAddress) ?_ ha
          simpa using hl
    · rename_i ha
      exact h.failed (n := 3) (by omega) _ (by simp) hs fun made hl =>
        .prefixFailed hl (by show (transact _ _).seq.iter < _; rw [transact_seq]; omega)
          fun hq => ha ((acceptedNoReply_iff _).2 hq)

/-- State OperatingConditionsPoll (R176). -/
theorem initOperatingConditions_sat
    (h : InitAt s0 (initStates.take 3) 0
      { enterSeq .operatingConditionsPoll s with seq := { (enterSeq .operatingConditionsPoll s).seq with iter := 0 } }) :
    (initOperatingConditions s).Sat (fun t => InitAt s0 (initStates.take 4) 0 (enterSeq .classFinalize t))
      (InitAborted s0) := by
  unfold initOperatingConditions
  dsimp only
  rw [show (enterSeq .operatingConditionsPoll s).cfg.nOcr = s0.cfg.nOcr from congrArg Config.nOcr h.base.cfg]
  exact opCondLoop_sat _ h rfl (Nat.zero_add _)

/-- A command that must be accepted, after the loop: `go` says how INIT goes on, `fail` gives the cause of the abort. -/
theorem initCommand_sat {n : Nat} (h : InitAt s0 (initStates.take n) k s) (hn : 1 ≤ n ∧ n ≤ 8) (f : Frame) {st : SeqState}
    (hst : s.seq.state = st) {R : State → Prop} (go : (transact f s).t.outcome.kind = .accepted → R (transact f s))
    (fail : (transact f s).t.outcome.kind ≠ .accepted → ∀ made,
      InitLast s0 (abortInit .protocolError (transact f s)) st s.cd.relativeAddress k f made →
      InitEnd s0 (abortInit .protocolError (transact f s)) (made ++ [.seq .error]) .protocolError) :
    (initCommand f s).Sat R (InitAborted s0) := by
  unfold initCommand
  dsimp only
  split
  · exact go ‹_›
  · exact h.failed hn f (by simp) hst (fail ‹_›)

/-- A command that expects no response, after the loop. -/
theorem initCommandNoReply_sat {n : Nat} (h : InitAt s0 (initStates.take n) k s) (hn : 1 ≤ n ∧ n ≤ 8) (f : Frame)
    {st : SeqState} (hst : s.seq.state = st) {R : State → Prop}
    (go : (transact f s).t.outcome.kind.quietOk → R (transact f s))
    (fail : ¬(transact f s).t.outcome.kind.quietOk → ∀ made,
      InitLast s0 (abortInit .protocolError (transact f s)) st s.cd.relativeAddress k f made →
      InitEnd s0 (abortInit .protocolError (transact f s)) (made ++ [.seq .error]) .protocolError) :
    (initCommandNoReply f s).Sat R (InitAborted s0) := by
  unfold initCommandNoReply
  dsimp only
  split
  · exact go ((acceptedNoReply_iff _).1 ‹_›)
  · exact h.failed hn f (by simp) hst (fail fun hq => ‹¬_› ((acceptedNoReply_iff _).2 hq))

/-- The class of the descriptor is the one the tentative class and the OCR word resolve to (R177). -/
def State.Resolved (s : State) : Prop := s.cd.cls = finalClass s.seq.tentative s.seq.ocr

/-- The count of the descriptor is decoded from the descriptor words (R179). -/
def State.Counted (s : State) : Prop := s.cd.blockCount = BitVec.ofNat 64 (decodeBlocks s.cd.cls s.seq.csd)

/-- State ClassFinalize (R177). -/
theorem initClassFinalize_sat (h : InitAt s0 (initStates.take 4) 0 (enterSeq .classFinalize s)) :
    (initClassFinalize s).Sat (fun t => InitAt s0 (initStates.take 5) 0 (enterSeq .addressAssign t) ∧ t.Resolved)
      (InitAborted s0) := by
  refine ⟨h.next (st := .addressAssign) ((h.base.setCd _).enterSeq .addressAssign) rfl rfl rfl fun made hx => ?_, rfl⟩
  exact hx.classFinalized rfl

/-- State AddressAssign (R178). -/
theorem initAddressAssign_sat (h : InitAt s0 (initStates.take 5) 0 (enterSeq .addressAssign s)) (hr : s.Resolved) :
    (initAddressAssign s).Sat (fun t => InitAt s0 (initStates.take 6) 0 (enterSeq .descriptorFetch t) ∧ t.Resolved)
      (InitAborted s0) := by
  unfold initAddressAssign
  rw [show s.cfg = s0.cfg from h.base.cfg]
  refine (initCommand_sat h (by omega) _ rfl (fun ha => ?_) fun hk made hl => .addressFailed hl hk).andThen fun u hu => hu
  refine ⟨?_, by simpa [State.Resolved] using hr⟩
  refine h.passed _ (after := [.descriptorFetch]) (fun hb => (hb.setCd _).enterSeq .descriptorFetch)
    (enterSeq_events .descriptorFetch _) (enterSeq_seqEntered .descriptorFetch _) rfl (by simp) fun x made l hx hl => ?_
  simpa [publishedRca] using hx.published rfl hl ha

/-- State DescriptorFetch (R179). -/
theorem initDescriptorFetch_sat (h : InitAt s0 (initStates.take 6) 0 (enterSeq .descriptorFetch s)) (hr : s.Resolved) :
    (initDescriptorFetch s).Sat
      (fun t => InitAt s0 (initStates.take 7) 0 (enterSeq .blockLengthFix t) ∧ t.Resolved ∧ t.Counted)
      (InitAborted s0) := by
  unfold initDescriptorFetch
  rw [show s.cfg = s0.cfg from h.base.cfg]
  refine (initCommand_sat h (by omega) _ rfl (fun ha => ?_) fun hk made hl => .descriptorFailed hl hk).andThen
    fun u hu => hu
  refine ⟨?_, by simpa [State.Resolved] using hr, rfl⟩
  refine h.passed _ (after := [.blockLengthFix]) (fun hb => (hb.setBoth _ _).enterSeq .blockLengthFix)
    (enterSeq_events .blockLengthFix _) (enterSeq_seqEntered .blockLengthFix _) rfl (by simp) fun x made l hx hl => ?_
  simpa using hx.described rfl hl ha

/-- Where the class resolves to StandardCapacity (R177). -/
theorem finalClass_standard (tentative : Tentative) (ocr : Word) :
    finalClass tentative ocr = .standardCapacity ↔ ¬(tentative = .highCapacityCandidate ∧ ocr.getLsbD 30 = true) := by
  unfold finalClass ocrCapacity
  split <;> simp_all

/-- State BlockLengthFix (R180). -/
theorem initBlockLengthFix_sat (h : InitAt s0 (initStates.take 7) 0 (enterSeq .blockLengthFix s)) (hr : s.Resolved)
    (hc : s.Counted) :
    (initBlockLengthFix s).Sat
      (fun t => InitAt s0 (initStates.take 8) 0 (enterSeq .selectBusWidth t) ∧ t.Resolved ∧ t.Counted)
      (InitAborted s0) := by
  unfold initBlockLengthFix
  dsimp only
  rw [show (enterSeq .blockLengthFix s).cfg = s0.cfg from h.base.cfg,
    show (enterSeq .blockLengthFix s).cd.cls = finalClass s.seq.tentative s.seq.ocr from hr]
  split
  · rename_i hstd
    rw [finalClass_standard] at hstd
    refine initCommand_sat h (by omega) _ rfl (fun ha => ?_) fun hk made hl =>
      .blockLengthFailed hl (by simpa [-not_and] using hstd) hk
    refine ⟨?_, by simpa [State.Resolved] using hr, by simpa [State.Counted] using hc⟩
    refine h.passed _ (after := [.selectBusWidth]) (fun hb => hb.enterSeq .selectBusWidth)
      (enterSeq_events .selectBusWidth _) (enterSeq_seqEntered .selectBusWidth _) rfl (by simp) fun x made l hx hl => ?_
    simpa using hx.lengthSet rfl hstd hl ha
  · rename_i hstd
    rw [finalClass_standard, not_not] at hstd
    exact ⟨h.next (st := .selectBusWidth) (h.base.enterSeq .selectBusWidth) rfl rfl rfl
      fun made hx => hx.lengthFixed rfl hstd, hr, hc⟩

/-- A command of the bus-width step, with another after it. -/
theorem InitAt.stayed {n : Nat} (h : InitAt s0 (initStates.take n) k s) (f : Frame) {k' : Nat}
    (hc : ∀ x made l, InitCourse s0 s.seq s.cd.relativeAddress k x made → Exchanged s0.cfg f (transact f s).t.outcome l →
      InitCourse s0 s.seq s.cd.relativeAddress k' ⟨f, (transact f s).t.outcome⟩ (made ++ l)) :
    InitAt s0 (initStates.take n) k' (transact f s) := by
  rw [← List.append_nil (initStates.take n)]
  refine h.passed f (after := []) id (by simp) (by simp) rfl (by simp) fun x made l hx hl => ?_
  simpa using hc x made l hx hl

/-- State SelectBusWidth (R181). -/
theorem initSelectBusWidth_sat (h : InitAt s0 (initStates.take 8) 0 (enterSeq .selectBusWidth s)) (hr : s.Resolved)
    (hc : s.Counted) :
    (initSelectBusWidth s).Sat
      (fun t => InitAt s0 (initStates ++ [.ready]) 0 (enterSeq .ready t) ∧ t.Resolved ∧ t.Counted)
      (InitAborted s0) := by
  have hr0 : (enterSeq .selectBusWidth s).Resolved := hr
  have hc0 : (enterSeq .selectBusWidth s).Counted := hc
  have hs0 : (enterSeq .selectBusWidth s).seq.state = .selectBusWidth := rfl
  unfold initSelectBusWidth
  dsimp only
  generalize enterSeq .selectBusWidth s = a at h hr0 hc0 hs0
  have keep : ∀ {u : State} (f : Frame), u.Resolved ∧ u.Counted ∧ u.seq.state = .selectBusWidth →
      (transact f u).Resolved ∧ (transact f u).Counted ∧ (transact f u).seq.state = .selectBusWidth := by
    intro u f hu
    simpa [State.Resolved, State.Counted] using hu
  rw [h.base.cfg]
  split
  · rename_i hstep
    refine (initCommand_sat (R := fun t => InitAt s0 (initStates.take 8) 1 t ∧ t.Resolved ∧ t.Counted ∧
        t.seq.state = .selectBusWidth) h (by omega) _ hs0
      (fun ha => ⟨h.stayed _ fun x made l hx hl => hx.widthSelected hs0 hstep hl ha, keep _ ⟨hr0, hc0, hs0⟩⟩)
      fun hk made hl => .widthSelectFailed hl hstep hk).andThen ?_
    rintro b ⟨hb, kb⟩
    rw [hb.base.cfg]
    refine (initCommandNoReply_sat (R := fun t => InitAt s0 (initStates.take 8) 2 t ∧ t.Resolved ∧ t.Counted ∧
        t.seq.state = .selectBusWidth) hb (by omega) _ kb.2.2
      (fun ha => ⟨hb.stayed _ fun x made l hx hl => hx.widthPrefix kb.2.2 hl ha, keep _ kb⟩)
      fun hk made hl => .widthPrefixFailed hl hk).andThen ?_
    rintro c ⟨hc, kc⟩
    rw [hc.base.cfg]
    refine (initCommand_sat (R := fun t => InitAt s0 (initStates.take 8) 3 t ∧ t.Resolved ∧ t.Counted ∧
        t.seq.state = .selectBusWidth) hc (by omega) _ kc.2.2
      (fun ha => ⟨hc.stayed _ fun x made l hx hl => hx.widthSet kc.2.2 hl ha, keep _ kc⟩)
      fun hk made hl => .widthSetFailed hl hk).andThen ?_
    rintro d ⟨hd, kd⟩
    rw [hd.base.cfg]
    refine initCommandNoReply_sat hd (by omega) _ kd.2.2 (fun ha => ⟨?_, (keep _ kd).1, (keep _ kd).2.1⟩)
      fun hk made hl => .widthDeselectFailed hl hk
    refine hd.passed _ (after := [.ready]) (fun hb => hb.enterSeq .ready) (enterSeq_events .ready _)
      (enterSeq_seqEntered .ready _) rfl (by simp) fun x made l hx hl => ?_
    simpa using hx.widthDeselected kd.2.2 hl ha
  · rename_i hstep
    exact ⟨h.next (st := .ready) (h.base.enterSeq .ready) rfl rfl rfl
      fun made hx => hx.ready hs0 (by simpa using hstep), hr0, hc0⟩

end inside

/-! ## The whole of INIT -/

/-- INIT has ended in Ready (R182, R185). -/
structure InitReady (s0 t : State) : Prop where
  base : InitBase s0 t
  entered : t.seqEntered = s0.seqEntered ++ (initStates ++ [.ready])
  state : t.seq.state = .ready
  acknowledged : t.t.ackPending = false
  status : t.port.status = .ok
  value : t.port.value = 0
  errorNone : t.cd.errorCode = .none
  cls : t.cd.cls = finalClass t.seq.tentative t.seq.ocr
  count : t.cd.blockCount = BitVec.ofNat 64 (decodeBlocks t.cd.cls t.seq.csd)
  ending : ∃ made, t.events = s0.events ++ made ∧
    InitCourse s0 t.seq t.cd.relativeAddress 0 t.lastExchange made

/-- State Ready (R182). -/
theorem initReady_ready {s0 s : State} (h : InitAt s0 (initStates ++ [.ready]) 0 (enterSeq .ready s)) (hr : s.Resolved)
    (hc : s.Counted) : InitReady s0 (initReady s) where
  base := ⟨h.base.bte, h.base.dlen, h.base.dctrl, h.base.wbuf, h.base.rbuf, h.base.request, h.base.decoded, h.base.freed,
    h.base.cfg, h.base.pushed, h.base.popped⟩
  entered := h.entered
  state := rfl
  acknowledged := h.acknowledged
  status := rfl
  value := rfl
  errorNone := rfl
  cls := hr
  count := hc
  ending := h.course

/-- What the registers of unit S hold where INIT has ended in Ready (R175, R176, R185). -/
theorem InitReady.facts {s0 t : State} (h : InitReady s0 t) :
    t.seq.tentative ≠ .none ∧ t.seq.iter < s0.cfg.nOcr ∧ t.seq.ocr.getLsbD 31 = true := by
  obtain ⟨made, -, hx⟩ := h.ending
  have := hx.facts
  rw [InitFacts, h.state] at this
  exact this

/-- What a successful INIT writes (R185). -/
theorem InitReady.writes {s0 t : State} (h : InitReady s0 t) :
    t.writes = s0.writes ++ framesWrites (pollingFrames s0.cfg t.seq.tentative (t.seq.iter + 1) ++
      addressedFrames s0.cfg t.seq t.cd.relativeAddress ++
      (if s0.cfg.buswidthStep = true then busWidthFrames s0.cfg t.cd.relativeAddress else [])) := by
  obtain ⟨made, hm, hx⟩ := h.ending
  rw [writes_of_events hm, hx.writes, initFrames, h.state]

/-- INIT has one of two ends (R170). -/
theorem initSequence_end (s : State) (ha : s.t.ackPending = false) :
    InitReady s (initSequence s) ∨ InitAborted s (initSequence s) := by
  have h1 := (initReset_sat (initEntry_at ha)).andThen (k := initInterfaceCondition) fun _ => initInterfaceCondition_sat
  have h2 := h1.andThen (k := initOperatingConditions) fun _ => initOperatingConditions_sat
  have h3 := h2.andThen (k := initClassFinalize) fun _ => initClassFinalize_sat
  have h4 := h3.andThen (k := initAddressAssign) fun _ h => initAddressAssign_sat h.1 h.2
  have h5 := h4.andThen (k := initDescriptorFetch) fun _ h => initDescriptorFetch_sat h.1 h.2
  have h6 := h5.andThen (k := initBlockLengthFix) fun _ h => initBlockLengthFix_sat h.1 h.2.1 h.2.2
  have h7 := h6.andThen (k := initSelectBusWidth) fun _ h => initSelectBusWidth_sat h.1 h.2.1 h.2.2
  exact h7.finally (P := fun t => InitReady s t ∨ InitAborted s t) (fun _ h => .inl (initReady_ready h.1 h.2.1 h.2.2))
    (fun _ h => .inr h)

/-- No decoded count exceeds 2^32 (10_state.md R23). -/
theorem decodeBlocks_le (cls : CardClass) (w : Words4) : decodeBlocks cls w ≤ 2 ^ 32 := by
  cases cls with
  | highCapacity =>
    simp only [decodeBlocks, decodeHC]
    have := (hcSizeField w).isLt
    omega
  | standardCapacity =>
    have h1 := (scSizeField w).isLt
    have h2 := (scMultiplier w).isLt
    have h3 := (scExponent w).isLt
    simp only [decodeBlocks, decodeSC]
    rw [Nat.shiftLeft_eq, Nat.shiftLeft_eq]
    have h4 : 2 ^ ((scMultiplier w).toNat + 2) ≤ 2 ^ 9 := Nat.pow_le_pow_right (by omega) (by omega)
    have h5 : 2 ^ (scExponent w).toNat ≤ 2 ^ 15 := Nat.pow_le_pow_right (by omega) (by omega)
    have h6 : ((scSizeField w).toNat + 1) * 2 ^ ((scMultiplier w).toNat + 2) * 2 ^ (scExponent w).toNat ≤
        2 ^ 12 * 2 ^ 9 * 2 ^ 15 := Nat.mul_le_mul (Nat.mul_le_mul (by omega) h4) h5
    omega
  | unknown => simp [decodeBlocks]
  | error => simp [decodeBlocks]

/-- INIT with nothing pending is run to its end (R170). -/
theorem execInit_next {s : State} (ha : s.t.ackPending = false) : execInit s = .next (initSequence s) :=
  checked_next (f := s.cfg.goIdleFrame) _ (by simp) ha

end Sys2Proof.Machine
end

