-- ==== Sys2Proof/Laws/InitScript.lean ====
section
/-! SUPPORT. INIT along scripted answers of ENV: which way each state of the sequencer goes when the replies are known,
and that nothing after InterfaceCondition changes the tentative class (42_init_sequencer.md R173 to R181). -/

namespace Sys2Proof.Machine

theorem enterSeq_writes (st : SeqState) (s : State) : (enterSeq st s).writes = s.writes :=
  (views_of_accesses_eq (enterSeq_accesses st s)).1

theorem initReset_script {c xs rest s r0} (h : OnScript c ((c.goIdleFrame, r0) :: xs) rest s) (hk : (r0.outcome c c.goIdleFrame).kind.quietOk) :
    ∃ u, initReset s = .running u ∧ OnScript c xs rest u ∧ u.cd = s.cd ∧ u.seq = { s.seq with state := .reset } ∧
      u.writes = s.writes ++ framesWrites [c.goIdleFrame] := by
  have h1 := (h.of_env (t := enterSeq .reset s) rfl rfl).transact
  refine ⟨transact c.goIdleFrame (enterSeq .reset s), ?_, h1.2.1, by simp, by simp, by rw [transact_writes, enterSeq_writes, framesWrites_singleton]⟩
  unfold initReset
  dsimp only
  rw [h.cfg, h1.1, if_pos ((acceptedNoReply_iff _).2 hk)]

theorem initInterfaceCondition_rejected {c xs rest s r1} (h : OnScript c ((c.sendIfCondFrame, r1) :: xs) rest s) (hk : (r1.outcome c c.sendIfCondFrame).kind = .rejected) :
    ∃ u, initInterfaceCondition s = .running u ∧ OnScript c xs rest u ∧ u.cd = s.cd ∧ u.seq = { s.seq with state := .interfaceCondition, tentative := .standardCapacity } ∧
      u.writes = s.writes ++ framesWrites [c.sendIfCondFrame] := by
  have h1 := (h.of_env (t := enterSeq .interfaceCondition s) rfl rfl).transact
  have hk' : (transact c.sendIfCondFrame (enterSeq .interfaceCondition s)).t.outcome.kind = .rejected := by rw [h1.1, hk]
  refine ⟨_, ?_, h1.2.1.of_env (t := { (transact c.sendIfCondFrame (enterSeq .interfaceCondition s)) with seq := { (transact c.sendIfCondFrame (enterSeq .interfaceCondition s)).seq with tentative := .standardCapacity } }) rfl rfl, by simp, by simp, ?_⟩
  · unfold initInterfaceCondition
    dsimp only
    rw [h.cfg]
    simp only [hk']
  · show (transact c.sendIfCondFrame (enterSeq .interfaceCondition s)).writes = _
    rw [transact_writes, enterSeq_writes, framesWrites_singleton]

theorem initInterfaceCondition_accepted {c xs rest s r1} (h : OnScript c ((c.sendIfCondFrame, r1) :: xs) rest s) (hk : (r1.outcome c c.sendIfCondFrame).kind = .accepted)
   (hp : (r1.outcome c c.sendIfCondFrame).words.w0.extractLsb' 0 9 = c.ifcondArg12.extractLsb' 0 9) :
    ∃ u, initInterfaceCondition s = .running u ∧ OnScript c xs rest u ∧ u.cd = s.cd ∧ u.seq = { s.seq with state := .interfaceCondition, tentative := .highCapacityCandidate } ∧
      u.writes = s.writes ++ framesWrites [c.sendIfCondFrame] := by
  have h1 := (h.of_env (t := enterSeq .interfaceCondition s) rfl rfl).transact
  have hk' : (transact c.sendIfCondFrame (enterSeq .interfaceCondition s)).t.outcome.kind = .accepted := by rw [h1.1, hk]
  have hp' : patternMatches (transact c.sendIfCondFrame (enterSeq .interfaceCondition s)).cfg (transact c.sendIfCondFrame (enterSeq .interfaceCondition s)).t.outcome.words.w0 = true := by
    rw [h1.1, patternMatches_iff, h1.2.1.cfg]; exact hp
  refine ⟨_, ?_, h1.2.1.of_env (t := { (transact c.sendIfCondFrame (enterSeq .interfaceCondition s)) with seq := { (transact c.sendIfCondFrame (enterSeq .interfaceCondition s)).seq with tentative := .highCapacityCandidate } }) rfl rfl, by simp, by simp, ?_⟩
  · unfold initInterfaceCondition
    dsimp only
    rw [h.cfg]
    simp only [hk', hp', if_true]
  · show (transact c.sendIfCondFrame (enterSeq .interfaceCondition s)).writes = _
    rw [transact_writes, enterSeq_writes, framesWrites_singleton]

/-- A part of INIT that leaves the tentative class alone. -/
def KeepsTentative (k : State → Flow) : Prop :=
  ∀ s, (k s).Sat (fun t => t.seq.tentative = s.seq.tentative) (fun t => t.seq.tentative = s.seq.tentative)

theorem KeepsTentative.andThen {k k' : State → Flow} (h : KeepsTentative k) (h' : KeepsTentative k') :
    KeepsTentative (fun s => (k s).andThen k') := by
  intro s
  refine (h s).andThen (fun u hu => (h' u).mono ?_ ?_) <;>
  · intro t ht
    exact ht.trans hu

theorem initCommand_keepsTentative (f : Frame) : KeepsTentative (initCommand f) := by
  intro s
  unfold initCommand
  dsimp only
  split
  · simp
  · show (transact f s).seq.tentative = _
    simp

theorem initCommandNoReply_keepsTentative (f : Frame) : KeepsTentative (initCommandNoReply f) := by
  intro s
  unfold initCommandNoReply
  dsimp only
  split
  · simp
  · show (transact f s).seq.tentative = _
    simp

theorem opCondLoop_keepsTentative (k : Nat) : KeepsTentative (opCondLoop k) := by
  induction k with
  | zero => intro s; rfl
  | succ k ih =>
    intro s
    unfold opCondLoop
    dsimp only
    split
    · split
      · split
        · simp
        · refine (ih _).mono ?_ ?_ <;> (intro t ht; rw [ht]; simp)
      · show (transact _ _).seq.tentative = _; simp
    · show (transact _ _).seq.tentative = _; simp

theorem initOperatingConditions_keepsTentative : KeepsTentative initOperatingConditions := fun s => opCondLoop_keepsTentative _ { (enterSeq .operatingConditionsPoll s) with seq := { (enterSeq .operatingConditionsPoll s).seq with iter := 0 } }
theorem initClassFinalize_keepsTentative : KeepsTentative initClassFinalize := fun _ => rfl
theorem initAddressAssign_keepsTentative : KeepsTentative initAddressAssign := fun s => (initCommand_keepsTentative _ (enterSeq .addressAssign s)).andThen fun _ hu => hu
theorem initDescriptorFetch_keepsTentative : KeepsTentative initDescriptorFetch := fun s => (initCommand_keepsTentative _ (enterSeq .descriptorFetch s)).andThen fun _ hu => hu
theorem initBlockLengthFix_keepsTentative : KeepsTentative initBlockLengthFix := by
  intro s
  unfold initBlockLengthFix
  dsimp only
  split
  · exact initCommand_keepsTentative _ (enterSeq .blockLengthFix s)
  · exact rfl
theorem initSelectBusWidth_keepsTentative : KeepsTentative initSelectBusWidth := by
  intro s
  unfold initSelectBusWidth
  dsimp only
  split
  · exact (initCommand_keepsTentative _ (enterSeq .selectBusWidth s)).andThen fun u2 h2 =>
      ((initCommandNoReply_keepsTentative _ u2).mono (fun t ht => ht.trans h2) (fun t ht => ht.trans h2)).andThen fun u3 h3 =>
        ((initCommand_keepsTentative _ u3).mono (fun t ht => ht.trans h3) (fun t ht => ht.trans h3)).andThen fun u4 h4 =>
          (initCommandNoReply_keepsTentative _ u4).mono (fun t ht => ht.trans h4) (fun t ht => ht.trans h4)
  · exact rfl

theorem init_rest_tentative (s : State) : ((((((((initOperatingConditions s)).andThen
    initClassFinalize).andThen initAddressAssign).andThen initDescriptorFetch).andThen
    initBlockLengthFix).andThen initSelectBusWidth).finally initReady).seq.tentative = s.seq.tentative :=
  (((((initOperatingConditions_keepsTentative.andThen initClassFinalize_keepsTentative).andThen initAddressAssign_keepsTentative).andThen initDescriptorFetch_keepsTentative).andThen initBlockLengthFix_keepsTentative).andThen initSelectBusWidth_keepsTentative s).finally (fun _ h => h) (fun _ h => h)

theorem init_rest_finally (f : Flow) : ((((((f.andThen initOperatingConditions).andThen
    initClassFinalize).andThen initAddressAssign).andThen initDescriptorFetch).andThen
    initBlockLengthFix).andThen initSelectBusWidth).finally initReady = f.finally (fun s => (((((((initOperatingConditions s)).andThen
    initClassFinalize).andThen initAddressAssign).andThen initDescriptorFetch).andThen
    initBlockLengthFix).andThen initSelectBusWidth).finally initReady) := by
  cases f <;> rfl

/-- busy passes -/
theorem opCondLoop_busy {c : Config} {h : Bool} {rest : List EnvMove} (busy : List (Reply × Reply)) : ∀ {k : Nat} {xs : List (Frame × Reply)} {s : State},
    OnScript c (opCondExchanges c h busy ++ xs) rest s → s.cd.relativeAddress = 0 → (s.seq.tentative == .highCapacityCandidate) = h →
    (∀ r ∈ busy, PollPass c h r false) →
    ∃ u, opCondLoop (busy.length + k) s = opCondLoop k u ∧ OnScript c xs rest u ∧ u.cd = s.cd ∧
      (∃ ocr, u.seq = { s.seq with ocr := ocr, iter := s.seq.iter + busy.length }) ∧ u.writes = s.writes ++ framesWrites (List.replicate busy.length [c.appCmdFrame 0, c.sendOpCondFrame h]).flatten := by
  induction busy with
  | nil =>
    intro k xs s hs hr ht hb
    exact ⟨s, by simp, by simpa [opCondExchanges] using hs, rfl, ⟨s.seq.ocr, rfl⟩, by simp [framesWrites]⟩
  | cons r busy ih =>
    intro k xs s hs hr ht hb
    have hp := hb r (by simp)
    have hs' : OnScript c ((c.appCmdFrame 0, r.1) :: (c.sendOpCondFrame h, r.2) :: (opCondExchanges c h busy ++ xs)) rest s := by
      simpa [opCondExchanges, opCondExchange] using hs
    have h1 := hs'.transact
    have h2 := h1.2.1.transact
    generalize hv : transact (c.sendOpCondFrame h) (transact (c.appCmdFrame 0) s) = v at h2
    obtain ⟨u, hu1, hu2, hu3, ⟨ocr, hu4⟩, hu5⟩ := ih (k := k) (xs := xs) (s := { v with seq := { { v.seq with ocr := v.t.outcome.words.w0 } with iter := v.seq.iter + 1 } })
      (h2.2.1.of_env rfl rfl) (by rw [← hv]; simpa using hr) (by rw [← hv]; simpa using ht) (fun x hx => hb x (by simp [hx]))
    refine ⟨u, ?_, hu2, ?_, ⟨ocr, ?_⟩, ?_⟩
    · rw [← hu1]
      rw [List.length_cons, show busy.length + 1 + k = (busy.length + k) + 1 by omega]
      conv => lhs; unfold opCondLoop
      dsimp only
      have hseq1 : (transact (c.appCmdFrame 0) s).seq = s.seq := by simp
      rw [hs.cfg, hr, h1.1, if_pos ((acceptedNoReply_iff _).2 hp.prefixOk), h1.2.1.cfg, hseq1, ht, hv, h2.1, if_pos hp.accepted]
      have hbit : ocrPoweredUp (r.2.outcome c (c.sendOpCondFrame h)).words.w0 = false := hp.bit
      simp [-BitVec.getLsbD_eq_getElem, hbit]
    · rw [hu3, ← hv]; simp
    · rw [hu4, ← hv]; simp; omega
    · rw [hu5]
      show v.writes ++ _ = _
      rw [← hv, transact_writes, transact_writes]
      simp [framesWrites, List.replicate_succ]

theorem opCondLoop_last {c : Config} {h : Bool} {rest : List EnvMove} {r : Reply × Reply} {k : Nat} {xs : List (Frame × Reply)} {s : State}
    (hs : OnScript c (opCondExchange c h r ++ xs) rest s) (hr : s.cd.relativeAddress = 0) (ht : (s.seq.tentative == .highCapacityCandidate) = h)
    (hp : PollPass c h r true) :
    ∃ u, opCondLoop (k+1) s = .running u ∧ OnScript c xs rest u ∧ u.cd = s.cd ∧
      u.seq = { s.seq with ocr := (r.2.outcome c (c.sendOpCondFrame h)).words.w0 } := by
  have hs' : OnScript c ((c.appCmdFrame 0, r.1) :: (c.sendOpCondFrame h, r.2) :: xs) rest s := by
      simpa [opCondExchanges, opCondExchange] using hs
  have h1 := hs'.transact
  have h2 := h1.2.1.transact
  generalize hv : transact (c.sendOpCondFrame h) (transact (c.appCmdFrame 0) s) = v at h2
  refine ⟨{ v with seq := { v.seq with ocr := v.t.outcome.words.w0 } }, ?_, h2.2.1.of_env rfl rfl, by rw [← hv]; simp, ?_⟩
  · unfold opCondLoop
    dsimp only
    have hseq1 : (transact (c.appCmdFrame 0) s).seq = s.seq := by simp
    rw [hs.cfg, hr, h1.1, if_pos ((acceptedNoReply_iff _).2 hp.prefixOk), h1.2.1.cfg, hseq1, ht, hv, h2.1, if_pos hp.accepted]
    have hbit : ocrPoweredUp (r.2.outcome c (c.sendOpCondFrame h)).words.w0 = true := hp.bit
    simp [-BitVec.getLsbD_eq_getElem, hbit]
  · rw [h2.1]
    have : v.seq = s.seq := by rw [← hv]; simp
    rw [this]

theorem initCommand_script {c xs rest s f r} (h : OnScript c ((f, r) :: xs) rest s) (hk : (r.outcome c f).kind = .accepted) :
    initCommand f s = .running (transact f s) := by
  unfold initCommand; dsimp only
  rw [h.transact.1, if_pos hk]
theorem initCommandNoReply_script {c xs rest s f r} (h : OnScript c ((f, r) :: xs) rest s) (hk : (r.outcome c f).kind.quietOk) :
    initCommandNoReply f s = .running (transact f s) := by
  unfold initCommandNoReply; dsimp only
  rw [h.transact.1, if_pos ((acceptedNoReply_iff _).2 hk)]

/-- State InterfaceCondition with a reply that makes the card a legacy card or a high-capacity candidate (R174). -/
theorem initInterfaceCondition_script {c xs rest s r1 h} (hs : OnScript c ((c.sendIfCondFrame, r1) :: xs) rest s)
    (hr : InterfaceReply c h r1) :
    ∃ u, initInterfaceCondition s = .running u ∧ OnScript c xs rest u ∧ u.cd = s.cd ∧
      u.seq = { s.seq with state := .interfaceCondition,
                           tentative := if h = true then .highCapacityCandidate else .standardCapacity } ∧
      u.writes = s.writes ++ framesWrites [c.sendIfCondFrame] := by
  rcases hr with ⟨rfl, hk⟩ | ⟨rfl, hk, hp⟩
  · exact initInterfaceCondition_rejected hs hk
  · exact initInterfaceCondition_accepted hs hk hp

/-- INIT up to a pass of the operating-conditions loop, after any busy passes (R173 to R176). -/
theorem initSequence_polling {s : State} {r0 r1 busy xs rest h} (hr0 : (r0.outcome s.cfg s.cfg.goIdleFrame).kind.quietOk)
    (hr1 : InterfaceReply s.cfg h r1) (hb : ∀ r ∈ busy, PollPass s.cfg h r false) (k : Nat)
    (hk : s.cfg.nOcr = busy.length + k)
    (h0 : OnScript s.cfg ([(s.cfg.goIdleFrame, r0), (s.cfg.sendIfCondFrame, r1)] ++ opCondExchanges s.cfg h busy ++ xs) rest
      (initEntry s)) :
    ∃ u, initSequence s = ((((((opCondLoop k u).andThen initClassFinalize).andThen initAddressAssign).andThen
          initDescriptorFetch).andThen initBlockLengthFix).andThen initSelectBusWidth).finally initReady ∧
      OnScript s.cfg xs rest u ∧ u.cd.relativeAddress = 0 ∧
      u.seq.tentative = (if h = true then .highCapacityCandidate else .standardCapacity) ∧
      (u.seq.tentative == .highCapacityCandidate) = h ∧ u.seq.iter = busy.length ∧
      u.writes = s.writes ++ framesWrites ([s.cfg.goIdleFrame, s.cfg.sendIfCondFrame] ++
        (List.replicate busy.length [s.cfg.appCmdFrame 0, s.cfg.sendOpCondFrame h]).flatten) := by
  unfold initSequence
  obtain ⟨u1, a1, b1, c1, d1, e1⟩ := initReset_script (by simpa using h0) hr0
  rw [a1, Flow.andThen_running]
  obtain ⟨u2, a2, b2, c2, d2, e2⟩ := initInterfaceCondition_script b1 hr1
  rw [a2, Flow.andThen_running]
  unfold initOperatingConditions
  dsimp only
  have b3 := b2.of_env (t := { enterSeq .operatingConditionsPoll u2 with
    seq := { (enterSeq .operatingConditionsPoll u2).seq with iter := 0 } }) rfl rfl
  have hten : (enterSeq .operatingConditionsPoll u2).seq.tentative =
      (if h = true then .highCapacityCandidate else .standardCapacity) := by
    show u2.seq.tentative = _
    rw [d2]
  have hten' : ((enterSeq .operatingConditionsPoll u2).seq.tentative == .highCapacityCandidate) = h := by
    rw [hten]
    cases h <;> rfl
  obtain ⟨u4, a4, b4, c4, ⟨ocr, d4⟩, e4⟩ := opCondLoop_busy busy (k := k) b3
    (by show u2.cd.relativeAddress = 0; rw [c2, c1]; rfl) hten' hb
  rw [show (enterSeq .operatingConditionsPoll u2).cfg.nOcr = busy.length + k by
    rw [← hk]; exact congrArg Config.nOcr b2.cfg, a4]
  refine ⟨u4, rfl, b4, by rw [c4]; show u2.cd.relativeAddress = 0; rw [c2, c1]; rfl, by rw [d4]; exact hten,
    by rw [d4]; exact hten', by rw [d4]; simp, ?_⟩
  rw [e4]
  show (enterSeq .operatingConditionsPoll u2).writes ++ _ = _
  rw [enterSeq_writes, e2, e1]
  show s.writes ++ _ ++ _ ++ _ = _
  simp [framesWrites]

end Sys2Proof.Machine
end

