-- ==== Sys2Proof/Laws/Inv.lean ====
section
/-! SUPPORT. One induction for what every operation keeps: a property closed under the shared operations is kept by INIT and
by the block operations. With it, the part of the invariant that holds between the commands of an operation. -/

namespace Sys2Proof.Machine

/-- A property that every shared operation keeps, as the meanings use it. -/
structure Closed (P : State → Prop) : Prop where
  ofTransact : ∀ {s}, P s → ∀ f : Frame, f.expectedResponse ≠ .reserved → P (transact f s)
  ofReadSta : ∀ {s}, P s → P (readSta s).1
  ofReadDcount : ∀ {s}, P s → P (readDcount s).1
  ofWriteDlen : ∀ {s}, P s → P (writeDlen 512 s)
  ofWriteDctrl : ∀ {s}, P s → ∀ v : BitVec 2, v = 0b11 ∨ v = 0b01 → P (writeDctrl v s)
  ofWriteIcr : ∀ {s}, P s → ∀ m, P (writeIcr m s)
  ofFifoPush : ∀ {s}, P s → ∀ w, P (fifoPush w s)
  ofFifoPop : ∀ {s}, P s → ∀ t w, fifoPop s = .next (t, w) → P t
  ofEnterSeq : ∀ {s}, P s → ∀ st, P (enterSeq st s)
  ofEnterPhase : ∀ {s}, P s → ∀ ph, P (enterPhase ph s)
  ofFinish : ∀ {s}, P s → ∀ st v, P (finish st v s)
  ofSetCd : ∀ {s}, P s → ∀ cd, P { s with cd := cd }
  ofSetSeq : ∀ {s}, P s → ∀ seq, P { s with seq := seq }
  ofSetBte : ∀ {s}, P s → ∀ bte, P { s with bte := bte }
  ofStore : ∀ {s}, P s → ∀ k w, k < 128 → P { s with port := { s.port with rbuf := s.port.rbuf.storeWord k w } }
  ofFreeRbuf : ∀ {s}, P s → P (freeRbuf s)

variable {P : State → Prop} (c : Closed P)
include c

theorem Closed.ofAbortInit {s : State} (h : P s) (code : ErrorCode) : P (abortInit code s) :=
  c.ofFinish (c.ofEnterSeq (c.ofSetCd h _) _) _ _

theorem Closed.ofFailOp {s : State} (h : P s) (st : Status) (v : BitVec 64) : P (failOp st v s) :=
  c.ofFinish (c.ofSetBte h _) _ _

theorem Closed.ofFailRead {s : State} (h : P s) (st : Status) : P (failRead st s) :=
  c.ofFailOp (c.ofEnterPhase (c.ofFreeRbuf h) .idle) _ _

theorem Closed.ofFailWrite {s : State} (h : P s) (st : Status) : P (failWrite st s) :=
  c.ofFailOp (c.ofEnterPhase h .idle) _ _

/-! ## INIT -/

theorem Closed.ofInitCommand {s : State} (h : P s) (f : Frame) (hf : f.expectedResponse ≠ .reserved) :
    (initCommand f s).Sat P P := by
  unfold initCommand
  dsimp only
  split
  · exact c.ofTransact h f hf
  · exact c.ofAbortInit (c.ofTransact h f hf) _

theorem Closed.ofInitCommandNoReply {s : State} (h : P s) (f : Frame) (hf : f.expectedResponse ≠ .reserved) :
    (initCommandNoReply f s).Sat P P := by
  unfold initCommandNoReply
  dsimp only
  split
  · exact c.ofTransact h f hf
  · exact c.ofAbortInit (c.ofTransact h f hf) _

theorem Closed.ofOpCondLoop (k : Nat) {s : State} (h : P s) : (opCondLoop k s).Sat P P := by
  induction k generalizing s with
  | zero => exact c.ofAbortInit h _
  | succ k ih =>
    have h1 := c.ofTransact h (s.cfg.appCmdFrame s.cd.relativeAddress) (by simp)
    have h2 := c.ofTransact h1 ((transact (s.cfg.appCmdFrame s.cd.relativeAddress) s).cfg.sendOpCondFrame
      ((transact (s.cfg.appCmdFrame s.cd.relativeAddress) s).seq.tentative == .highCapacityCandidate)) (by simp)
    unfold opCondLoop
    dsimp only
    split
    · split
      · split
        · exact c.ofSetSeq h2 _
        · exact ih (c.ofSetSeq h2 _)
      · exact c.ofAbortInit h2 _
    · exact c.ofAbortInit h1 _

theorem Closed.ofInitInterfaceCondition {s : State} (h : P s) : (initInterfaceCondition s).Sat P P := by
  have h1 : P (transact s.cfg.sendIfCondFrame (enterSeq .interfaceCondition s)) :=
    c.ofTransact (c.ofEnterSeq h _) _ (by simp)
  unfold initInterfaceCondition
  dsimp only
  split
  · exact c.ofSetSeq h1 _
  · split
    · exact c.ofSetSeq h1 _
    · exact c.ofAbortInit h1 _
  · exact c.ofAbortInit h1 _
  · exact c.ofAbortInit h1 _
  · exact c.ofAbortInit h1 _

theorem Closed.ofInitBlockLengthFix {s : State} (h : P s) : (initBlockLengthFix s).Sat P P := by
  unfold initBlockLengthFix
  dsimp only
  split
  · exact c.ofInitCommand (c.ofEnterSeq h _) _ (by simp)
  · exact c.ofEnterSeq h _

theorem Closed.ofInitSelectBusWidth {s : State} (h : P s) : (initSelectBusWidth s).Sat P P := by
  unfold initSelectBusWidth
  dsimp only
  split
  · exact (c.ofInitCommand (c.ofEnterSeq h _) _ (by simp)).andThen fun _ h2 =>
      (c.ofInitCommandNoReply h2 _ (by simp)).andThen fun _ h3 =>
        (c.ofInitCommand h3 _ (by simp)).andThen fun _ h4 => c.ofInitCommandNoReply h4 _ (by simp)
  · exact c.ofEnterSeq h _

/-- INIT keeps the property (R170). -/
theorem Closed.ofInitSequence {s : State} (h : P s) : P (initSequence s) := by
  have h0 : (initReset (initEntry s)).Sat P P := by
    have h1 : P (transact (initEntry s).cfg.goIdleFrame (enterSeq .reset (initEntry s))) :=
      c.ofTransact (c.ofEnterSeq (c.ofSetSeq (c.ofSetCd h _) _) _) _ (by simp)
    unfold initReset
    dsimp only
    split
    · exact h1
    · exact c.ofAbortInit h1 _
  have h2 := h0.andThen fun _ => c.ofInitInterfaceCondition
  have h3 := h2.andThen (k := initOperatingConditions) fun _ h => c.ofOpCondLoop _ (c.ofSetSeq (c.ofEnterSeq h _) _)
  have h4 := h3.andThen (k := initClassFinalize) (R' := P) fun _ h => c.ofSetCd (c.ofEnterSeq h _) _
  have h5 := h4.andThen (k := initAddressAssign) (R' := P) fun _ h =>
    (c.ofInitCommand (c.ofEnterSeq h _) _ (by simp)).andThen fun _ h => c.ofSetCd h _
  have h6 := h5.andThen (k := initDescriptorFetch) (R' := P) fun _ h =>
    (c.ofInitCommand (c.ofEnterSeq h _) _ (by simp)).andThen fun u h =>
      c.ofSetCd (c.ofSetSeq h { u.seq with csd := u.t.outcome.words })
        { u.cd with blockCount := BitVec.ofNat 64 (decodeBlocks u.cd.cls u.t.outcome.words) }
  have h7 := h6.andThen fun _ => c.ofInitBlockLengthFix
  have h8 := h7.andThen fun _ => c.ofInitSelectBusWidth
  exact h8.finally (P := P) (fun _ h => c.ofFinish (c.ofSetCd (c.ofEnterSeq h _) _) _ _) (fun _ h => h)

/-! ## The block operations -/

theorem Closed.ofBlockCommand {fail : Status → State → State} (hfail : ∀ st s, P s → P (fail st s)) {s : State}
    (h : P s) (f : Frame) (hf : f.expectedResponse ≠ .reserved) : (blockCommand f fail s).Sat P P := by
  unfold blockCommand
  dsimp only
  split
  · exact c.ofTransact h f hf
  · exact hfail _ _ (c.ofTransact h f hf)

theorem Closed.ofBlockDeselect {fail : Status → State → State} (hfail : ∀ st s, P s → P (fail st s)) {s : State}
    (h : P s) : P (blockDeselect fail s) := by
  have h1 := c.ofTransact (c.ofEnterPhase h .deselect) s.cfg.deselectFrame (by simp)
  unfold blockDeselect
  dsimp only
  split
  · exact c.ofFinish (c.ofEnterPhase h1 _) _ _
  · exact hfail _ _ h1

theorem Closed.ofDrainPop {s t : State} (h : P s) (sta : BitVec 7) (ht : drainPop sta s = .next t) : P t := by
  unfold drainPop at ht
  split at ht
  · rename_i hn
    split at ht
    · rename_i s1 w heq
      cases ht
      have hb : s1.bte = s.bte := by
        unfold fifoPop at heq
        split at heq
        · cases heq
        · cases heq
          rfl
      exact c.ofSetBte (c.ofStore (c.ofFifoPop h _ _ heq) s1.bte.n w (by rw [hb]; exact hn.1)) _
    · cases ht
    · cases ht
  · cases ht
    exact h

theorem Closed.ofDrainLoop (k : Nat) {s : State} (h : P s) {flow : Flow} (hf : drainLoop k s = .next flow) :
    flow.Sat P P := by
  induction k generalizing s with
  | zero =>
    cases hf
    exact c.ofFailRead h _
  | succ k ih =>
    unfold drainLoop at hf
    dsimp only at hf
    split at hf
    · cases hf
    · cases hf
    · rename_i t ht
      have h1 := c.ofReadDcount (c.ofDrainPop (c.ofReadSta h) _ ht)
      split at hf
      · cases hf
        exact h1
      · exact ih (c.ofSetBte h1 _) hf

/-- A read keeps the property (R216). -/
theorem Closed.ofReadBlock {s t : State} (h : P s) {block : Word} (ht : readBlock block s = .next t) : P t := by
  have hsetup : (readSetup (preamble block s)).Sat P P :=
    (c.ofBlockCommand (fun _ _ h => c.ofFailRead h _) (c.ofEnterPhase (c.ofSetBte h _) _) _ (by simp)).andThen fun _ h1 =>
      (c.ofBlockCommand (fun _ _ h => c.ofFailRead h _)
        (c.ofEnterPhase (c.ofWriteDctrl (c.ofWriteDlen (c.ofEnterPhase h1 _)) _ (.inl rfl)) _) _ (by simp)).andThen
          fun _ h2 => c.ofEnterPhase h2 _
  unfold readBlock at ht
  split at ht
  · rename_i u hu
    cases ht
    rw [hu] at hsetup
    exact hsetup
  · rename_i u hu
    rw [hu] at hsetup
    split at ht
    · cases ht
    · cases ht
    · rename_i flow hflow
      cases ht
      have hu' : P u := hsetup
      exact (c.ofDrainLoop _ (c.ofSetBte hu' _) hflow).finally (P := P)
        (fun _ h => c.ofBlockDeselect (fun _ _ h => c.ofFailRead h _) h) (fun _ h => h)

theorem Closed.ofReadyLoop (k : Nat) {s : State} (h : P s) : (readyLoop k s).Sat P P := by
  induction k generalizing s with
  | zero => exact c.ofFailWrite h _
  | succ k ih =>
    have h1 := c.ofTransact h (s.cfg.getStatusFrame s.cd.relativeAddress) (by simp)
    unfold readyLoop
    dsimp only
    split
    · split
      · exact h1
      · exact ih (c.ofSetBte h1 _)
    · exact c.ofFailWrite h1 _

theorem Closed.ofPushLoop (k : Nat) {s : State} (h : P s) : (pushLoop k s).Sat P P := by
  induction k generalizing s with
  | zero => exact c.ofFailWrite h _
  | succ k ih =>
    have h1 := c.ofReadSta h
    unfold pushLoop
    dsimp only
    split
    · split
      · exact c.ofFailWrite h1 _
      · exact h1
    · split
      · exact ih (c.ofSetBte (c.ofSetBte (c.ofFifoPush h1 _) _) _)
      · exact ih (c.ofSetBte h1 _)

/-- A write keeps the property (R222). -/
theorem Closed.ofWriteBlock {s : State} (h : P s) {block : Word} : P (writeBlock block s) := by
  have hsetup : (writeSetup (preamble block s)).Sat P P :=
    (c.ofBlockCommand (fun _ _ h => c.ofFailWrite h _) (c.ofEnterPhase (c.ofSetBte h _) _) _ (by simp)).andThen fun _ h1 =>
      (c.ofReadyLoop _ (c.ofSetBte (c.ofEnterPhase h1 _) _)).andThen fun _ h2 =>
        c.ofBlockCommand (fun _ _ h => c.ofFailWrite h _) (c.ofEnterPhase h2 _) _ (by simp)
  have hstream := hsetup.andThen (k := writeStream) (R' := P) fun _ h1 =>
    c.ofPushLoop _
      (c.ofSetBte (c.ofSetBte (c.ofFifoPush (c.ofEnterPhase
        (c.ofWriteDctrl (c.ofWriteDlen (c.ofWriteIcr (c.ofEnterPhase h1 _) _)) _ (.inr rfl)) _) _) _) _)
  have hwait := hstream.andThen (k := fun t => readyPoll (enterPhase .readyWait2 t)) (R' := P) fun _ h1 =>
    c.ofReadyLoop _ (c.ofSetBte (c.ofEnterPhase h1 _) _)
  exact hwait.finally (P := P) (fun _ h => c.ofBlockDeselect (fun _ _ h => c.ofFailWrite h _) h) (fun _ h => h)

omit c

/-! ## Between the commands of an operation -/

/-- What holds between the commands of an operation, whatever ENV does. -/
structure Settled (s : State) : Prop where
  t : s.t.Inv
  p : s.p.Inv
  clear : s.env.ClearLaw
  armed : s.env.armed = 0
  acknowledged : s.t.ackPending = false
  wbuf : s.port.wbuf.wf = true
  rbuf : s.port.rbuf.wf = true

theorem State.Inv.settled {s : State} (h : s.Inv) (ha : s.t.ackPending = false) : Settled s :=
  ⟨h.t, h.p, h.clear, h.paired ha, ha, h.wbuf, h.rbuf⟩

theorem Settled.transact {s : State} (h : Settled s) (f : Frame) (hf : f.expectedResponse ≠ .reserved) :
    Settled (transact f s) where
  t := transact_t_inv f s hf
  p := transact_p_inv f hf h.p
  clear := transact_clearLaw f h.clear
  armed := transact_armed f s
  acknowledged := rfl
  wbuf := by rw [transact_port]; exact h.wbuf
  rbuf := by rw [transact_port]; exact h.rbuf

/-- A change of other registers. -/
theorem Settled.of_same {s t : State} (h : Settled s) (ht : t.t = s.t) (hp : t.p = s.p) (he : t.env = s.env)
    (hw : t.port.wbuf = s.port.wbuf) (hr : t.port.rbuf = s.port.rbuf) : Settled t :=
  ⟨by rw [ht]; exact h.t, by rw [hp]; exact h.p, by rw [he]; exact h.clear, by rw [he]; exact h.armed,
    by rw [ht]; exact h.acknowledged, by rw [hw]; exact h.wbuf, by rw [hr]; exact h.rbuf⟩

/-- An access that starts no command: the flags are as the laws of ENV allow. -/
theorem Settled.of_access {s t : State} (h : Settled s) (ht : t.t = s.t) (hp : t.p.Inv) (hc : t.env.ClearLaw)
    (ha : t.env.armed = 0) (hport : t.port = s.port) : Settled t :=
  ⟨by rw [ht]; exact h.t, hp, hc, ha, by rw [ht]; exact h.acknowledged, by rw [hport]; exact h.wbuf,
    by rw [hport]; exact h.rbuf⟩

theorem Settled.armed_move {s : State} (h : Settled s) : s.env.move.armed = 0 := by rw [Env.move_armed]; exact h.armed

theorem Settled.readSta {s : State} (h : Settled s) : Settled (readSta s).1 :=
  h.of_access rfl h.p h.clear.move.seen h.armed_move rfl

theorem Settled.readDcount {s : State} (h : Settled s) : Settled (readDcount s).1 :=
  h.of_access rfl h.p h.clear.move h.armed_move rfl

theorem Settled.writeDlen {s : State} (h : Settled s) : Settled (writeDlen 512 s) :=
  h.of_access rfl ⟨h.p.cmd, h.p.start, .inr rfl, h.p.dctrl⟩ h.clear.move h.armed_move rfl

theorem Settled.writeDctrl {s : State} (h : Settled s) {v : BitVec 2} (hv : v = 0b11 ∨ v = 0b01) :
    Settled (writeDctrl v s) :=
  h.of_access rfl ⟨h.p.cmd, h.p.start, h.p.dlen, .inr hv⟩ h.clear.move h.armed_move rfl

theorem Settled.writeIcr {s : State} (h : Settled s) (m : BitVec 5) : Settled (writeIcr m s) :=
  h.of_access rfl h.p (h.clear.move.cleared m) (by rw [writeIcr_env, Env.cleared_armed, h.armed_move]; simp) rfl

theorem Settled.fifoPush {s : State} (h : Settled s) (w : Word) : Settled (fifoPush w s) :=
  h.of_access rfl h.p h.clear.move h.armed_move rfl

theorem Settled.fifoPop {s t : State} (h : Settled s) {w : Word} (ht : fifoPop s = .next (t, w)) : Settled t := by
  unfold Machine.fifoPop at ht
  split at ht
  · cases ht
  · cases ht
    exact h.of_access rfl h.p h.clear.move h.armed_move rfl

/-- What every operation keeps between its commands. -/
theorem settled_closed : Closed Settled where
  ofTransact h f hf := h.transact f hf
  ofReadSta h := h.readSta
  ofReadDcount h := h.readDcount
  ofWriteDlen h := h.writeDlen
  ofWriteDctrl h _ hv := h.writeDctrl hv
  ofWriteIcr h m := h.writeIcr m
  ofFifoPush h w := h.fifoPush w
  ofFifoPop h _ _ ht := h.fifoPop ht
  ofEnterSeq h _ := h.of_same rfl rfl rfl rfl rfl
  ofEnterPhase h _ := h.of_same rfl rfl rfl rfl rfl
  ofFinish h _ _ := h.of_same rfl rfl rfl rfl rfl
  ofSetCd h _ := h.of_same rfl rfl rfl rfl rfl
  ofSetSeq h _ := h.of_same rfl rfl rfl rfl rfl
  ofSetBte h _ := h.of_same rfl rfl rfl rfl rfl
  ofStore h k w hk := ⟨h.t, h.p, h.clear, h.armed, h.acknowledged, h.wbuf, Memory.wf_storeWord h.rbuf hk w⟩
  ofFreeRbuf h := ⟨h.t, h.p, h.clear, h.armed, h.acknowledged, h.wbuf, by
    rw [freeRbuf_port]
    exact Memory.wf_ofFun _⟩

/-! ## The order of the accesses -/

theorem CommandStage.run_append (stage : CommandStage) (l m : List Access) :
    stage.run (l ++ m) = (stage.run l).bind fun stage' => stage'.run m := by
  induction l generalizing stage with
  | nil => rfl
  | cons a l ih =>
    rw [List.cons_append, CommandStage.run, CommandStage.run]
    cases stage.next a with
    | none => rfl
    | some stage' => exact ih stage'

theorem CommandStage.run_pending_readSta (l : List (BitVec 7)) : CommandStage.pending.run (l.map .readSta) = some .pending := by
  induction l with
  | nil => rfl
  | cons v l ih => exact ih

theorem CommandStage.run_pending_respReads (shape : Shape) (regs : Words4) :
    CommandStage.pending.run (respReads shape regs) = some .pending := by
  cases shape <;> rfl

/-- The accesses that find an outcome are reads inside the command (40_transport.md R131 to R135). -/
theorem Answered.run {c : Config} {f : Frame} {answer : List Access} {o : ResponseOutcome} (h : Answered c f answer o) :
    CommandStage.pending.run answer = some .pending := by
  cases h <;>
    simp only [CommandStage.run_append, CommandStage.run_pending_readSta, CommandStage.run_pending_respReads,
      Option.bind_some, List.append_assoc, List.cons_append, List.nil_append, CommandStage.run, CommandStage.next]

/-- The two writes that start a command (R130). -/
theorem CommandStage.run_start (f : Frame) :
    CommandStage.idle.run [.writeArg f.argument, .writeCmd (commandWord f)] = some .pending := by
  simp only [CommandStage.run, CommandStage.next, commandWord_start f, if_true]

/-- `s` is reached from `s0` by accesses in order, with every command acknowledged. -/
def Ordered (s0 s : State) : Prop :=
  s.t.ackPending = false ∧ ∃ made, s.accesses = s0.accesses ++ made ∧ s0.stage.run made = some .idle

theorem Ordered.add {s0 s t : State} (h : Ordered s0 s) {l : List Access} (ha : t.t.ackPending = false)
    (ht : t.accesses = s.accesses ++ l) (hl : CommandStage.idle.run l = some .idle) : Ordered s0 t := by
  obtain ⟨-, made, hm, hr⟩ := h
  exact ⟨ha, made ++ l, by rw [ht, hm, List.append_assoc], by rw [CommandStage.run_append, hr]; exact hl⟩

theorem Ordered.same {s0 s t : State} (h : Ordered s0 s) (ht : t.t.ackPending = s.t.ackPending)
    (hacc : t.accesses = s.accesses) : Ordered s0 t :=
  h.add (l := []) (ht.trans h.1) (by rw [hacc, List.append_nil]) rfl

/-- What every operation does to the accesses (20_memory.md R81). -/
theorem ordered_closed (s0 : State) : Closed (Ordered s0) where
  ofTransact h f _ := by
    obtain ⟨answer, ho, -, ha⟩ := transact_trace f _
    rw [List.append_assoc, List.append_assoc] at ha
    refine h.add rfl ha ?_
    rw [CommandStage.run_append, CommandStage.run_start, Option.bind_some, CommandStage.run_append, ho.run]
    rfl
  ofReadSta h := h.add h.1 (readSta_accesses _) rfl
  ofReadDcount h := h.add h.1 (readDcount_accesses _) rfl
  ofWriteDlen h := h.add h.1 (writeDlen_accesses _ _) rfl
  ofWriteDctrl h _ _ := h.add h.1 (writeDctrl_accesses _ _) rfl
  ofWriteIcr h _ := h.add h.1 (writeIcr_accesses _ _) rfl
  ofFifoPush h _ := h.add h.1 (fifoPush_accesses _ _) rfl
  ofFifoPop h t w ht := by
    unfold fifoPop at ht
    split at ht
    · cases ht
    · cases ht
      exact h.add h.1 (accesses_of_access rfl) rfl
  ofEnterSeq h _ := h.same rfl (enterSeq_accesses _ _)
  ofEnterPhase h _ := h.same rfl (enterPhase_accesses _ _)
  ofFinish h _ _ := h.same rfl rfl
  ofSetCd h _ := h.same rfl rfl
  ofSetSeq h _ := h.same rfl rfl
  ofSetBte h _ := h.same rfl rfl
  ofStore h _ _ _ := h.same rfl rfl
  ofFreeRbuf h := h.same rfl (accesses_of_log rfl)

end Sys2Proof.Machine
end

