-- ==== Sys2Proof/Tests/Slice0.lean ====
section
/-! SUPPORT. Tests of single operations and witnesses for the hypotheses of the obligations. Expected results are
those of 95_test_vectors.md, cited as T<n>, D<n>, B<n>, P<n>; the words of the decode tests are written out from the
encodings of 30_encoding.md. -/

open Sys2Proof Sys2Proof.Machine

namespace Sys2Proof.Tests

/-! ## Helpers -/

/-- The next state of an instruction, if there is one. -/
def after (i : Instr) (s : State) : Option State :=
  match exec i s with
  | .next t => some t
  | .fault _ => none
  | .refused _ => none

/-- The fault of an instruction, if there is one. -/
def faultOf (i : Instr) (s : State) : Option Fault :=
  match exec i s with
  | .next _ => none
  | .fault f => some f
  | .refused _ => none

/-- The reset state with a descriptor and with ENV's next moves. -/
def machine (cd : CardDescriptor) (moves : List EnvMove) : State :=
  { State.reset with cd := cd, env := { State.reset.env with script := moves } }

def noCard : CardDescriptor := ⟨.unknown, 0, 0, .none⟩
def standardCard : CardDescriptor := ⟨.standardCapacity, 0x1234, 58880, .none⟩
def largestStandardCard : CardDescriptor := ⟨.standardCapacity, 0x1234, 134217728, .none⟩
def highCard : CardDescriptor := ⟨.highCapacity, 0x1234, 7700480, .none⟩

theorem machine_scripted (cd : CardDescriptor) (moves : List EnvMove) : (machine cd moves).Scripted moves :=
  ⟨rfl, rfl, by show 1 ≤ 8; decide, [], (List.append_nil _).symm⟩

def dc : Config := Config.defaults

/-- A response with an echo and one word. -/
def shortReply (echo : BitVec 6) (w : Word) : Reply := .resp echo ⟨w, 0, 0, 0⟩

/-- Frames A to D of 95_test_vectors.md, section 2.1. -/
def frameA : Frame := ⟨8, 0x000001AA, .short, .require⟩
def frameB : Frame := ⟨41, 0x00FF8000, .short, .ignore⟩
def frameC : Frame := ⟨9, 0x12340000, .long, .require⟩
def frameD : Frame := ⟨0, 0, .none, .require⟩
def reservedFrame : Frame := ⟨8, 0, .reserved, .require⟩

/-- ENV's moves that make the reads of `P.STA` show the given flags, and the registers the given values. -/
def polled (flags : List (BitVec 5)) (echo : BitVec 6) (regs : Words4) : List EnvMove :=
  [.quiet, .quiet] ++ flags.map (fun v => { EnvMove.quiet with raise := v, respCmd := echo, resp := regs }) ++
    List.replicate 6 .quiet

/-- The outcome of SENDCMD against such moves. -/
def outcomeOf (f : Frame) (flags : List (BitVec 5)) (echo : BitVec 6) (regs : Words4) : Option ResponseOutcome :=
  (after (.sendcmd f) (machine noCard (polled flags echo regs))).map fun t => t.t.outcome

/-- The accesses of one operation against a reply to a frame. -/
def traceOf (i : Instr) (f : Frame) (r : Reply) : Option (List Access) :=
  (after i (machine noCard (r.moves dc f))).map fun t => t.accesses

/-- The accesses of a card command that is answered Accepted with a Short response (40_transport.md R139). -/
def shortTrace (arg : Word) (cmd : BitVec 9) (echo : BitVec 6) (word : Word) : List Access :=
  [.writeArg arg, .writeCmd cmd, .readSta 0x02, .readRespCmd echo, .readResp 0 word, .writeIcr 0x0F]

/-- The accesses of a card command that is sent and expects no response. -/
def sentTrace (arg : Word) (cmd : BitVec 9) : List Access :=
  [.writeArg arg, .writeCmd cmd, .readSta 0x01, .writeIcr 0x0F]

/-! ## WellFormed refuses an op code outside its row -/

theorem test_wf_refuses_illegal10to11 : (Instr.illegal10to11 9).wf = false ∧ (Instr.illegal10to11 12).wf = false := by
  decide
theorem test_wf_refuses_illegal12to15 : (Instr.illegal12to15 11).wf = false ∧ (Instr.illegal12to15 0).wf = false := by
  decide
theorem test_wf_accepts : (Instr.illegal10to11 10).wf = true ∧ (Instr.illegal10to11 11).wf = true ∧
    (Instr.illegal12to15 12).wf = true ∧ (Instr.illegal12to15 15).wf = true := by decide

/-! ## Decoding of words written out from the encodings -/

/-- R95, R96: operand (32 bits), op (4 bits). -/
theorem test_decode_host :
    decode dc (.host (0b00000000000000000000000000000000#32 ++ 0b0001#4)) = .ok .init ∧
    decode dc (.host (0b00000000000000000000000000000101#32 ++ 0b0010#4)) = .ok (.rdblk 5) ∧
    decode dc (.host (0b10000000000000000000000000000011#32 ++ 0b0011#4)) = .ok (.wrblk 0x80000003) ∧
    decode dc (.host (0b00000000000000000000000000000000#32 ++ 0b0100#4)) = .ok .volsz ∧
    decode dc (.host (0b11111111111111111111111111111111#32 ++ 0b0101#4)) = .ok .blksz ∧
    decode dc (.host (0b00000000000000000000000000000000#32 ++ 0b0110#4)) = .ok .isro ∧
    decode dc (.host (0b00000000000000000000000000000000#32 ++ 0b0111#4)) = .ok .lasterr ∧
    decode dc (.host (0b10101011110011010001001000110100#32 ++ 0b1000#4)) = .ok (.isbusy 0x1234) := by decide

theorem test_decode_illegal :
    decode dc (.host (0b00000000000000000000000000000000#32 ++ 0b0000#4)) = .ok .illegal0 ∧
    decode dc (.host (0b00010010001101000101011001111000#32 ++ 0b1001#4)) = .ok .illegal9 ∧
    decode dc (.host (0b00000000000000000000000000000000#32 ++ 0b1010#4)) = .ok (.illegal10to11 10) ∧
    decode dc (.host (0b00000000000000000000000000000000#32 ++ 0b1011#4)) = .ok (.illegal10to11 11) ∧
    decode dc (.host (0b00000000000000000000000000000000#32 ++ 0b1100#4)) = .ok (.illegal12to15 12) ∧
    decode dc (.host (0b00000000000000000000000000000000#32 ++ 0b1111#4)) = .ok (.illegal12to15 15) := by decide

/-- R92: argument (32 bits), crcPolicy, expectedResponse (2 bits), index (6 bits), and t where the format has it. -/
theorem test_decode_transport :
    decode dc (.transport (0b00000000111111111000000000000000#32 ++ 1#1 ++ 0b01#2 ++ 0b101001#6 ++ 0#1)) =
      .ok (.sendcmd frameB) ∧
    decode dc (.transport (0b00010010001101000000000000000000#32 ++ 0#1 ++ 0b10#2 ++ 0b001001#6 ++ 0#1)) =
      .ok (.sendcmd frameC) ∧
    decode dc (.transport (0b11111111111111111111111111111111#32 ++ 1#1 ++ 0b11#2 ++ 0b111111#6 ++ 1#1)) = .ok .ack ∧
    decode dc (.transaction (0b00000000000000000000000110101010#32 ++ 0#1 ++ 0b01#2 ++ 0b001000#6)) =
      .ok (.txn frameA) := by decide

/-- R112, R117: a card frame word is recognised by its index and shape, and every bit its row fixes must match. -/
theorem test_decode_card_without_operand :
    decode dc (.card (0b00000000000000000000000000000000#32 ++ 0#1 ++ 0b00#2 ++ 0b000000#6)) = .ok .goIdle ∧
    decode dc (.card (0b00000000000000000000000110101010#32 ++ 0#1 ++ 0b01#2 ++ 0b001000#6)) = .ok .sendIfCond ∧
    decode dc (.card (0b00000000111111111000000000000000#32 ++ 1#1 ++ 0b01#2 ++ 0b101001#6)) =
      .ok (.sendOpCond false) ∧
    decode dc (.card (0b01000000111111111000000000000000#32 ++ 1#1 ++ 0b01#2 ++ 0b101001#6)) =
      .ok (.sendOpCond true) ∧
    decode dc (.card (0b00000000000000000000000000000000#32 ++ 0#1 ++ 0b01#2 ++ 0b000011#6)) = .ok .publishRca ∧
    decode dc (.card (0b00000000000000000000001000000000#32 ++ 0#1 ++ 0b01#2 ++ 0b010000#6)) = .ok .setBlocklen ∧
    decode dc (.card (0b00000000000000000000000000000000#32 ++ 0#1 ++ 0b00#2 ++ 0b000111#6)) = .ok .deselect ∧
    decode dc (.card (0b00000000000000000000000000000010#32 ++ 0#1 ++ 0b01#2 ++ 0b000110#6)) = .ok .setBusWidth := by
  decide

theorem test_decode_card_with_operand :
    decode dc (.card (0b00010010001101000000000000000000#32 ++ 0#1 ++ 0b00#2 ++ 0b110111#6)) =
      .ok (.appCmd 0x1234) ∧
    decode dc (.card (0b10110011011010000000000000000000#32 ++ 0#1 ++ 0b10#2 ++ 0b001001#6)) =
      .ok (.getCsd 0xB368) ∧
    decode dc (.card (0b00010010001101000000000000000000#32 ++ 0#1 ++ 0b01#2 ++ 0b000111#6)) =
      .ok (.select 0x1234) ∧
    decode dc (.card (0b00000001110010111111111000000000#32 ++ 0#1 ++ 0b01#2 ++ 0b010001#6)) =
      .ok (.readSingle 0x01CBFE00) ∧
    decode dc (.card (0b00000000000000000000000000000011#32 ++ 0#1 ++ 0b01#2 ++ 0b011000#6)) = .ok (.writeSingle 3) ∧
    decode dc (.card (0b00010010001101000000000000000000#32 ++ 0#1 ++ 0b01#2 ++ 0b001101#6)) =
      .ok (.getStatus 0x1234) := by decide

/-- A wrong policy bit, a wrong fixed argument bit, an index of no row, a nonzero low half. -/
theorem test_decode_card_refuses :
    decode dc (.card (0b00000000000000000000000110101010#32 ++ 1#1 ++ 0b01#2 ++ 0b001000#6)) =
      .error .notInCatalogue ∧
    decode dc (.card (0b00000000000000000000000110101011#32 ++ 0#1 ++ 0b01#2 ++ 0b001000#6)) =
      .error .notInCatalogue ∧
    decode dc (.card (0b00000000000000000000000000000000#32 ++ 0#1 ++ 0b01#2 ++ 0b111111#6)) =
      .error .notInCatalogue ∧
    decode dc (.card (0b00010010001101000000000000000001#32 ++ 0#1 ++ 0b01#2 ++ 0b001101#6)) =
      .error .notInCatalogue := by decide

/-- R110: class (2 bits), then four words. -/
theorem test_decode_decoder :
    decode dc (.decoder (0b01#2 ++ 0x00000000#32 ++ 0x00090397#32 ++ 0xC0010000#32 ++ 0x00000005#32)) =
      .ok (.decode .standardCapacity ⟨0, 0x00090397, 0xC0010000, 5⟩) ∧
    decode dc (.decoder (0b11#2 ++ 0x00000001#32 ++ 0x00000002#32 ++ 0x00000003#32 ++ 0x00000004#32)) =
      .ok (.decode .error ⟨1, 2, 3, 4⟩) := by decide

/-- The opcode table's own numbering: `match` of a row of each format. -/
theorem test_decodeTableWord :
    decodeTableWord 40 0x000000052 = some (.rdblk 5) ∧ decodeTableWord 40 0x00000000F = some (.illegal12to15 15) ∧
    decodeTableWord 48 0x00000035448 = some .sendIfCond ∧ decodeTableWord 48 0x00000000001 = some .ack ∧
    decodeTableWord 136 0x0 = some (.decode .unknown ⟨0, 0, 0, 0⟩) := by decide

/-- The very next step runs the word placed. -/
theorem test_withFetchWord :
    (match step (State.reset.withFetchWord 40 0x5) with
      | .next t => some (t.port.status, t.port.value, t.port.request)
      | .fault _ => none
      | .refused _ => none) = some (.ok, 512, none) := by decide

/-! ## SENDCMD, ACK, TXN -/

/-- T1, T3, T4, T5, T6, T9. -/
theorem test_sendcmd_kinds :
    outcomeOf frameD [0x01] 0 ⟨0, 0, 0, 0⟩ = some ⟨.noResponseSent, ⟨0, 0, 0, 0⟩⟩ ∧
    outcomeOf frameA [0x02] 63 ⟨0x00400000, 7, 7, 7⟩ = some ⟨.rejected, ⟨0x00400000, 0, 0, 0⟩⟩ ∧
    outcomeOf frameA [0x04] 8 ⟨1, 0, 0, 0⟩ = some ⟨.timedOut, ⟨0, 0, 0, 0⟩⟩ ∧
    outcomeOf frameA [0x08] 8 ⟨1, 0, 0, 0⟩ = some ⟨.crcFailed, ⟨0, 0, 0, 0⟩⟩ ∧
    outcomeOf frameB [0x08] 8 ⟨0x80FF8000, 0, 0, 0⟩ = some ⟨.accepted, ⟨0x80FF8000, 0, 0, 0⟩⟩ ∧
    outcomeOf frameC [0x02] 63 ⟨0x33333333, 0x22222222, 0x11111111, 0⟩ =
      some ⟨.accepted, ⟨0, 0x11111111, 0x22222222, 0x33333333⟩⟩ := by decide

/-- T14 to T18, and T12, T13: the bound, and the data flags that are not examined. -/
theorem test_sendcmd_priority_and_bound :
    outcomeOf frameA [0x0A] 8 ⟨0x1AA, 0, 0, 0⟩ = some ⟨.accepted, ⟨0x1AA, 0, 0, 0⟩⟩ ∧
    outcomeOf frameA [0x0C] 8 ⟨1, 0, 0, 0⟩ = some ⟨.crcFailed, ⟨0, 0, 0, 0⟩⟩ ∧
    outcomeOf frameA [0x05] 8 ⟨1, 0, 0, 0⟩ = some ⟨.timedOut, ⟨0, 0, 0, 0⟩⟩ ∧
    outcomeOf frameD [0x03] 0 ⟨1, 0, 0, 0⟩ = some ⟨.accepted, ⟨0, 0, 0, 0⟩⟩ ∧
    outcomeOf frameA [0x12] 8 ⟨0x1AA, 0, 0, 0⟩ = some ⟨.accepted, ⟨0x1AA, 0, 0, 0⟩⟩ ∧
    outcomeOf frameA [0, 0, 0, 0, 0, 0, 0, 0, 0x02] 8 ⟨0x1AA, 0, 0, 0⟩ = some ⟨.timedOut, ⟨0, 0, 0, 0⟩⟩ ∧
    outcomeOf frameA [0x10, 0, 0, 0, 0, 0, 0, 0, 0x02] 8 ⟨0x1AA, 0, 0, 0⟩ = some ⟨.timedOut, ⟨0, 0, 0, 0⟩⟩ := by
  decide

/-- `ACK` after reset: W `P.ICR`=0x0F, nothing pending. -/
theorem test_ack_after_reset :
    (after .ack State.reset).map (fun t => (t.accesses, t.t.ackPending)) = some ([.writeIcr 0x0F], false) := by decide

/-- The nine accesses of `TXN` of frame C answered as T9. -/
theorem test_txn_trace :
    traceOf (.txn frameC) frameC (.resp 63 ⟨0x33333333, 0x22222222, 0x11111111, 0⟩) =
      some [.writeArg 0x12340000, .writeCmd 0x189, .readSta 0x02, .readRespCmd 63, .readResp 0 0x33333333,
        .readResp 1 0x22222222, .readResp 2 0x11111111, .readResp 3 0, .writeIcr 0x0F] := by decide

/-- T10: four reads, `T.n` = 3. -/
theorem test_txn_poll_count :
    (after (.txn frameA) (machine noCard (polled [0, 0, 0, 0x02] 8 ⟨0x1AA, 0, 0, 0⟩))).map
      (fun t => (t.t.n, t.t.outcome.kind, t.t.ackPending)) = some (3, .accepted, false) := by decide

/-- "`SENDCMD A; SENDCMD A` with no ACK between: the second raises `StaleFlags`"; shape 3 raises `IllegalFrame`. -/
theorem test_hazard_faults :
    ((after (.sendcmd frameA) (machine noCard (polled [0x02] 8 ⟨0x1AA, 0, 0, 0⟩))).bind
      (faultOf (.sendcmd frameA))) = some .staleFlags ∧
    faultOf (.sendcmd reservedFrame) State.reset = some .illegalFrame := by decide

/-- R116: the five kinds in the order the source names them. -/
theorem test_outcome_codes :
    [OutcomeKind.noResponseSent, .accepted, .rejected, .timedOut, .crcFailed].map OutcomeKind.code = [0, 1, 2, 3, 4] := by
  decide

/-! ## The card commands: the frame words of section 2.2 -/

theorem test_goIdle : traceOf .goIdle frameD .sent = some (sentTrace 0 0x100) := by decide
theorem test_sendIfCond :
    traceOf .sendIfCond frameA (shortReply 8 0x1AA) = some (shortTrace 0x000001AA 0x148 8 0x1AA) := by decide
theorem test_appCmd : traceOf (.appCmd 0x1234) frameD .sent = some (sentTrace 0x12340000 0x137) := by decide
theorem test_sendOpCond :
    traceOf (.sendOpCond false) frameB (shortReply 41 0xC0FF8000) =
      some (shortTrace 0x00FF8000 0x169 41 0xC0FF8000) ∧
    traceOf (.sendOpCond true) frameB (shortReply 41 0xC0FF8000) =
      some (shortTrace 0x40FF8000 0x169 41 0xC0FF8000) := by decide
theorem test_publishRca :
    traceOf .publishRca frameA (shortReply 3 0x12340500) = some (shortTrace 0 0x143 3 0x12340500) := by decide
theorem test_getCsd :
    traceOf (.getCsd 0xB368) frameC (.resp 63 ⟨0x0A400001, 0x1D5F7F80, 0x5B590000, 0x400E0032⟩) =
      some [.writeArg 0xB3680000, .writeCmd 0x189, .readSta 0x02, .readRespCmd 63, .readResp 0 0x0A400001,
        .readResp 1 0x1D5F7F80, .readResp 2 0x5B590000, .readResp 3 0x400E0032, .writeIcr 0x0F] := by decide
theorem test_setBlocklen :
    traceOf .setBlocklen frameA (shortReply 16 0x900) = some (shortTrace 0x200 0x150 16 0x900) := by decide
theorem test_select :
    traceOf (.select 0xB368) frameA (shortReply 7 0x700) = some (shortTrace 0xB3680000 0x147 7 0x700) := by decide
theorem test_deselect : traceOf .deselect frameD .sent = some (sentTrace 0 0x107) := by decide
theorem test_setBusWidth :
    traceOf .setBusWidth frameA (shortReply 6 0x920) = some (shortTrace 2 0x146 6 0x920) := by decide
theorem test_readSingle :
    traceOf (.readSingle 0xFFFFFE00) frameA (shortReply 17 0x900) =
      some (shortTrace 0xFFFFFE00 0x151 17 0x900) := by decide
theorem test_writeSingle :
    traceOf (.writeSingle 3) frameA (shortReply 24 0x900) = some (shortTrace 3 0x158 24 0x900) := by decide
theorem test_getStatus :
    traceOf (.getStatus 0x1234) frameA (shortReply 13 0x900) =
      some (shortTrace 0x12340000 0x14D 13 0x900) := by decide

/-! ## INIT -/

/-- The script of P1: a legacy card. -/
def legacyCard : List (Frame × Reply) :=
  [(dc.goIdleFrame, .sent), (dc.sendIfCondFrame, shortReply 63 0),
   (dc.appCmdFrame 0, .sent), (dc.sendOpCondFrame false, .crcfail ⟨0x00FF8000, 0, 0, 0⟩),
   (dc.appCmdFrame 0, .sent), (dc.sendOpCondFrame false, .crcfail ⟨0x80FF8000, 0, 0, 0⟩),
   (dc.publishRcaFrame, shortReply 3 0x12340500),
   (dc.getCsdFrame 0x1234, .resp 63 ⟨0, 0xC0010000, 0x00090397, 0⟩),
   (dc.setBlocklenFrame, shortReply 16 0x900)]

/-- P1: the descriptor, the sequencer's registers, the 49 accesses. -/
theorem test_init_legacy_card :
    (after .init (machine noCard (answers dc legacyCard))).map
      (fun t => (t.port.status, t.port.value, t.cd, t.seq, t.accesses.length)) =
    some (.ok, 0, standardCard,
      ⟨.ready, .standardCapacity, 0x80FF8000, ⟨0, 0x00090397, 0xC0010000, 0⟩, 1⟩, 49) := by decide

/-- P4, from the state P1 ends in: no card; the descriptor is cleared. -/
theorem test_init_no_card :
    (after .init (machine standardCard (answers dc [(dc.goIdleFrame, .timeout)]))).map
      (fun t => (t.port.status, t.port.value, t.cd, t.seq.state, t.accesses)) =
    some (.notPresent, 1, ⟨.error, 0, 0, .notPresent⟩, .error,
      [.writeArg 0, .writeCmd 0x100, .readSta 0x04, .writeIcr 0x0F]) := by decide

/-! ## DECODE -/

/-- D2, D3, D17, D19. -/
theorem test_decode_highCapacity :
    decodeBlocks .highCapacity ⟨0xFFFFFFFF, 0xFFFFFFC0, 0x1D5FFFFF, 0xFFFFFFFF⟩ = 7700480 ∧
    decodeBlocks .highCapacity ⟨0, 0x0000003F, 0xFFFF0000, 0⟩ = 4294967296 ∧
    decodeBlocks .highCapacity ⟨0, 0x00090397, 0xC0010000, 0⟩ = 1593837568 ∧
    decodeBlocks .error ⟨0, 0x0000003F, 0xFFFF0000, 0⟩ = 0 := by decide

/-- D7, D9, D10, D13, D16, the first through the operation. -/
theorem test_decode_standardCapacity :
    (after (.decode .standardCapacity ⟨0, 0x00090397, 0xC0010000, 0⟩) State.reset).map (fun t => t.decoded) =
      some 58880 ∧
    decodeBlocks .standardCapacity ⟨0, 0x000F03FF, 0xC0038000, 0⟩ = 134217728 ∧
    decodeBlocks .standardCapacity ⟨0, 0, 0, 0⟩ = 0 ∧
    decodeBlocks .standardCapacity ⟨0, 0x00080000, 0x40000000, 0⟩ = 4 ∧
    decodeBlocks .standardCapacity ⟨0, 0x0000003F, 0xFFFF0000, 0⟩ = 128 := by decide

/-! ## Blocks -/

/-- A block whose first and last word are those of the pattern of P3 and whose other bytes are 0. -/
def block : Memory := [(1, 0x01), (2, 0x02), (3, 0x03), (508, 0xFD), (509, 0xFC), (510, 0xFF), (511, 0xFE)]

/-- ENV's moves during the write of P3. -/
def writeScript : List EnvMove :=
  Reply.moves dc (dc.selectFrame 0x1234) (shortReply 7 0x700) ++
  answers dc (readyExchanges dc 0x1234 [shortReply 13 0x900]) ++
  Reply.moves dc (dc.writeSingleFrame 3) (shortReply 24 0x900) ++ [.quiet, .quiet, .quiet, .quiet] ++ pushMoves ++
  answers dc (readyExchanges dc 0x1234 [shortReply 13 0xE00, shortReply 13 0x900]) ++
  Reply.moves dc dc.deselectFrame .sent

/-- The 128 words of that block. -/
def blockWords : List Word := 0x03020100 :: List.replicate 126 0 ++ [0xFEFFFCFD]

/-- ENV's moves during the read of P3. -/
def readScript : List EnvMove :=
  Reply.moves dc (dc.selectFrame 0x1234) (shortReply 7 0x700) ++ [.quiet, .quiet] ++
  Reply.moves dc (dc.readSingleFrame 3) (shortReply 17 0x900) ++ drainMoves blockWords ++
  Reply.moves dc dc.deselectFrame .sent

/-- P3, request 1: 293 accesses, the first and the last word pushed, the phases of R222. -/
theorem test_wrblk :
    (after (.wrblk 3) { machine highCard writeScript with port := { State.reset.port with wbuf := block } }).map
      (fun t => (t.port.status, t.accesses.length, t.pushed.head?, t.pushed.getLast?, decide (t.cd = highCard ∧
        t.phasesEntered = [.select, .readyWait1, .command, .dataSetup, .stream, .readyWait2, .deselect, .idle]))) =
    some (.ok, 293, some 0x03020100, some 0xFEFFFCFD, true) := by decide +kernel

/-- P3, request 2: 402 accesses, the block comes back byte for byte, the phases of R216. -/
theorem test_rdblk :
    (after (.rdblk 3) (machine highCard readScript)).map
      (fun t => (t.port.status, t.accesses.length, t.port.rbuf, t.cd,
        decide (t.phasesEntered = [.select, .dataSetup, .command, .stream, .deselect, .idle]))) =
    some (.ok, 402, block, highCard, true) := by decide +kernel

/-- P6 and the overflow rule: no access. -/
theorem test_rdblk_bounds :
    (after (.rdblk 58880) (machine standardCard [])).map (fun t => (t.port.status, t.accesses, t.cd)) =
      some (.boundsError, [], standardCard) ∧
    (after (.rdblk 0x00800000) (machine { standardCard with blockCount := 134217728 } [])).map
      (fun t => (t.port.status, t.accesses)) = some (.boundsError, []) ∧
    (after (.rdblk 58880) { machine standardCard [] with port := { State.reset.port with rbuf := block } }).map
      (fun t => (t.port.rbuf, t.freed)) = some (block, 0) := by decide

/-- P9: the first ready-for-data poll expires. -/
theorem test_wrblk_not_ready :
    (after (.wrblk 3) (machine highCard (Reply.moves dc (dc.selectFrame 0x1234) (shortReply 7 0x700) ++
      answers dc (readyExchanges dc 0x1234 (List.replicate 4 (shortReply 13 0xE00)))))).map
      (fun t => (t.port.status, t.pushed, t.cd, t.bte.phase)) = some (.timeout, [], highCard, .idle) := by decide

/-! The causes a block operation can end with: its status, the last command sent, `BTE.n`, `BTE.iter`. -/

/-- How an operation on block 3 of the high-capacity card ends. -/
def endOf (i : Instr) (cfg : Config) (moves : List EnvMove) : Option (Status × Frame × Nat × Nat) :=
  (after i { machine highCard moves with cfg := cfg }).map fun t => (t.port.status, t.t.frame, t.bte.n, t.bte.iter)

/-- SELECT accepted, then the data path and READ_SINGLE with a reply. -/
def readUpTo (r : Reply) : List EnvMove :=
  Reply.moves dc (dc.selectFrame 0x1234) (shortReply 7 0x700) ++ [.quiet, .quiet] ++
    Reply.moves dc (dc.readSingleFrame 3) r

/-- The block with the counter at 4 after its last word. -/
def lateCounter : List EnvMove :=
  readUpTo (shortReply 17 0x900) ++ drainMoves (blockWords.take 127) ++
    [{ EnvMove.quiet with place := [0xFEFFFCFD] }, .quiet, { EnvMove.quiet with dcount := 4 }]

/-- B3: a pass more, with a word there and the counter at 0, pops nothing; B6, with `N_RX` = 130: the counter stays at
4. -/
theorem test_rdblk_counter :
    endOf (.rdblk 3) dc (lateCounter ++ [{ EnvMove.quiet with place := [0] }, .quiet] ++
      Reply.moves dc dc.deselectFrame .sent) = some (.ok, dc.deselectFrame, 128, 128) ∧
    endOf (.rdblk 3) { dc with nRx := 130 } (lateCounter ++
      [.quiet, { EnvMove.quiet with dcount := 4 }, .quiet, { EnvMove.quiet with dcount := 4 }]) =
      some (.timeout, dc.readSingleFrame 3, 128, 130) := by decide +kernel

/-- A failed SELECT, READ_SINGLE and DESELECT; two empty passes with `N_RX` = 2 (B5). -/
theorem test_rdblk_ends :
    endOf (.rdblk 3) dc (Reply.moves dc (dc.selectFrame 0x1234) .timeout) =
      some (.protocolError, dc.selectFrame 0x1234, 0, 0) ∧
    endOf (.rdblk 3) dc (readUpTo .timeout) = some (.protocolError, dc.readSingleFrame 3, 0, 0) ∧
    endOf (.rdblk 3) dc (readUpTo (shortReply 17 0x900) ++ drainMoves blockWords ++
      Reply.moves dc dc.deselectFrame .timeout) = some (.protocolError, dc.deselectFrame, 128, 127) ∧
    endOf (.rdblk 3) { dc with nRx := 2 } (readUpTo (shortReply 17 0x900) ++ List.replicate 4 .quiet) =
      some (.timeout, dc.readSingleFrame 3, 0, 2) := by decide +kernel

/-- SELECT accepted, then a GET_STATUS with a reply. -/
def writeUpToStatus (r : Reply) : List EnvMove :=
  Reply.moves dc (dc.selectFrame 0x1234) (shortReply 7 0x700) ++ answers dc (readyExchanges dc 0x1234 [r])

/-- The card ready, then WRITE_SINGLE with a reply. -/
def writeUpTo (r : Reply) : List EnvMove :=
  writeUpToStatus (shortReply 13 0x900) ++ Reply.moves dc (dc.writeSingleFrame 3) r

/-- WRITE_SINGLE accepted, then the clear of DATAEND, the data path and the first push. -/
def writeStarted : List EnvMove :=
  writeUpTo (shortReply 24 0x900) ++ [.quiet, .quiet, .quiet, .quiet]

/-- A failed GET_STATUS (B20) and WRITE_SINGLE; DATAEND at the first read (B10); two passes with neither TXHE nor
DATAEND and `N_TX` = 2 (B13). -/
theorem test_wrblk_ends_before_the_block :
    endOf (.wrblk 3) dc (writeUpToStatus .timeout) = some (.protocolError, dc.getStatusFrame 0x1234, 0, 0) ∧
    endOf (.wrblk 3) dc (writeUpTo .timeout) = some (.protocolError, dc.writeSingleFrame 3, 0, 0) ∧
    endOf (.wrblk 3) dc (writeStarted ++ [{ EnvMove.quiet with raise := 0b10000 }]) =
      some (.protocolError, dc.writeSingleFrame 3, 1, 0) ∧
    endOf (.wrblk 3) { dc with nTx := 2 } (writeStarted ++ [.quiet, .quiet]) =
      some (.timeout, dc.writeSingleFrame 3, 1, 2) := by decide +kernel

/-- After the block: the second ready-for-data poll expires (B18) or fails; DESELECT fails. -/
theorem test_wrblk_ends_after_the_block :
    endOf (.wrblk 3) dc (writeStarted ++ pushMoves ++
      answers dc (readyExchanges dc 0x1234 (List.replicate 4 (shortReply 13 0xE00)))) =
      some (.timeout, dc.getStatusFrame 0x1234, 128, 4) ∧
    endOf (.wrblk 3) dc (writeStarted ++ pushMoves ++ answers dc (readyExchanges dc 0x1234 [.timeout])) =
      some (.protocolError, dc.getStatusFrame 0x1234, 128, 0) ∧
    endOf (.wrblk 3) dc (writeStarted ++ pushMoves ++
      answers dc (readyExchanges dc 0x1234 [shortReply 13 0x900]) ++ Reply.moves dc dc.deselectFrame .timeout) =
      some (.protocolError, dc.deselectFrame, 128, 0) := by decide +kernel

/-- R62: the bytes of a presented buffer, the first and the last among them, lie at 0 to 511. -/
theorem test_present_wbuf :
    (State.reset.present (.host 4) (((Vector.replicate 512 0).set 0 0x11).set 511 0x22)).port.wbuf =
      [(0, 0x11), (511, 0x22)] := by decide +kernel

/-- Word packing: 0xDDCCBBAA stores AA, BB, CC, DD. -/
theorem test_word_packing :
    (Memory.storeWord [] 1 0xDDCCBBAA) = [(4, 0xAA), (5, 0xBB), (6, 0xCC), (7, 0xDD)] ∧
    block.loadWord 127 = 0xFEFFFCFD := by decide +kernel

/-! ## The query, the accessors, the illegal operations -/

/-- The status and the value ISBUSY 0x1234 ends with against a status word. -/
def busyAnswer (r : Reply) : Option (Status × BitVec 64) :=
  (after (.isbusy 0x1234) (machine noCard (r.moves dc frameA))).map fun t => (t.port.status, t.port.value)

theorem test_isbusy :
    busyAnswer (shortReply 13 0x00000900) = some (.ok, 0) ∧
    busyAnswer (shortReply 13 0x00000A00) = some (.ok, 1) ∧
    busyAnswer (shortReply 13 0xFFFFE1FF) = some (.ok, 0) ∧
    busyAnswer .timeout = some (.protocolError, 1) := by decide

theorem test_accessors :
    (after .volsz (machine standardCard [])).map (fun t => (t.port.value, t.accesses)) = some (58880, []) ∧
    (after .blksz State.reset).map (fun t => t.port.value) = some 512 ∧
    (after .isro State.reset).map (fun t => t.port.value) = some 0 ∧
    (after .lasterr (machine ⟨.error, 0, 0, .notPresent⟩ [])).map (fun t => t.port.value) = some 1 := by decide

theorem test_illegal :
    (after .illegal9 (machine standardCard [])).map (fun t => (t.port.status, t.port.value, t.cd, t.accesses)) =
      some (.illegalOperation, 0, standardCard, []) := by decide

/-! ## Witnesses: a state and operands that meet the hypotheses of each obligation

The obligations KnownWords, HostWords, TransportWords, AckCompletes, InitForgets, DecodeHighCapacity,
DecodeStandardCapacity, DecodeOtherClasses, BusyTable, Accessors, IllegalOperations, InvAtReset and ResetRegisters
have none. -/

theorem witness_DecodeEncode :
    dc.distinctIndices = true ∧ dc.opcondBase.getLsbD dc.hcsBit.val = false ∧ (Instr.illegal10to11 10).wf = true ∧
      (Instr.getCsd 0x1234).wf = true := by decide

theorem witness_CardWordsAreExact : decode dc (.card 0x02468000089) = .ok (.getCsd 0x1234) := by decide

theorem witness_SendcmdCompletes : frameC.expectedResponse ≠ .reserved ∧ State.reset.t.ackPending = false := by decide

theorem witness_IllegalFrameStops : reservedFrame.expectedResponse = .reserved := rfl

/-- The state after a SENDCMD with no ACK, and a block in range of its descriptor. -/
theorem witness_StaleFlagsStops :
    ∃ s, exec (.sendcmd frameA) (machine highCard (polled [0x02] 8 ⟨0x1AA, 0, 0, 0⟩)) = .next s ∧
      s.t.ackPending = true ∧ frameA.expectedResponse ≠ .reserved ∧ s.cd.InRange 7700479 :=
  ⟨_, rfl, rfl, by decide, by unfold CardDescriptor.InRange; decide⟩

theorem witness_TxnIsSendcmdThenAck : frameA.expectedResponse ≠ .reserved ∧ State.reset.t.ackPending = false := by decide

theorem witness_TxnAccesses :
    frameC.expectedResponse ≠ .reserved ∧ State.reset.t.ackPending = false ∧ 1 ≤ State.reset.cfg.nCmd := by decide

/-- One reply of each kind, under a Long shape and under the Ignore policy. -/
theorem witness_TxnRepliesClassified (r : Reply)
    (_ : r ∈ [Reply.sent, .resp 63 ⟨1, 2, 3, 4⟩, .crcfail ⟨5, 6, 7, 8⟩, .timeout, .silent]) (f : Frame)
    (_ : f ∈ [frameB, frameC]) :
    ∃ (s : State) (rest : List EnvMove), f.expectedResponse ≠ .reserved ∧ s.Scripted (r.moves dc f) ∧
      s.env.script = r.moves dc f ++ rest := by
  refine ⟨machine noCard (r.moves dc f), [], ?_, machine_scripted _ _, (List.append_nil _).symm⟩
  rcases List.mem_pair.1 ‹f ∈ _› with rfl | rfl <;> decide

/-- The clauses of R133: equal and different echoes of a Short response; any echo of a Long and of a None response. -/
theorem witness_TxnRepliesClassified_echo :
    dc.echoShort = .equal ∧ dc.echoLong = .always ∧ dc.echoNone = .always ∧
    frameA.expectedResponse = .short ∧ (8 : BitVec 6).toNat = frameA.index.toNat ∧
    (9 : BitVec 6).toNat ≠ frameA.index.toNat ∧ frameC.expectedResponse = .long ∧ frameD.expectedResponse = .none ∧
    (∀ (f : Frame) (r : Reply), (machine noCard (r.moves dc f)).cfg = dc ∧
      (machine noCard (r.moves dc f)).Scripted (r.moves dc f)) :=
  ⟨rfl, rfl, rfl, rfl, by decide, by decide, rfl, rfl, fun _ _ => ⟨rfl, machine_scripted _ _⟩⟩

theorem witness_IdentificationCommands : State.reset.t.ackPending = false := rfl
theorem witness_TransferCommands : State.reset.t.ackPending = false := rfl
theorem witness_InitCompletes : State.reset.t.ackPending = false := rfl
theorem witness_InitFrame : (machine highCard []).t.ackPending = false := rfl
theorem witness_InitStateOrder : State.reset.t.ackPending = false := rfl

/-- The premise, and an INIT that ends with Ok after k = 2 passes (P1). -/
theorem witness_InitCommands :
    (machine noCard (answers dc legacyCard)).t.ackPending = false ∧
    (after .init (machine noCard (answers dc legacyCard))).map (fun t => t.port.status) = some .ok := by decide

/-- The passes of P1's operating-conditions loop. -/
def busyPass : Reply × Reply := (.sent, .crcfail ⟨0x00FF8000, 0, 0, 0⟩)
def readyPass : Reply × Reply := (.sent, .crcfail ⟨0x80FF8000, 0, 0, 0⟩)
/-- The pass of P2's loop, and a busy one before it. -/
def busyPassHigh : Reply × Reply := (.sent, .crcfail ⟨0x40FF8000, 0, 0, 0⟩)
def readyPassHigh : Reply × Reply := (.sent, .crcfail ⟨0xC0FF8000, 0, 0, 0⟩)

theorem busyPass_polls : PollPass dc false busyPass false := ⟨.inl rfl, by decide, by decide⟩
theorem readyPass_polls : PollPass dc false readyPass true := ⟨.inl rfl, by decide, by decide⟩
theorem busyPassHigh_polls : PollPass dc true busyPassHigh false := ⟨.inl rfl, by decide, by decide⟩
theorem readyPassHigh_polls : PollPass dc true readyPassHigh true := ⟨.inl rfl, by decide, by decide⟩

/-- P1: the interface condition is rejected, one pass is busy. -/
theorem witness_InitReachesReady_legacy :
    (Reply.outcome dc dc.goIdleFrame .sent).kind.quietOk ∧
    (Reply.outcome dc dc.sendIfCondFrame (shortReply 63 0)).kind = .rejected ∧
    (∀ r ∈ [busyPass], PollPass dc false r false) ∧ PollPass dc false readyPass true ∧ [busyPass].length < dc.nOcr ∧
    (Reply.outcome dc dc.publishRcaFrame (shortReply 3 0x12340500)).kind = .accepted ∧
    (0x1234 : Rca) =
      (Reply.outcome dc dc.publishRcaFrame (shortReply 3 0x12340500)).words.w0.extractLsb' 16 16 ∧
    (Reply.outcome dc (dc.getCsdFrame 0x1234) (.resp 63 ⟨0, 0xC0010000, 0x00090397, 0⟩)).kind = .accepted ∧
    (Reply.outcome dc dc.setBlocklenFrame (shortReply 16 0x900)).kind = .accepted ∧ dc.buswidthStep = false ∧
    (machine noCard (answers dc legacyCard)).Scripted (answers dc
      ([(dc.goIdleFrame, .sent), (dc.sendIfCondFrame, shortReply 63 0)] ++
        opCondExchanges dc false ([busyPass] ++ [readyPass]) ++
        [(dc.publishRcaFrame, shortReply 3 0x12340500),
          (dc.getCsdFrame 0x1234, .resp 63 ⟨0, 0xC0010000, 0x00090397, 0⟩)] ++
        [(dc.setBlocklenFrame, shortReply 16 0x900)])) :=
  ⟨.inl rfl, by decide, by simp [busyPass_polls], readyPass_polls, by decide, by decide, by decide, by decide,
    by decide, rfl, machine_scripted _ _⟩

/-- The parameters of P2: the bus-width step runs. -/
def wideConfig : Config := { Config.defaults with buswidthStep := true }

/-- P2, with the three busy passes of the last permitted iteration. -/
def highCapacityCard : List (Frame × Reply) :=
  [(dc.goIdleFrame, .sent), (dc.sendIfCondFrame, shortReply 8 0x1AA)] ++
    opCondExchanges wideConfig true ([busyPassHigh, busyPassHigh, busyPassHigh] ++ [readyPassHigh]) ++
    [(dc.publishRcaFrame, shortReply 3 0xB3680500),
     (dc.getCsdFrame 0xB368, .resp 63 ⟨0x0A400001, 0x1D5F7F80, 0x5B590000, 0x400E0032⟩)] ++
    [(dc.selectFrame 0xB368, shortReply 7 0x700), (dc.appCmdFrame 0xB368, .sent),
     (dc.setBusWidthFrame, shortReply 6 0x920), (dc.deselectFrame, .sent)]

/-- The machine of P2. -/
def wideMachine : State := { machine noCard (answers wideConfig highCapacityCard) with cfg := wideConfig }

theorem witness_InitReachesReady_highCapacity :
    (Reply.outcome wideConfig wideConfig.goIdleFrame .sent).kind.quietOk ∧
    (Reply.outcome wideConfig wideConfig.sendIfCondFrame (shortReply 8 0x1AA)).kind = .accepted ∧
    (Reply.outcome wideConfig wideConfig.sendIfCondFrame (shortReply 8 0x1AA)).words.w0.extractLsb' 0 9 =
      wideConfig.ifcondArg12.extractLsb' 0 9 ∧
    (∀ r ∈ [busyPassHigh, busyPassHigh, busyPassHigh], PollPass wideConfig true r false) ∧
    PollPass wideConfig true readyPassHigh true ∧
    [busyPassHigh, busyPassHigh, busyPassHigh].length < wideConfig.nOcr ∧
    (Reply.outcome wideConfig (wideConfig.sendOpCondFrame true) readyPassHigh.2).words.w0.getLsbD 30 = true ∧
    (0xB368 : Rca) = (Reply.outcome wideConfig wideConfig.publishRcaFrame
      (shortReply 3 0xB3680500)).words.w0.extractLsb' 16 16 ∧
    (Reply.outcome wideConfig (wideConfig.getCsdFrame 0xB368)
      (.resp 63 ⟨0x0A400001, 0x1D5F7F80, 0x5B590000, 0x400E0032⟩)).kind = .accepted ∧
    wideConfig.buswidthStep = true ∧
    (Reply.outcome wideConfig (wideConfig.selectFrame 0xB368) (shortReply 7 0x700)).kind = .accepted ∧
    (Reply.outcome wideConfig (wideConfig.appCmdFrame 0xB368) .sent).kind.quietOk ∧
    (Reply.outcome wideConfig wideConfig.setBusWidthFrame (shortReply 6 0x920)).kind = .accepted ∧
    (Reply.outcome wideConfig wideConfig.deselectFrame .sent).kind.quietOk ∧
    wideMachine.Scripted (answers wideConfig highCapacityCard) :=
  ⟨.inl rfl, by decide, by decide,
    by simp only [List.forall_mem_cons, List.not_mem_nil, false_implies, implies_true, and_true]
       exact ⟨⟨.inl rfl, by decide, by decide⟩, ⟨.inl rfl, by decide, by decide⟩, ⟨.inl rfl, by decide, by decide⟩⟩,
    ⟨.inl rfl, by decide, by decide⟩, by decide, by decide, by decide, by decide, rfl, by decide, .inl rfl, by decide,
    .inl rfl, ⟨rfl, rfl, by decide, [], (List.append_nil _).symm⟩⟩

/-- The writes of a list of commands, as the words of `P.ARG` and `P.CMD`. -/
def writesOf (commands : List (Word × BitVec 9)) : List Access :=
  commands.flatMap fun x => [.writeArg x.1, .writeCmd x.2, .writeIcr 0x0F]

/-- P2's end state: the last permitted pass, no SET_BLOCKLEN, the four commands of the bus-width step. -/
theorem test_init_highCapacity_card :
    (after .init wideMachine).map (fun t => (t.port.status, t.cd, t.seq.iter, t.writes.drop 33)) =
      some (.ok, ⟨.highCapacity, 0xB368, 7700480, .none⟩, 3,
        writesOf [(0xB3680000, 0x189), (0xB3680000, 0x147), (0xB3680000, 0x137), (2, 0x146), (0, 0x107)]) := by decide

/-- The pass of P2b: powered up, bit 30 clear. -/
def downgradePass : Reply × Reply := (.sent, .crcfail ⟨0x80FF8000, 0, 0, 0⟩)

/-- P2b: a high-capacity candidate whose OCR word has bit 30 clear. -/
def downgradedCard : List (Frame × Reply) :=
  [(dc.goIdleFrame, .sent), (dc.sendIfCondFrame, shortReply 8 0x1AA)] ++
    opCondExchanges dc true ([] ++ [downgradePass]) ++
    [(dc.publishRcaFrame, shortReply 3 0x00010000),
     (dc.getCsdFrame 0x0001, .resp 63 ⟨0, 0xC0010000, 0x00090397, 0⟩)] ++
    [(dc.setBlocklenFrame, shortReply 16 0x900)]

theorem witness_InitReachesReady_downgrade :
    InterfaceReply dc true (shortReply 8 0x1AA) ∧ PollPass dc true downgradePass true ∧
    (Reply.outcome dc (dc.sendOpCondFrame true) downgradePass.2).words.w0.getLsbD 30 = false ∧
    (0x0001 : Rca) =
      (Reply.outcome dc dc.publishRcaFrame (shortReply 3 0x00010000)).words.w0.extractLsb' 16 16 ∧
    (Reply.outcome dc (dc.getCsdFrame 0x0001) (.resp 63 ⟨0, 0xC0010000, 0x00090397, 0⟩)).kind = .accepted ∧
    (Reply.outcome dc dc.setBlocklenFrame (shortReply 16 0x900)).kind = .accepted ∧ dc.buswidthStep = false ∧
    (machine noCard (answers dc downgradedCard)).Scripted (answers dc downgradedCard) :=
  ⟨.inr ⟨rfl, by decide, by decide⟩, ⟨.inl rfl, by decide, by decide⟩, by decide, by decide, by decide, by decide, rfl,
    machine_scripted _ _⟩

/-- P2b's end state: StandardCapacity, the capacity request in SEND_OP_COND, the address in GET_CSD, one SET_BLOCKLEN. -/
theorem test_init_downgraded_card :
    (after .init (machine noCard (answers dc downgradedCard))).map (fun t => (t.port.status, t.cd, t.seq.tentative,
      t.writes)) =
    some (.ok, ⟨.standardCapacity, 0x0001, 58880, .none⟩, .highCapacityCandidate,
      writesOf [(0, 0x100), (0x1AA, 0x148), (0, 0x137), (0x40FF8000, 0x169), (0, 0x143), (0x00010000, 0x189),
        (0x200, 0x150)]) := by decide

/-- How INIT ends against a list of replies: the status, the last command and its outcome. -/
def initEndOf (cfg : Config) (exchanges : List (Frame × Reply)) : Option (Status × Frame × OutcomeKind) :=
  (after .init { machine noCard (answers cfg exchanges) with cfg := cfg }).map fun t =>
    (t.port.status, t.t.frame, t.t.outcome.kind)

/-- R184, the rows after the loop: PUBLISH_RCA, GET_CSD and SET_BLOCKLEN not accepted. -/
theorem test_init_ends_after_the_loop :
    initEndOf dc (legacyCard.take 6 ++ [(dc.publishRcaFrame, .timeout)]) =
      some (.protocolError, dc.publishRcaFrame, .timedOut) ∧
    initEndOf dc (legacyCard.take 7 ++ [(dc.getCsdFrame 0x1234, .crcfail ⟨0, 0, 0, 0⟩)]) =
      some (.protocolError, dc.getCsdFrame 0x1234, .crcFailed) ∧
    initEndOf dc (legacyCard.take 8 ++ [(dc.setBlocklenFrame, shortReply 15 0x900)]) =
      some (.protocolError, dc.setBlocklenFrame, .rejected) := by decide +kernel

/-- R184, the bus-width step: each of its four commands outside its accepted set. -/
theorem test_init_ends_in_the_bus_width_step :
    initEndOf wideConfig (highCapacityCard.take 12 ++ [(dc.selectFrame 0xB368, .timeout)]) =
      some (.protocolError, dc.selectFrame 0xB368, .timedOut) ∧
    initEndOf wideConfig (highCapacityCard.take 13 ++ [(dc.appCmdFrame 0xB368, .timeout)]) =
      some (.protocolError, dc.appCmdFrame 0xB368, .timedOut) ∧
    initEndOf wideConfig (highCapacityCard.take 14 ++ [(dc.setBusWidthFrame, .sent)]) =
      some (.protocolError, dc.setBusWidthFrame, .noResponseSent) ∧
    initEndOf wideConfig (highCapacityCard.take 15 ++ [(dc.deselectFrame, .silent)]) =
      some (.protocolError, dc.deselectFrame, .timedOut) := by decide +kernel

/-- P4c: no answer at all: eight reads of `P.STA`, 11 accesses. -/
theorem test_init_silent :
    (after .init (machine noCard (answers dc [(dc.goIdleFrame, .silent)]))).map
      (fun t => (t.port.status, t.t.outcome.kind, t.t.n, t.accesses.length)) =
    some (.notPresent, .timedOut, 8, 11) := by decide

theorem witness_InitNoCard :
    ¬(Reply.outcome dc dc.goIdleFrame .timeout).kind.quietOk ∧
    ¬(Reply.outcome dc dc.goIdleFrame (.crcfail ⟨0, 0, 0, 0⟩)).kind.quietOk ∧
    ¬(Reply.outcome dc dc.goIdleFrame .silent).kind.quietOk ∧
    (∀ r, (machine standardCard (Reply.moves dc dc.goIdleFrame r)).Scripted (Reply.moves dc dc.goIdleFrame r)) :=
  ⟨by unfold OutcomeKind.quietOk; decide, by unfold OutcomeKind.quietOk; decide, by unfold OutcomeKind.quietOk; decide,
    fun _ => machine_scripted _ _⟩

/-- A reply for each case of the table of section 2.3: rejected; accepted with bits 11:9 ignored; accepted with bit 8
different; not accepted. -/
theorem witness_InitInterfaceCondition :
    (Reply.outcome dc dc.goIdleFrame .sent).kind.quietOk ∧
    (∀ r, (machine noCard (answers dc [(dc.goIdleFrame, .sent), (dc.sendIfCondFrame, r)])).Scripted
      (answers dc [(dc.goIdleFrame, .sent), (dc.sendIfCondFrame, r)])) ∧
    (Reply.outcome dc dc.sendIfCondFrame (shortReply 63 0)).kind = .rejected ∧
    (Reply.outcome dc dc.sendIfCondFrame (shortReply 8 0xFAA)).kind = .accepted ∧
    (Reply.outcome dc dc.sendIfCondFrame (shortReply 8 0xFAA)).words.w0.extractLsb' 0 9 =
      dc.ifcondArg12.extractLsb' 0 9 ∧
    (Reply.outcome dc dc.sendIfCondFrame (shortReply 8 0x0AA)).kind = .accepted ∧
    (Reply.outcome dc dc.sendIfCondFrame (shortReply 8 0x0AA)).words.w0.extractLsb' 0 9 ≠
      dc.ifcondArg12.extractLsb' 0 9 ∧
    (Reply.outcome dc dc.sendIfCondFrame (.crcfail ⟨0x1AA, 0, 0, 0⟩)).kind = .crcFailed :=
  ⟨.inl rfl, fun _ => machine_scripted _ _, by decide, by decide, by decide, by decide, by decide, by decide⟩

/-- The interface replies of a legacy card and of a high-capacity candidate. -/
theorem interfaceReplies : InterfaceReply dc false (shortReply 63 0) ∧
    InterfaceReply dc true (shortReply 8 0x1AA) :=
  ⟨.inl ⟨rfl, by decide⟩, .inr ⟨rfl, by decide, by decide⟩⟩

/-- P7: four busy passes, which is `N_OCR`. -/
theorem witness_InitPowerUpTimeout :
    (Reply.outcome dc dc.goIdleFrame .sent).kind.quietOk ∧
    InterfaceReply dc false (shortReply 63 0) ∧
    (∀ r ∈ List.replicate 4 busyPass, PollPass dc false r false) ∧ (List.replicate 4 busyPass).length = dc.nOcr ∧
    ∃ s : State, s.cfg = dc ∧ s.Scripted (answers dc
      ([(dc.goIdleFrame, .sent), (dc.sendIfCondFrame, shortReply 63 0)] ++
        opCondExchanges dc false (List.replicate 4 busyPass))) :=
  ⟨.inl rfl, interfaceReplies.1, fun r h => by rw [List.eq_of_mem_replicate h]; exact busyPass_polls, rfl,
    machine noCard _, rfl, machine_scripted _ _⟩

/-- The same with a high-capacity candidate. -/
theorem witness_InitPowerUpTimeout_candidate :
    InterfaceReply dc true (shortReply 8 0x1AA) ∧
    (∀ r ∈ List.replicate 4 busyPassHigh, PollPass dc true r false) ∧
    (List.replicate 4 busyPassHigh).length = dc.nOcr ∧
    ∃ s : State, s.cfg = dc ∧ s.Scripted (answers dc
      ([(dc.goIdleFrame, .sent), (dc.sendIfCondFrame, shortReply 8 0x1AA)] ++
        opCondExchanges dc true (List.replicate 4 busyPassHigh))) :=
  ⟨interfaceReplies.2, fun r h => by rw [List.eq_of_mem_replicate h]; exact busyPassHigh_polls, rfl,
    machine noCard _, rfl, machine_scripted _ _⟩

/-- The two clauses, each for the two kinds of card: a failed APP_CMD in the last permitted pass; a SEND_OP_COND that
times out in the first. -/
theorem witness_InitOpCondFailure (h : Bool) :
    ∃ (r1 : Reply) (busy : List (Reply × Reply)), InterfaceReply dc h r1 ∧
      (∀ r ∈ busy, PollPass dc h r false) ∧ busy.length + 1 = dc.nOcr ∧
      (¬(Reply.outcome dc (dc.appCmdFrame 0) .timeout).kind.quietOk ∧
        ∃ s : State, s.cfg = dc ∧ s.Scripted (answers dc ([(dc.goIdleFrame, .sent), (dc.sendIfCondFrame, r1)] ++
          opCondExchanges dc h busy ++ [(dc.appCmdFrame 0, .timeout)]))) ∧
      ((Reply.outcome dc (dc.appCmdFrame 0) .sent).kind.quietOk ∧
        (Reply.outcome dc (dc.sendOpCondFrame h) .timeout).kind ≠ .accepted ∧
        ∃ s : State, s.cfg = dc ∧ s.Scripted (answers dc ([(dc.goIdleFrame, .sent), (dc.sendIfCondFrame, r1)] ++
          opCondExchanges dc h ([] ++ [(.sent, .timeout)])))) := by
  have failed : ¬(Reply.outcome dc (dc.appCmdFrame 0) .timeout).kind.quietOk := by
    unfold OutcomeKind.quietOk; decide
  cases h with
  | false =>
    exact ⟨_, List.replicate 3 busyPass, interfaceReplies.1,
      fun r h => by rw [List.eq_of_mem_replicate h]; exact busyPass_polls, rfl,
      ⟨failed, machine noCard _, rfl, machine_scripted _ _⟩,
      .inl rfl, by decide, machine noCard _, rfl, machine_scripted _ _⟩
  | true =>
    exact ⟨_, List.replicate 3 busyPassHigh, interfaceReplies.2,
      fun r h => by rw [List.eq_of_mem_replicate h]; exact busyPassHigh_polls, rfl,
      ⟨failed, machine noCard _, rfl, machine_scripted _ _⟩,
      .inl rfl, by decide, machine noCard _, rfl, machine_scripted _ _⟩

/-- The words of D1 and D2, and of D10 and D15: equal in the fields, different outside them. -/
theorem witness_DecodeRange :
    let w1 : Words4 := ⟨0, 0, 0x1D5F0000, 0⟩
    let w2 : Words4 := ⟨0xFFFFFFFF, 0xFFFFFFC0, 0x1D5FFFFF, 0xFFFFFFFF⟩
    let w3 : Words4 := ⟨0, 0, 0, 0⟩
    let w4 : Words4 := ⟨0xFFFFFFFF, 0xFFF0FC00, 0x3FFC7FFF, 0xFFFFFFFF⟩
    w1 ≠ w2 ∧ w2.w1.extractLsb' 0 6 = w1.w1.extractLsb' 0 6 ∧ w2.w2.extractLsb' 16 16 = w1.w2.extractLsb' 16 16 ∧
    w3 ≠ w4 ∧ w4.w1.extractLsb' 0 10 = w3.w1.extractLsb' 0 10 ∧ w4.w1.extractLsb' 16 4 = w3.w1.extractLsb' 16 4 ∧
    w4.w2.extractLsb' 15 3 = w3.w2.extractLsb' 15 3 ∧ w4.w2.extractLsb' 30 2 = w3.w2.extractLsb' 30 2 := by decide

/-- The two clauses at their boundary values: the block count itself, and 2^23 on the largest StandardCapacity card. -/
theorem witness_BlockOutOfRange :
    (machine standardCard []).cd.blockCount.toNat ≤ (58880 : Word).toNat ∧
    (machine largestStandardCard []).cd.cls = .standardCapacity ∧ 2 ^ 23 ≤ (0x00800000 : Word).toNat ∧
    ¬(machine largestStandardCard []).cd.blockCount.toNat ≤ (0x00800000 : Word).toNat := by decide

/-- Uninitialized, and Failed after an abort. -/
theorem witness_BlocksNeedReady :
    State.reset.cd.Inv ∧ State.reset.mode ≠ .ready ∧
    (machine ⟨.error, 0, 0, .timeout⟩ []).cd.Inv ∧ (machine ⟨.error, 0, 0, .timeout⟩ []).mode ≠ .ready :=
  ⟨⟨by decide, by decide, by decide, by decide⟩, by decide, ⟨by decide, by decide, by decide, by decide⟩, by decide⟩

/-- The last block of each of the three cards is in range. -/
theorem inRange_last : standardCard.InRange 58879 ∧ largestStandardCard.InRange 0x007FFFFF ∧ highCard.InRange 7700479 := by
  unfold CardDescriptor.InRange; decide

theorem inRange_three : highCard.InRange 3 := by unfold CardDescriptor.InRange; decide

theorem witness_ReadCompletes : (machine highCard []).cd.InRange 7700479 ∧ (machine highCard []).t.ackPending = false :=
  ⟨inRange_last.2.2, rfl⟩

/-- The premises, and a read that ends with Ok (`test_rdblk` runs it). -/
theorem witness_ReadWrites :
    (machine highCard readScript).cd.InRange 3 ∧ (machine highCard readScript).t.ackPending = false ∧
    (after (.rdblk 3) (machine highCard readScript)).map (fun t => t.port.status) = some .ok :=
  ⟨inRange_three, rfl, by decide +kernel⟩

theorem witness_BlockAddress :
    highCard.InRange 7700479 ∧ highCard.cls = .highCapacity ∧
    largestStandardCard.InRange 0x007FFFFF ∧ largestStandardCard.cls = .standardCapacity :=
  ⟨inRange_last.2.2, rfl, inRange_last.2.1, rfl⟩

theorem witness_ReadDelivers :
    (machine highCard readScript).cd.InRange 3 ∧ (machine highCard readScript).t.ackPending = false ∧
    (machine highCard readScript).port.rbuf.wf = true ∧
    (after (.rdblk 3) (machine highCard readScript)).map (fun t => t.port.status) = some .ok :=
  ⟨inRange_three, rfl, rfl, witness_ReadWrites.2.2⟩

theorem witness_ReadOfPlacedBlock :
    highCard.InRange 3 ∧ (machine highCard readScript).env.rx = [] ∧ blockWords.length = 128 ∧ 128 ≤ dc.nRx ∧
    (machine highCard readScript).port.rbuf.wf = true ∧
    (Reply.outcome dc (dc.selectFrame 0x1234) (shortReply 7 0x700)).kind = .accepted ∧
    (Reply.outcome dc (dc.readSingleFrame (translateBlock .highCapacity 3)) (shortReply 17 0x900)).kind =
      .accepted ∧
    (Reply.outcome dc dc.deselectFrame .sent).kind.quietOk ∧
    (machine highCard readScript).Scripted (Reply.moves dc (dc.selectFrame 0x1234) (shortReply 7 0x700) ++
      [.quiet, .quiet] ++
      Reply.moves dc (dc.readSingleFrame (translateBlock .highCapacity 3)) (shortReply 17 0x900) ++
      drainMoves blockWords ++ Reply.moves dc dc.deselectFrame .sent) :=
  ⟨inRange_three, rfl, by decide +kernel, by decide, rfl, by decide, by decide, .inl rfl, machine_scripted _ _⟩

/-- The two clauses: SELECT rejected by its echo; READ_SINGLE timed out. -/
theorem witness_ReadCommandFailure :
    highCard.InRange 3 ∧
    (Reply.outcome dc (dc.selectFrame 0x1234) (shortReply 63 0x700)).kind ≠ .accepted ∧
    (∀ r, (machine highCard (Reply.moves dc (dc.selectFrame 0x1234) r)).Scripted
      (Reply.moves dc (dc.selectFrame 0x1234) r)) ∧
    (Reply.outcome dc (dc.selectFrame 0x1234) (shortReply 7 0x700)).kind = .accepted ∧
    (Reply.outcome dc (dc.readSingleFrame (translateBlock .highCapacity 3)) .timeout).kind ≠ .accepted ∧
    ∃ s : State, s.cd = highCard ∧ s.cfg = dc ∧
      s.Scripted (Reply.moves dc (dc.selectFrame 0x1234) (shortReply 7 0x700) ++ [.quiet, .quiet] ++
        Reply.moves dc (dc.readSingleFrame (translateBlock .highCapacity 3)) .timeout) :=
  ⟨inRange_three, by decide, fun _ => machine_scripted _ _, by decide, by decide, machine highCard _, rfl, rfl,
    machine_scripted _ _⟩

theorem witness_WriteCompletes :
    (machine largestStandardCard []).cd.InRange 0x007FFFFF ∧ (machine largestStandardCard []).t.ackPending = false :=
  ⟨inRange_last.2.1, rfl⟩

/-- The premises, and a write that ends with Ok (`test_wrblk` runs it). -/
theorem witness_WriteWrites :
    (machine highCard writeScript).cd.InRange 3 ∧ (machine highCard writeScript).t.ackPending = false ∧
    (after (.wrblk 3) (machine highCard writeScript)).map (fun t => t.port.status) = some .ok :=
  ⟨inRange_three, rfl, by decide +kernel⟩

theorem witness_WritePushes :
    (machine highCard writeScript).cd.InRange 3 ∧ (machine highCard writeScript).t.ackPending = false ∧
    (after (.wrblk 3) (machine highCard writeScript)).map (fun t => t.port.status) = some .ok :=
  witness_WriteWrites

theorem statusBusy : StatusReply dc 0x1234 (shortReply 13 0xE00) false := ⟨by decide, by decide⟩
theorem statusReady : StatusReply dc 0x1234 (shortReply 13 0x900) true := ⟨by decide, by decide⟩

/-- P3, request 1: no busy answer before the command, one after the data. -/
theorem witness_WriteOfWholeBlock :
    highCard.InRange 3 ∧ 128 ≤ dc.nTx ∧
    (Reply.outcome dc (dc.selectFrame 0x1234) (shortReply 7 0x700)).kind = .accepted ∧
    (∀ r ∈ [shortReply 13 0xE00], StatusReply dc 0x1234 r false) ∧
    StatusReply dc 0x1234 (shortReply 13 0x900) true ∧ [shortReply 13 0xE00].length < dc.nReady ∧
    (Reply.outcome dc (dc.writeSingleFrame (translateBlock .highCapacity 3)) (shortReply 24 0x900)).kind =
      .accepted ∧
    (Reply.outcome dc dc.deselectFrame .sent).kind.quietOk ∧
    (machine highCard writeScript).Scripted (Reply.moves dc (dc.selectFrame 0x1234) (shortReply 7 0x700) ++
      answers dc (readyExchanges dc 0x1234 ([] ++ [shortReply 13 0x900])) ++
      Reply.moves dc (dc.writeSingleFrame (translateBlock .highCapacity 3)) (shortReply 24 0x900) ++
      [.quiet, .quiet, .quiet, .quiet] ++ pushMoves ++
      answers dc (readyExchanges dc 0x1234 ([shortReply 13 0xE00] ++ [shortReply 13 0x900])) ++
      Reply.moves dc dc.deselectFrame .sent) :=
  ⟨inRange_three, by decide, by decide, fun r h => by rw [List.mem_singleton.1 h]; exact statusBusy, statusReady,
    by decide, by decide, .inl rfl, machine_scripted _ _⟩

/-- P9. -/
theorem witness_WriteReadyTimeout :
    highCard.InRange 3 ∧ (Reply.outcome dc (dc.selectFrame 0x1234) (shortReply 7 0x700)).kind = .accepted ∧
    (∀ r ∈ List.replicate 4 (shortReply 13 0xE00), StatusReply dc 0x1234 r false) ∧
    (List.replicate 4 (shortReply 13 0xE00)).length = dc.nReady ∧
    ∃ s : State, s.cd = highCard ∧ s.cfg = dc ∧
      s.Scripted (Reply.moves dc (dc.selectFrame 0x1234) (shortReply 7 0x700) ++
        answers dc (readyExchanges dc 0x1234 (List.replicate 4 (shortReply 13 0xE00)))) :=
  ⟨inRange_three, by decide, fun r h => by rw [List.eq_of_mem_replicate h]; exact statusBusy, rfl, machine highCard _,
    rfl, rfl, machine_scripted _ _⟩

/-- A buffer in canonical form; an address inside the last word and one just outside it. -/
theorem witness_WordPacking : block.wf = true ∧ (511 / 4 = (127 : Fin 128).val) ∧ 507 / 4 ≠ (127 : Fin 128).val := by
  decide

/-- The premise, and a run of each clause: Accepted; TimedOut. -/
theorem witness_IsbusyCompletes :
    (machine noCard (Reply.moves dc frameA .timeout)).t.ackPending = false ∧
    busyAnswer (shortReply 13 0x00000A00) = some (.ok, 1) ∧ busyAnswer .timeout = some (.protocolError, 1) := by
  decide

theorem witness_IsbusyIgnoresDescriptor : State.reset.t.ackPending = false := rfl

/-- The reset state with a word of format H presented. -/
def presented (w : BitVec 36) : State := State.reset.present (.host w) (Vector.replicate 512 0)

theorem witness_StepRunsDecoded :
    (presented 0x000000052).port.request = some (.host 0x000000052) ∧
    decode (presented 0x000000052).cfg (.host 0x000000052) = .ok (.rdblk 5) := by decide

theorem witness_HostOperationsEnd :
    (presented 0x000000001).port.request = some (.host 0x000000001) ∧ (presented 0x000000001).t.ackPending = false := by
  decide

theorem witness_OnlyInitWritesDescriptor :
    Instr.volsz ≠ .init ∧ ∃ t, exec .volsz State.reset = .next t := ⟨by decide, _, rfl⟩

/-- The premise, and a run of each clause: Ready (P1); Failed (P4). -/
theorem witness_ModesAfterInit :
    State.reset.t.ackPending = false ∧
    (after .init (machine noCard (answers dc legacyCard))).map (fun t => t.port.status) = some .ok ∧
    (after .init (machine noCard (answers dc [(dc.goIdleFrame, .timeout)]))).map (fun t => t.port.status) =
      some .notPresent := by decide

/-- With nothing pending, and with an acknowledgment pending. -/
theorem witness_AccessesInOrder :
    (∃ t, exec (.txn frameA) State.reset = .next t) ∧ State.reset.stage = .idle ∧
    ∃ s t, exec (.sendcmd frameA) (machine noCard (polled [0x02] 8 ⟨0x1AA, 0, 0, 0⟩)) = .next s ∧
      s.stage = .pending ∧ exec .ack s = .next t :=
  ⟨⟨_, rfl⟩, rfl, _, _, rfl, rfl, rfl⟩

/-- What the order forbids: `P.CMD` without `P.ARG`; a second start with no acknowledgment; a response register read
after the acknowledgment; a push inside a command. -/
theorem test_stage_refuses :
    CommandStage.idle.run [.writeCmd 0x148] = none ∧
    CommandStage.idle.run [.writeArg 0, .writeCmd 0x148, .writeArg 0] = none ∧
    CommandStage.idle.run [.writeArg 0, .writeCmd 0x148, .readSta 2, .writeIcr 0x0F, .readResp 0 0] = none ∧
    CommandStage.pending.run [.fifoPush 0] = none := by decide

/-- The state INIT leaves of P1, with VOLSZ presented. -/
def readyState : State :=
  { machine standardCard [] with
    seq := ⟨.ready, .standardCapacity, 0x80FF8000, ⟨0, 0x00090397, 0xC0010000, 0⟩, 1⟩
    port := { State.reset.port with request := some (.host 4) } }

theorem readyState_inv : readyState.Inv where
  cd := ⟨by decide, by decide, by decide, by decide⟩
  seq := ⟨by decide, by decide, by decide⟩
  t := ⟨by decide, by decide⟩
  p := ⟨by decide, by decide, by decide, by decide⟩
  bte := ⟨by decide, by decide⟩
  clear := by unfold Env.ClearLaw; decide
  paired := by decide
  wbuf := by decide
  rbuf := by decide

theorem witness_InvKept : readyState.Inv ∧ ∃ t, step readyState = .next t := ⟨readyState_inv, _, rfl⟩

/-- The premises of the three clauses; a first and a last byte of WBUF, and one beyond it. -/
theorem witness_HostPort :
    readyState.endOperation.port.request = none ∧ readyState.port.request ≠ none ∧ readyState.endOperation.Inv ∧
    0 < 512 ∧ 511 < 512 ∧ 512 ≤ 512 :=
  ⟨rfl, by decide, { cd := readyState_inv.cd, seq := readyState_inv.seq, t := readyState_inv.t, p := readyState_inv.p,
                     bte := readyState_inv.bte, clear := readyState_inv.clear, paired := readyState_inv.paired,
                     wbuf := rfl, rbuf := rfl }, by decide, by decide, by decide⟩

/-! ### The laws of ENV -/

/-- The reset state with DATAEND and CMDREND latched and two words to pop. -/
def loaded : State :=
  { State.reset with
    env := { State.reset.env with latched := 0b10010, rx := [7, 9], script := List.replicate 4 .quiet } }

/-- DATAEND is read as 1 and latched, a mask spares it, and a pop gives a word. -/
theorem witness_LatchLaw :
    (readSta loaded).2.getLsbD (4 : Fin 5).val = true ∧ loaded.env.latched.getLsbD (4 : Fin 5).val = true ∧
    (0b01111#5).getLsbD (4 : Fin 5).val = false ∧ ∃ w t, fifoPop loaded = .next (t, w) :=
  ⟨by decide, by decide, by decide, _, _, rfl⟩

/-- A mask with the bit, a flag that is down, a `P.CMD` without start, and a pop in such a state. -/
theorem witness_ClearLaw :
    (0b01111#5).getLsbD (1 : Fin 5).val = true ∧ (0b01111#5).getLsbD (1 : Fin 4).val = true ∧ loaded.FlagDown 0 ∧
    (0x048#9).getLsbD 8 = false ∧ ∃ w t, fifoPop loaded = .next (t, w) :=
  ⟨by decide, by decide, ⟨by decide, by decide⟩, by decide, _, _, rfl⟩

/-- A read of `P.STA` that shows CMDREND, and a state in which the response registers are held. -/
theorem witness_StabilityLaw :
    staCmdRend (readSta loaded).2 = true ∧ (readSta loaded).1.Held 0 ⟨0, 0, 0, 0⟩ ∧
    ∃ w t, fifoPop (readSta loaded).1 = .next (t, w) := ⟨by decide, ⟨by decide, by decide, by decide⟩, _, _, rfl⟩

/-- A pop that gives a word; a read that shows RXDAVL; words to pop; and an empty FIFO that ENV puts nothing into. -/
theorem witness_FifoOrderLaw :
    (∃ t, fifoPop loaded = .next (t, 7) ∧ t.env.rx = [9]) ∧ staRxDavl (readSta loaded).2 = true ∧ loaded.env.rx ≠ [] ∧
    (machine noCard [EnvMove.quiet]).env.move.rx = [] := ⟨⟨_, rfl, by decide⟩, by decide, by decide, by decide⟩

end Sys2Proof.Tests
end

section
/-! SUPPORT. The state after reset, register by register (10_state.md R50). -/

namespace Sys2Proof.Machine

/-- An unclassified card leaves the machine uninitialized (60_exceptions.md R286). -/
theorem State.mode_of_unknown {s : State} (h : s.cd.cls = .unknown) : s.mode = .uninitialized := by
  unfold State.mode
  rw [h]

/-- `T.FRAME` is the all-zero word after reset: index and argument 0, shape None, policy Require (R92). -/
theorem State.reset_frame_toWord : State.reset.t.frame.toWord = 0 := by decide

/-- Settles O56: every register is the field `State.reset` lists; `T.FRAME` is read through its word, and the mode
through the class. -/
theorem resetRegisters : Obligations.ResetRegisters := by
  unfold Obligations.ResetRegisters
  exact ⟨rfl, rfl, rfl, rfl, rfl, State.reset_frame_toWord, rfl, rfl, rfl, rfl, rfl, rfl, rfl, rfl, rfl, rfl, rfl, rfl, rfl,
    rfl, rfl, State.mode_of_unknown rfl⟩

end Sys2Proof.Machine
end

section
/-! SUPPORT. The block address (20_memory.md R63 to R65) and the latch law of ENV (R75). -/

namespace Sys2Proof.Machine

/-- R63: a HighCapacity card takes the block number itself. -/
theorem translateBlock_highCapacity (block : Word) : translateBlock .highCapacity block = block := rfl

/-- R63: a StandardCapacity card takes the byte offset, nine bits up. -/
theorem translateBlock_standardCapacity (block : Word) : translateBlock .standardCapacity block = block <<< 9 := rfl

/-- R65: a StandardCapacity block in range lies below 2^23. -/
theorem CardDescriptor.InRange.lt_of_standardCapacity {cd : CardDescriptor} {block : Word} (h : cd.InRange block)
    (hc : cd.cls = .standardCapacity) : block.toNat < 2 ^ 23 := by
  obtain ⟨-, hbound⟩ := h
  exact Nat.lt_of_not_le fun hge => hbound ⟨hc, hge⟩

/-- Below 2^23 the nine bits a byte offset shifts in push none out at the top. -/
theorem toNat_translateBlock_standardCapacity {block : Word} (h : block.toNat < 2 ^ 23) :
    (translateBlock .standardCapacity block).toNat = block.toNat * 512 := by
  rw [translateBlock_standardCapacity, BitVec.toNat_shiftLeft, Nat.shiftLeft_eq]
  omega

/-- A byte offset is a whole number of 512-byte blocks, in range or not. -/
theorem translateBlock_standardCapacity_low (block : Word) :
    (translateBlock .standardCapacity block).extractLsb' 0 9 = 0#9 := by
  rw [translateBlock_standardCapacity]
  apply BitVec.eq_of_getLsbD_eq
  intro i hi
  simp [hi]

/-- Settles O33: each class by its equation; R65's bound is what keeps the StandardCapacity address from wrapping. -/
theorem blockAddress : Obligations.BlockAddress := by
  unfold Obligations.BlockAddress
  intro cd block hr
  constructor
  · intro hc
    rw [hc, translateBlock_highCapacity]
  · intro hc
    have hlt : block.toNat < 2 ^ 23 := hr.lt_of_standardCapacity hc
    rw [hc]
    exact ⟨toNat_translateBlock_standardCapacity hlt, translateBlock_standardCapacity_low block⟩

/-- R38: a read of `P.STA` gives the latched flags as that read leaves them. -/
theorem readSta_getLsbD (s : State) (i : Fin 5) :
    (readSta s).2.getLsbD i.val = (readSta s).1.env.latched.getLsbD i.val :=
  Env.sta_getLsbD s.env.move i.val i.isLt

/-- R41: a write of `P.ICR` spares a latched flag whose bit it leaves 0. -/
theorem Env.cleared_keeps {e : Env} {m : BitVec 5} {i : Fin 5} (h : e.latched.getLsbD i.val = true)
    (hm : m.getLsbD i.val = false) : (e.cleared m).latched.getLsbD i.val = true := by
  rw [Env.cleared_latched, BitVec.getLsbD_and, BitVec.getLsbD_not, h, hm]
  simp only [i.isLt, decide_true, Bool.not_false, Bool.and_self]

/-- R37: a write of `P.CMD`, with start or without, leaves the latched flags to ENV's move. -/
theorem writeCmd_latched (v : BitVec 9) (s : State) : (writeCmd v s).env.latched = s.env.move.latched := by
  rw [writeCmd_env]
  split <;> rfl

/-- R45: a pop leaves the latched flags to ENV's move. -/
theorem fifoPop_latched {s t : State} {w : Word} (h : fifoPop s = .next (t, w)) :
    t.env.latched = s.env.move.latched := by
  obtain ⟨_, _, henv⟩ := fifoPop_next h
  rw [henv]

/-- Settles O57: ENV's move only adds flags (`Env.move_keeps`), and beside it no access but a write of `P.ICR` touches
them. -/
theorem latchLaw : Obligations.LatchLaw := by
  unfold Obligations.LatchLaw
  intro s i
  constructor
  · intro hread
    rwa [readSta_getLsbD] at hread
  · intro hs
    have kept : s.env.move.latched.getLsbD i.val = true := Env.move_keeps hs
    refine ⟨fun _ => kept, fun v => ?cmd, fun _ => kept, fun _ => kept, fun _ hm => Env.cleared_keeps kept hm,
      ⟨kept, ?sta⟩, kept, fun _ => kept, kept, fun _ => kept, fun _ _ hpop => ?pop⟩
    case cmd => rwa [writeCmd_latched]
    case sta => rwa [readSta_getLsbD]
    case pop => rwa [fifoPop_latched hpop]

end Sys2Proof.Machine
end

section
/-! SUPPORT. The words of formats H, T and TXN, field by field (30_encoding.md R92 to R96). -/

namespace Sys2Proof

/-- Settles O3: the word's two fields are the op code and the operand (`hostWord_slices`), and each of the sixteen codes
then selects its own arm of `decodeHost`. -/
theorem hostWords : Obligations.HostWords := by
  unfold Obligations.HostWords
  intro c operand
  have hop (op : BitVec 4) : (operand ++ op).extractLsb' 0 4 = op := (hostWord_slices operand op).1
  have hoperand (op : BitVec 4) : (operand ++ op).extractLsb' 4 32 = operand := (hostWord_slices operand op).2
  simp only [decode, decodeHost, hop, hoperand]
  exact ⟨rfl, rfl, rfl, rfl, rfl, rfl, rfl, rfl, rfl, rfl, rfl, rfl, rfl, rfl, rfl, rfl⟩

/-- R94: a policy is the one a code names exactly when the code is its own. -/
theorem CrcPolicy.ofCode_eq_iff (c : BitVec 1) (p : CrcPolicy) : CrcPolicy.ofCode c = p ↔ c = p.code :=
  ⟨fun h => by rw [← h, CrcPolicy.code_ofCode], fun h => by rw [h, CrcPolicy.ofCode_code]⟩

/-- R93: a shape is the one a code names exactly when the code is its own. -/
theorem Shape.ofCode_eq_iff (c : BitVec 2) (s : Shape) : Shape.ofCode c = s ↔ c = s.code :=
  ⟨fun h => by rw [← h, Shape.code_ofCode], fun h => by rw [h, Shape.ofCode_code]⟩

/-- R92: the frame of a word given as its four fields. -/
theorem Frame.ofWord_append (argument : Word) (policy : BitVec 1) (shape : BitVec 2) (index : BitVec 6) :
    Frame.ofWord (argument ++ policy ++ shape ++ index) =
      { index := index, argument := argument, expectedResponse := .ofCode shape, crcPolicy := .ofCode policy } := by
  obtain ⟨hindex, hshape, hpolicy, hargument⟩ := frameWord_slices argument policy shape index
  rw [Frame.ofWord, hindex, hshape, hpolicy, hargument]

/-- R113(c): with t = 1 the frame bits are ignored. -/
theorem decodeTransport_append_one (w : BitVec 41) : decodeTransport (w ++ 1#1) = .ack := by
  obtain ⟨ht, -⟩ := transportWord_slices w 1#1
  rw [decodeTransport, if_pos ht]

/-- R113(b): with t = 0 the other bits are the frame's. -/
theorem decodeTransport_append_zero (w : BitVec 41) : decodeTransport (w ++ 0#1) = .sendcmd (.ofWord w) := by
  obtain ⟨ht, hw⟩ := transportWord_slices w 0#1
  rw [decodeTransport, ht, hw, if_neg (by decide)]

/-- Settles O4: the frame is `Frame.ofWord` of the four fields; its shape and policy are read off their codes. -/
theorem transportWords : Obligations.TransportWords := by
  unfold Obligations.TransportWords
  intro c argument policy shape index
  refine ⟨congrArg Except.ok (decodeTransport_append_one _), .ofWord (argument ++ policy ++ shape ++ index),
    congrArg Except.ok (decodeTransport_append_zero _), rfl, ?_⟩
  rw [Frame.ofWord_append]
  exact ⟨rfl, rfl, CrcPolicy.ofCode_eq_iff policy .require, CrcPolicy.ofCode_eq_iff policy .ignore,
    Shape.ofCode_eq_iff shape .none, Shape.ofCode_eq_iff shape .short, Shape.ofCode_eq_iff shape .long,
    Shape.ofCode_eq_iff shape .reserved⟩

end Sys2Proof
end

section
/-! SUPPORT. The acknowledgment (40_transport.md R136) on the latched flags of ENV. -/

namespace Sys2Proof.Machine

/-- R41: a write of `P.ICR` clears a latched flag whose bit it sets. -/
theorem Env.cleared_clears {e : Env} {m : BitVec 5} {i : Nat} (hm : m.getLsbD i = true) :
    (e.cleared m).latched.getLsbD i = false := by
  rw [Env.cleared_latched, BitVec.getLsbD_and, BitVec.getLsbD_not, hm, Bool.not_true, Bool.and_false, Bool.and_false]

/-- R136: after an acknowledgment no command flag is latched, whatever ENV raised before the write. -/
theorem acknowledge_noCommandFlag (s : State) : (acknowledge s).env.NoCommandFlag := by
  rw [acknowledge_env, Env.noCommandFlag_iff]
  intro i hi
  have hm : (0b01111#5).getLsbD i = true := by interval_cases i <;> rfl
  exact Env.cleared_clears hm

/-- R136: the mask of ACK leaves DATAEND out, so a latched DATAEND stays. -/
theorem acknowledge_keeps_dataEnd {s : State} (h : s.env.latched.getLsbD 4 = true) :
    (acknowledge s).env.latched.getLsbD 4 = true := by
  have kept : s.env.move.latched.getLsbD 4 = true := Env.move_keeps h
  rw [acknowledge_env]
  exact Env.cleared_keeps (i := 4) kept rfl

/-- Settles O9: ACK is `acknowledge`, which checks nothing, so its laws give each clause. -/
theorem ackCompletes : Obligations.AckCompletes := by
  unfold Obligations.AckCompletes
  intro s
  exact ⟨acknowledge s, rfl, acknowledge_accesses s, rfl, acknowledge_p s, acknowledge_noCommandFlag s,
    acknowledge_keeps_dataEnd, acknowledge_around s⟩

end Sys2Proof.Machine
end

section
/-! SUPPORT. The order of the sequencer's states (42_init_sequencer.md R172) and its second state,
InterfaceCondition (R174). -/

namespace Sys2Proof.Machine

/-- R170: with nothing pending INIT runs its sequence. -/
theorem exec_init_next {s : State} (ha : s.t.ackPending = false) : exec .init s = .next (initSequence s) :=
  execInit_next ha

/-- Settles O18: `initSequence_end` gives the states entered at each of INIT's two ends; the last of them is the one the
sequencer stands in. -/
theorem initStateOrder : Obligations.InitStateOrder := by
  unfold Obligations.InitStateOrder
  intro s ha
  rcases initSequence_end s ha with hready | haborted
  · refine ⟨_, initStates ++ [.ready], exec_init_next ha, hready.entered, ?_, .inl rfl⟩
    rw [hready.state, List.getLast?_concat]
  · obtain ⟨n, hlo, hhi, hentered⟩ := haborted.entered
    refine ⟨_, initStates.take n ++ [.error], exec_init_next ha, hentered, ?_, .inr ⟨n, hlo, hhi, rfl⟩⟩
    rw [haborted.state, List.getLast?_concat]

/-- A machine that ENV is about to answer stands at the start of the exchanges (70_reset_and_hazards.md R312). -/
theorem State.Scripted.onScript {s : State} {xs : List (Frame × Reply)} (h : s.Scripted (answers s.cfg xs)) :
    ∃ rest, OnScript s.cfg xs rest s := by
  obtain ⟨rest, hscript⟩ := h.script
  exact ⟨rest, rfl, h.polled, h.flags, hscript⟩

section interface

variable {s u v : State} {c : Config} {xs : List (Frame × Reply)} {rest : List EnvMove} {r : Reply}

/-- INIT past a GO_IDLE in its accepted set (R173): InterfaceCondition is entered with no tentative class. -/
theorem initReset_passed {r0 : Reply} (hscript : s.Scripted (answers s.cfg ((s.cfg.goIdleFrame, r0) :: xs)))
    (hk : (r0.outcome s.cfg s.cfg.goIdleFrame).kind.quietOk) :
    ∃ u rest, initReset (initEntry s) = .running u ∧ OnScript s.cfg xs rest u ∧ u.seq.tentative = .none ∧
      u.writes = s.writes ++ framesWrites [s.cfg.goIdleFrame] := by
  obtain ⟨rest, hon⟩ := hscript.onScript
  obtain ⟨u, hrun, hu, -, hseq, hwrites⟩ := initReset_script (hon.of_env (t := initEntry s) rfl rfl) hk
  exact ⟨u, rest, hrun, hu, by rw [hseq]; rfl, hwrites⟩

/-- Nothing after InterfaceCondition changes the tentative class (R175), an abort included (60_exceptions.md R281). -/
theorem initSequence_tentative (hreset : initReset (initEntry s) = .running u)
    (hinterface : initInterfaceCondition u = .running v) : (initSequence s).seq.tentative = v.seq.tentative := by
  unfold initSequence
  rw [hreset, Flow.andThen_running, hinterface]
  exact init_rest_tentative v

/-- An end in InterfaceCondition is the end of INIT (R183). -/
theorem initSequence_of_ended (hreset : initReset (initEntry s) = .running u)
    (hinterface : initInterfaceCondition u = .ended v) : initSequence s = v := by
  unfold initSequence
  rw [hreset, Flow.andThen_running, hinterface]
  rfl

/-- The state of an abort of InterfaceCondition entered in `u`, after its one command (R174, R183). -/
def interfaceAbort (code : ErrorCode) (c : Config) (u : State) : State :=
  abortInit code (transact c.sendIfCondFrame (enterSeq .interfaceCondition u))

/-- What an abort of InterfaceCondition leaves (R281), the tentative class and the writes from `u` on. -/
theorem interfaceAbort_facts (code : ErrorCode) (c : Config) (u : State) :
    (interfaceAbort code c u).port.status = code.status ∧ (interfaceAbort code c u).cd.errorCode = code ∧
      (interfaceAbort code c u).seq.tentative = u.seq.tentative ∧
      (interfaceAbort code c u).writes = u.writes ++ framesWrites [c.sendIfCondFrame] := by
  refine ⟨rfl, rfl, ?_, ?_⟩
  · rw [interfaceAbort, abortInit_seq, transact_seq]
    rfl
  · rw [interfaceAbort, (views_of_accesses_eq (abortInit_accesses _ _)).1, transact_writes, enterSeq_writes,
      framesWrites_singleton]

/-- SEND_IF_COND Accepted with another pattern than the one sent (R174, R272). -/
theorem initInterfaceCondition_mismatch (h : OnScript c ((c.sendIfCondFrame, r) :: xs) rest u)
    (hk : (r.outcome c c.sendIfCondFrame).kind = .accepted)
    (hp : (r.outcome c c.sendIfCondFrame).words.w0.extractLsb' 0 9 ≠ c.ifcondArg12.extractLsb' 0 9) :
    initInterfaceCondition u = .ended (interfaceAbort .voltageMismatch c u) := by
  obtain ⟨houtcome, hon, -⟩ := (h.of_env (t := enterSeq .interfaceCondition u) rfl rfl).transact
  unfold initInterfaceCondition
  dsimp only
  rw [h.cfg, hon.cfg]
  simp only [houtcome, hk]
  rw [if_neg (mt (patternMatches_iff _ _).1 hp), interfaceAbort]

/-- SEND_IF_COND neither Rejected nor Accepted (R174, R271). -/
theorem initInterfaceCondition_unanswered (h : OnScript c ((c.sendIfCondFrame, r) :: xs) rest u)
    (hrejected : (r.outcome c c.sendIfCondFrame).kind ≠ .rejected)
    (haccepted : (r.outcome c c.sendIfCondFrame).kind ≠ .accepted) :
    initInterfaceCondition u = .ended (interfaceAbort .notPresent c u) := by
  obtain ⟨houtcome, -⟩ := (h.of_env (t := enterSeq .interfaceCondition u) rfl rfl).transact
  unfold initInterfaceCondition
  dsimp only
  rw [h.cfg, houtcome]
  split
  case h_1 hk => exact absurd hk hrejected
  case h_2 hk => exact absurd hk haccepted
  all_goals rfl

/-- INIT that ends in InterfaceCondition, after GO_IDLE and SEND_IF_COND alone (R174, R183). -/
theorem initSequence_interfaceAbort {code : ErrorCode} (hreset : initReset (initEntry s) = .running u)
    (hinterface : initInterfaceCondition u = .ended (interfaceAbort code s.cfg u)) (htentative : u.seq.tentative = .none)
    (hwrites : u.writes = s.writes ++ framesWrites [s.cfg.goIdleFrame]) :
    (initSequence s).port.status = code.status ∧ (initSequence s).cd.errorCode = code ∧
      (initSequence s).seq.tentative = .none ∧
      (initSequence s).writes = s.writes ++ framesWrites [s.cfg.goIdleFrame, s.cfg.sendIfCondFrame] := by
  obtain ⟨hstatus, hcode, hkept, hmore⟩ := interfaceAbort_facts code s.cfg u
  rw [initSequence_of_ended hreset hinterface]
  refine ⟨hstatus, hcode, hkept.trans htentative, ?_⟩
  rw [hmore, hwrites, List.append_assoc, ← framesWrites_append]
  rfl

end interface

/-- Settles O22: once GO_IDLE has passed, the kind of the reply to SEND_IF_COND and its pattern choose the arm of
InterfaceCondition; the two that go on fix the tentative class for good, the two that abort end INIT.
(`initInterfaceCondition` alone names the state's function.) -/
theorem initInterfaceCondition_cases : Obligations.InitInterfaceCondition := by
  unfold Obligations.InitInterfaceCondition
  intro s r0 r1 hr0 hs
  obtain ⟨u, rest, hreset, hon, htentative, hwrites⟩ := initReset_passed hs hr0
  refine ⟨initSequence s, exec_init_next hs.acknowledged, ?_⟩
  split
  case h_1 hk =>
    obtain ⟨v, hrun, -, -, hseq, -⟩ := initInterfaceCondition_rejected hon hk
    rw [initSequence_tentative hreset hrun, hseq]
  case h_2 hk =>
    split
    case isTrue hp =>
      obtain ⟨v, hrun, -, -, hseq, -⟩ := initInterfaceCondition_accepted hon hk hp
      rw [initSequence_tentative hreset hrun, hseq]
    case isFalse hp =>
      exact initSequence_interfaceAbort hreset (initInterfaceCondition_mismatch hon hk hp) htentative hwrites
  case h_3 hrejected haccepted =>
    exact initSequence_interfaceAbort hreset (initInterfaceCondition_unanswered hon hrejected haccepted) htentative hwrites

end Sys2Proof.Machine
end

section
/-! SUPPORT. The capacity decoder (43_capacity_decoder.md): the fields the model takes word by word are slices of the
128-bit descriptor, and the operation returns the count without wrapping. -/

namespace Sys2Proof

/-- The 128-bit structure four words hold, the most significant first, its bits numbered from the least significant end
(00_scope.md R9). -/
def Words4.bits (w : Words4) : BitVec 128 := w.w0 ++ w.w1 ++ w.w2 ++ w.w3

/-- R9: bits 95:64 are word 1. -/
theorem Words4.bits_extract_w1 (w : Words4) {start len : Nat} (h : start + len ≤ 32) :
    w.bits.extractLsb' (64 + start) len = w.w1.extractLsb' start len := by
  calc w.bits.extractLsb' (64 + start) len
    _ = (w.w0 ++ w.w1 ++ w.w2).extractLsb' (64 + start - 32) len := BitVec.extractLsb'_append_eq_of_le (by omega)
    _ = (w.w0 ++ w.w1).extractLsb' (64 + start - 32 - 32) len := BitVec.extractLsb'_append_eq_of_le (by omega)
    _ = w.w1.extractLsb' (64 + start - 32 - 32) len := BitVec.extractLsb'_append_eq_of_add_le (by omega)
    _ = w.w1.extractLsb' start len := by rw [show 64 + start - 32 - 32 = start by omega]

/-- R9: bits 63:32 are word 2. -/
theorem Words4.bits_extract_w2 (w : Words4) {start len : Nat} (h : start + len ≤ 32) :
    w.bits.extractLsb' (32 + start) len = w.w2.extractLsb' start len := by
  calc w.bits.extractLsb' (32 + start) len
    _ = (w.w0 ++ w.w1 ++ w.w2).extractLsb' (32 + start - 32) len := BitVec.extractLsb'_append_eq_of_le (by omega)
    _ = w.w2.extractLsb' (32 + start - 32) len := BitVec.extractLsb'_append_eq_of_add_le (by omega)
    _ = w.w2.extractLsb' start len := by rw [Nat.add_sub_cancel_left]

/-- R9: a slice across bit 64 is the low end of word 1 above the high end of word 2. -/
theorem Words4.bits_extract_across (w : Words4) {start high low : Nat} (hlow : start + low = 32) (hhigh : high ≤ 32) :
    w.bits.extractLsb' (32 + start) (high + low) = w.w1.extractLsb' 0 high ++ w.w2.extractLsb' start low := by
  rw [← w.bits_extract_w1 (by omega), ← w.bits_extract_w2 (by omega),
    BitVec.extractLsb'_append_extractLsb'_eq_extractLsb' (by omega)]

end Sys2Proof

namespace Sys2Proof.Machine

/-- R201: the size field is bits 69:48. -/
theorem hcSizeField_eq_bits (w : Words4) : hcSizeField w = w.bits.extractLsb' 48 22 :=
  (w.bits_extract_across (start := 16) (high := 6) (low := 16) rfl (by decide)).symm

/-- R202: the size field is bits 73:62. -/
theorem scSizeField_eq_bits (w : Words4) : scSizeField w = w.bits.extractLsb' 62 12 :=
  (w.bits_extract_across (start := 30) (high := 10) (low := 2) rfl (by decide)).symm

/-- R202: the multiplier is bits 49:47. -/
theorem scMultiplier_eq_bits (w : Words4) : scMultiplier w = w.bits.extractLsb' 47 3 :=
  (w.bits_extract_w2 (start := 15) (by decide)).symm

/-- R202: the exponent is bits 83:80. -/
theorem scExponent_eq_bits (w : Words4) : scExponent w = w.bits.extractLsb' 80 4 :=
  (w.bits_extract_w1 (start := 16) (by decide)).symm

/-- R201 on the 128-bit structure. -/
theorem decodeBlocks_highCapacity (w : Words4) :
    decodeBlocks .highCapacity w = ((w.bits.extractLsb' 48 22).toNat + 1) * 1024 := by
  rw [← hcSizeField_eq_bits]
  rfl

/-- R202 on the 128-bit structure, the shifts as products with powers of two (R204). -/
theorem decodeBlocks_standardCapacity (w : Words4) :
    decodeBlocks .standardCapacity w =
      ((w.bits.extractLsb' 62 12).toNat + 1) * 2 ^ ((w.bits.extractLsb' 47 3).toNat + 2) *
        2 ^ (w.bits.extractLsb' 80 4).toNat / 512 := by
  rw [← scSizeField_eq_bits, ← scMultiplier_eq_bits, ← scExponent_eq_bits, ← Nat.shiftLeft_eq, ← Nat.shiftLeft_eq]
  rfl

/-- R200, R204: DECODE completes, changes nothing but the result, and its result is the whole count: 2^32 is far below
the 64 bits that hold it. -/
theorem exec_decode_next (cls : CardClass) (w : Words4) (s : State) :
    ∃ t, exec (.decode cls w) s = .next t ∧ t = { s with decoded := t.decoded } ∧
      t.decoded.toNat = decodeBlocks cls w := by
  have hle : decodeBlocks cls w ≤ 2 ^ 32 := decodeBlocks_le cls w
  exact ⟨{ s with decoded := BitVec.ofNat 64 (decodeBlocks cls w) }, rfl, rfl,
    (BitVec.toNat_ofNat _ _).trans (Nat.mod_eq_of_lt (by omega))⟩

/-- Settles O25: DECODE's law, with R201's count read on the 128-bit structure. -/
theorem decodeHighCapacity : Obligations.DecodeHighCapacity := by
  unfold Obligations.DecodeHighCapacity
  intro w s
  obtain ⟨t, hexec, hframe, hcount⟩ := exec_decode_next .highCapacity w s
  exact ⟨t, hexec, hframe, hcount.trans (decodeBlocks_highCapacity w)⟩

/-- Settles O26: DECODE's law, with R202's count read on the 128-bit structure. -/
theorem decodeStandardCapacity : Obligations.DecodeStandardCapacity := by
  unfold Obligations.DecodeStandardCapacity
  intro w s
  obtain ⟨t, hexec, hframe, hcount⟩ := exec_decode_next .standardCapacity w s
  exact ⟨t, hexec, hframe, hcount.trans (decodeBlocks_standardCapacity w)⟩

end Sys2Proof.Machine
end

section
/-! SUPPORT. Bytes and words in numbers (44_block_transfer.md R233, little-endian as in 20_memory.md R67). -/

namespace Sys2Proof.Machine

/-- R67: bits put above a value count from its width up. -/
theorem toNat_append_eq_add {v n : Nat} (hi : BitVec v) (lo : BitVec n) :
    (hi ++ lo).toNat = lo.toNat + hi.toNat * 2 ^ n := by
  rw [BitVec.toNat_append, ← Nat.shiftLeft_add_eq_or_of_lt lo.isLt, Nat.shiftLeft_eq, Nat.add_comm]

/-- R233: a packed word is the little-endian sum of its bytes. -/
theorem packWord_toNat (b0 b1 b2 b3 : Byte) :
    (packWord b0 b1 b2 b3).toNat = b0.toNat + b1.toNat * 2 ^ 8 + b2.toNat * 2 ^ 16 + b3.toNat * 2 ^ 24 := by
  unfold packWord
  rw [toNat_append_eq_add, toNat_append_eq_add, toNat_append_eq_add]
  omega

/-- R67: byte `j` of a word is its base-256 digit `j`. -/
theorem byteOf_toNat (w : Word) (j : Nat) : (byteOf w j).toNat = w.toNat / 2 ^ (8 * j) % 2 ^ 8 := by
  unfold byteOf
  rw [BitVec.extractLsb'_toNat, Nat.shiftRight_eq_div_pow]

/-- R67: byte 0 of a word is its low end, unshifted. -/
theorem byteOf_zero_toNat (w : Word) : (byteOf w 0).toNat = w.toNat % 2 ^ 8 := by
  rw [byteOf_toNat, Nat.mul_zero, Nat.pow_zero, Nat.div_one]

/-- R67: nothing of a word lies above its byte 3, so the top digit needs no mask. -/
theorem byteOf_three_toNat (w : Word) : (byteOf w 3).toNat = w.toNat / 2 ^ 24 :=
  (byteOf_toNat w 3).trans (Nat.mod_eq_of_lt (Nat.div_lt_of_lt_mul w.isLt))

/-- R233: the four bytes of the place a word was stored to are the word's own. -/
theorem Memory.read_storeWord_inside {m : Memory} (h : m.wf = true) (k : Fin 128) (w : Word) {j : Nat} (hj : j < 4) :
    (m.storeWord k w).read (4 * k.val + j) = byteOf w j := by
  rw [Memory.read_storeWord h k.isLt, if_pos (by omega), Nat.mul_add_mod, Nat.mod_eq_of_lt hj]

/-- R233: a byte of any other word is as it was. -/
theorem Memory.read_storeWord_outside {m : Memory} (h : m.wf = true) (k : Fin 128) (w : Word) {a : Nat}
    (ha : a / 4 ≠ k.val) : (m.storeWord k w).read a = m.read a := by
  rw [Memory.read_storeWord h k.isLt, if_neg ha]

/-- Settles O42: loading is `packWord` in numbers; storing puts the word's own bytes in place, each in numbers, and
leaves the rest. -/
theorem wordPacking : Obligations.WordPacking := by
  unfold Obligations.WordPacking
  intro m k w hwf
  have stored {j : Nat} (hj : j < 4) : ((m.storeWord k w).read (4 * k.val + j)).toNat = (byteOf w j).toNat :=
    congrArg BitVec.toNat (Memory.read_storeWord_inside hwf k w hj)
  refine ⟨packWord_toNat _ _ _ _, ?byte0, ?byte1, ?byte2, ?byte3, fun _ => Memory.read_storeWord_outside hwf k w,
    Memory.wf_storeWord hwf k.isLt w⟩
  case byte0 => exact (stored (j := 0) (by decide)).trans (byteOf_zero_toNat w)
  case byte1 => exact (stored (by decide)).trans (byteOf_toNat w 1)
  case byte2 => exact (stored (by decide)).trans (byteOf_toNat w 2)
  case byte3 => exact (stored (by decide)).trans (byteOf_three_toNat w)

end Sys2Proof.Machine
end

section
/-! SUPPORT. The busy query, the accessors and the illegal operations (45_status_query_and_accessors.md). -/

namespace Sys2Proof.Machine

/-- R251: a status code is busy exactly when it is above 4. -/
theorem busyOf_iff : ∀ code : BitVec 4, busyOf code = true ↔ 4 < code.toNat := by decide

/-- Settles O45: `busyOf_iff` as an equation of truth values. -/
theorem busyTable : Obligations.BusyTable := by
  unfold Obligations.BusyTable
  intro code
  exact Bool.eq_iff_iff.mpr ((busyOf_iff code).trans decide_eq_true_iff.symm)

/-- R250: with nothing pending ISBUSY passes its checks, since the frame of GET_STATUS has a shape. -/
theorem exec_isbusy_next (address : Rca) {s : State} (ha : s.t.ackPending = false) :
    exec (.isbusy address) s = .next (isBusy address s) :=
  checked_next (f := s.cfg.getStatusFrame address) (isBusy address) (by simp) ha

/-- R250: an accepted GET_STATUS is answered by the table of R251 on its status field. -/
theorem isBusy_of_accepted {address : Rca} {s : State}
    (h : (transact (s.cfg.getStatusFrame address) s).t.outcome.kind = .accepted) :
    isBusy address s =
      finish .ok
        (if busyOf (cardStatusField (transact (s.cfg.getStatusFrame address) s).t.outcome.words.w0) then 1 else 0)
        (transact (s.cfg.getStatusFrame address) s) :=
  if_pos h

/-- R250, R282: any other outcome is the failure of the operation, with the value 1. -/
theorem isBusy_of_not_accepted {address : Rca} {s : State}
    (h : (transact (s.cfg.getStatusFrame address) s).t.outcome.kind ≠ .accepted) :
    isBusy address s = failOp .protocolError 1 (transact (s.cfg.getStatusFrame address) s) :=
  if_neg h

/-- Settles O43: past its checks ISBUSY is the transaction of GET_STATUS, then one of `isBusy`'s two ends. -/
theorem isbusyCompletes : Obligations.IsbusyCompletes := by
  unfold Obligations.IsbusyCompletes
  intro s address ha
  refine ⟨isBusy address s, transact (s.cfg.getStatusFrame address) s, exec_isbusy_next address ha,
    transact_transacted _ s, fun haccepted => ?accepted, fun hother => ?other⟩
  case accepted =>
    rw [isBusy_of_accepted haccepted]
    simp only [busyOf_iff]
    rfl
  case other =>
    rw [isBusy_of_not_accepted hother]
    rfl

/-- R255, R270: widening an error code to the result register keeps its number. -/
theorem ErrorCode.toNat_setWidth_code (c : ErrorCode) : (c.code.setWidth 64).toNat = c.code.toNat :=
  BitVec.toNat_setWidth_of_le (by decide)

/-- Settles O46: each accessor is `finish .ok` of its value; `CD.readOnly` is hard-wired to 0 (R25), and the code of
LASTERR is R270's table. -/
theorem accessors : Obligations.Accessors := by
  unfold Obligations.Accessors
  intro s
  refine ⟨rfl, rfl, rfl, s.cd.errorCode.code.setWidth 64, rfl, ?code⟩
  case code =>
    rw [ErrorCode.toNat_setWidth_code]
    cases s.cd.errorCode <;> rfl

/-- Settles O47: each of the eight op codes runs `illegalOperation`, which writes the result only. -/
theorem illegalOperations : Obligations.IllegalOperations := by
  unfold Obligations.IllegalOperations
  intro s i hi
  have hillegal : exec i s = .next (illegalOperation s) := by
    simp only [List.mem_cons, List.not_mem_nil, or_false] at hi
    obtain rfl | rfl | rfl | rfl | rfl | rfl | rfl | rfl := hi <;> rfl
  rw [hillegal]
  rfl

end Sys2Proof.Machine
end

section
/-! SUPPORT. The encodings as a whole (30_encoding.md R90 to R117): every well-formed instruction is what its word decodes
to, and a catalogue word is exactly the word of its row. -/

namespace Sys2Proof

/-- R117: the decoder of format C reads the frame its word was made of. -/
@[simp] theorem decode_card_toWord (c : Config) (f : Frame) : decode c (.card f.toWord) = decodeCard c f := by
  rw [decode, Frame.ofWord_toWord]

/-- R101: the address is the upper half of the argument that carries it. -/
@[simp] theorem rcaArgument_high (rca : Rca) : (rcaArgument rca).extractLsb' 16 16 = rca := (rcaArgument_slices rca).1

/-- R101: the lower half of an argument that carries an address is 0. -/
@[simp] theorem rcaArgument_low (rca : Rca) : (rcaArgument rca).extractLsb' 0 16 = 0#16 := (rcaArgument_slices rca).2

section rows

variable {c : Config} (h : c.distinctIndices = true)
include h

/-- R117: the decoder tries the rows in the table's order, so a row is found where its index is none of those before. -/
theorem Config.reverse_indices_nodup : c.indices.reverse.Nodup := List.nodup_reverse.mpr (of_decide_eq_true h)

/-- R150, R152, R158: the rows that expect no response are told apart by index, then by argument. -/
theorem decodeCard_rows_none (rca : Rca) : decodeCard c c.goIdleFrame = .ok .goIdle ∧
    decodeCard c (c.appCmdFrame rca) = .ok (.appCmd rca) ∧ decodeCard c c.deselectFrame = .ok .deselect := by
  have hne : c.indices.reverse.Nodup := Config.reverse_indices_nodup h
  simp only [Config.indices, List.reverse_cons, List.reverse_nil, List.nil_append, List.cons_append, List.nodup_cons,
    List.mem_cons, not_or] at hne
  simp [decodeCard, Config.goIdleFrame, Config.appCmdFrame, Config.deselectFrame, hne]

/-- R151, R154, R156, R157, R159 to R162: the rows that expect a Short response under Require. -/
theorem decodeCard_rows_short (rca : Rca) (addr : Word) : decodeCard c c.sendIfCondFrame = .ok .sendIfCond ∧
    decodeCard c c.publishRcaFrame = .ok .publishRca ∧ decodeCard c c.setBlocklenFrame = .ok .setBlocklen ∧
    decodeCard c (c.selectFrame rca) = .ok (.select rca) ∧ decodeCard c c.setBusWidthFrame = .ok .setBusWidth ∧
    decodeCard c (c.readSingleFrame addr) = .ok (.readSingle addr) ∧
    decodeCard c (c.writeSingleFrame addr) = .ok (.writeSingle addr) ∧
    decodeCard c (c.getStatusFrame rca) = .ok (.getStatus rca) := by
  have hne : c.indices.reverse.Nodup := Config.reverse_indices_nodup h
  simp only [Config.indices, List.reverse_cons, List.reverse_nil, List.nil_append, List.cons_append, List.nodup_cons,
    List.mem_cons, not_or] at hne
  simp [decodeCard, Config.sendIfCondFrame, Config.publishRcaFrame, Config.setBlocklenFrame, Config.selectFrame,
    Config.setBusWidthFrame, Config.readSingleFrame, Config.writeSingleFrame, Config.getStatusFrame, hne]

end rows

/-- R153: the row of SEND_OP_COND, where `OPCOND_BASE` leaves the capacity request to `h` (R7). -/
theorem decodeCard_sendOpCond {c : Config} (hb : c.opcondBase.getLsbD c.hcsBit.val = false) (h : Bool) :
    decodeCard c (c.sendOpCondFrame h) = .ok (.sendOpCond h) := by
  have hne : c.opcondArgument true ≠ c.opcondArgument false := opcondArgument_ne hb
  cases h <;> simp [decodeCard, Config.sendOpCondFrame, hne]

/-- R155: the row of GET_CSD, the only one that expects a Long response. -/
theorem decodeCard_getCsd (c : Config) (rca : Rca) : decodeCard c (c.getCsdFrame rca) = .ok (.getCsd rca) := by
  simp [decodeCard, Config.getCsdFrame]

/-- R96: codes 10 and 11 name the row of their own op code. -/
theorem decode_illegal10to11 (c : Config) {op : BitVec 4} (h : op = 10#4 ∨ op = 11#4) :
    decode c (.host (hostWord 0 op)) = .ok (.illegal10to11 op) := by
  obtain ⟨-, -, -, -, -, -, -, -, -, -, h10, h11, -⟩ := hostWords c 0
  obtain rfl | rfl := h
  · exact h10
  · exact h11

/-- R96: codes 12 to 15 name the row of their own op code. -/
theorem decode_illegal12to15 (c : Config) {op : BitVec 4} (h : 12#4 ≤ op) :
    decode c (.host (hostWord 0 op)) = .ok (.illegal12to15 op) := by
  obtain ⟨-, -, -, -, -, -, -, -, -, -, -, -, h12, h13, h14, h15⟩ := hostWords c 0
  have hop : op = 12#4 ∨ op = 13#4 ∨ op = 14#4 ∨ op = 15#4 := by decide +revert
  obtain rfl | rfl | rfl | rfl := hop
  · exact h12
  · exact h13
  · exact h14
  · exact h15

/-- The five fields of a decoder word (R110). -/
theorem decoderWord_slices (cls : BitVec 2) (w0 w1 w2 w3 : Word) :
    (cls ++ w0 ++ w1 ++ w2 ++ w3).extractLsb' 128 2 = cls ∧ (cls ++ w0 ++ w1 ++ w2 ++ w3).extractLsb' 96 32 = w0 ∧
      (cls ++ w0 ++ w1 ++ w2 ++ w3).extractLsb' 64 32 = w1 ∧ (cls ++ w0 ++ w1 ++ w2 ++ w3).extractLsb' 32 32 = w2 ∧
      (cls ++ w0 ++ w1 ++ w2 ++ w3).extractLsb' 0 32 = w3 := by
  refine ⟨?_, ?_, ?_, ?_, ?_⟩ <;>
  · apply BitVec.eq_of_getLsbD_eq
    intro k hk
    simp only [BitVec.getLsbD_extractLsb', BitVec.getLsbD_append]
    interval_cases k <;> simp

/-- R110: a decoder word stands for DECODE of its fields. -/
theorem decodeDecoder_append (cls : BitVec 2) (w : Words4) :
    decodeDecoder (cls ++ w.w0 ++ w.w1 ++ w.w2 ++ w.w3) = .decode (.ofCode cls) w := by
  obtain ⟨hcls, h0, h1, h2, h3⟩ := decoderWord_slices cls w.w0 w.w1 w.w2 w.w3
  rw [decodeDecoder, hcls, h0, h1, h2, h3]

/-- Settles O1: each format by the law of its word; the catalogue rows need the distinct indices, SEND_OP_COND the clear
`HCS_BIT` besides. -/
theorem decodeEncode : Obligations.DecodeEncode := by
  unfold Obligations.DecodeEncode
  intro c i hdistinct hbase hwf
  obtain ⟨h0, h1, -, -, h4, h5, h6, h7, -, h9, -⟩ := hostWords c 0
  cases i with
  | init => exact h1
  | rdblk block =>
    obtain ⟨-, -, h2, -⟩ := hostWords c block
    exact h2
  | wrblk block =>
    obtain ⟨-, -, -, h3, -⟩ := hostWords c block
    exact h3
  | volsz => exact h4
  | blksz => exact h5
  | isro => exact h6
  | lasterr => exact h7
  | isbusy address =>
    obtain ⟨-, -, -, -, -, -, -, -, h8, -⟩ := hostWords c (address.setWidth 32)
    rwa [BitVec.extractLsb'_setWidth_of_le (by decide), BitVec.extractLsb'_eq_self] at h8
  | illegal0 => exact h0
  | illegal9 => exact h9
  | illegal10to11 op => exact decode_illegal10to11 c (by simpa [Instr.wf] using hwf)
  | illegal12to15 op => exact decode_illegal12to15 c (by simpa [Instr.wf] using hwf)
  | sendcmd f =>
    rw [encode, decode, decodeTransport_append_zero, Frame.ofWord_toWord]
  | ack => rfl
  | txn f => rw [encode, decode, Frame.ofWord_toWord]
  | goIdle =>
    obtain ⟨hgoIdle, -⟩ := decodeCard_rows_none hdistinct 0
    rwa [encode, decode_card_toWord]
  | sendIfCond =>
    obtain ⟨hsendIfCond, -⟩ := decodeCard_rows_short hdistinct 0 0
    rwa [encode, decode_card_toWord]
  | appCmd rca =>
    obtain ⟨-, happCmd, -⟩ := decodeCard_rows_none hdistinct rca
    rwa [encode, decode_card_toWord]
  | sendOpCond h => rw [encode, decode_card_toWord, decodeCard_sendOpCond hbase]
  | publishRca =>
    obtain ⟨-, hpublishRca, -⟩ := decodeCard_rows_short hdistinct 0 0
    rwa [encode, decode_card_toWord]
  | getCsd rca => rw [encode, decode_card_toWord, decodeCard_getCsd]
  | setBlocklen =>
    obtain ⟨-, -, hsetBlocklen, -⟩ := decodeCard_rows_short hdistinct 0 0
    rwa [encode, decode_card_toWord]
  | select rca =>
    obtain ⟨-, -, -, hselect, -⟩ := decodeCard_rows_short hdistinct rca 0
    rwa [encode, decode_card_toWord]
  | deselect =>
    obtain ⟨-, -, hdeselect⟩ := decodeCard_rows_none hdistinct 0
    rwa [encode, decode_card_toWord]
  | setBusWidth =>
    obtain ⟨-, -, -, -, hsetBusWidth, -⟩ := decodeCard_rows_short hdistinct 0 0
    rwa [encode, decode_card_toWord]
  | readSingle addr =>
    obtain ⟨-, -, -, -, -, hreadSingle, -⟩ := decodeCard_rows_short hdistinct 0 addr
    rwa [encode, decode_card_toWord]
  | writeSingle addr =>
    obtain ⟨-, -, -, -, -, -, hwriteSingle, -⟩ := decodeCard_rows_short hdistinct 0 addr
    rwa [encode, decode_card_toWord]
  | getStatus rca =>
    obtain ⟨-, -, -, -, -, -, -, hgetStatus⟩ := decodeCard_rows_short hdistinct rca 0
    rwa [encode, decode_card_toWord]
  | decode cls w => rw [encode, Sys2Proof.decode, decodeDecoder_append, CardClass.ofCode_code]

/-- R117: a frame that decodes has every field the row it decodes to fixes, and carries that row's operand. -/
theorem encode_of_decodeCard {c : Config} {f : Frame} {i : Instr} (h : decodeCard c f = .ok i) :
    encode c i = .card f.toWord := by
  obtain ⟨index, argument, shape, policy⟩ := f
  cases shape <;> cases policy <;> simp only [decodeCard] at h
  case none.require =>
    split_ifs at h with hrow hrow hrow <;> cases h
    · obtain ⟨rfl, rfl⟩ := hrow; rfl
    · obtain ⟨rfl, hlow⟩ := hrow
      rw [encode, Config.appCmdFrame, rcaArgument_of_low (eq_of_beq hlow)]
    · obtain ⟨rfl, rfl⟩ := hrow; rfl
  case short.require =>
    split_ifs at h with hrow hrow hrow hrow hrow hrow hrow hrow <;> cases h
    · obtain ⟨rfl, rfl⟩ := hrow; rfl
    · obtain ⟨rfl, rfl⟩ := hrow; rfl
    · obtain ⟨rfl, rfl⟩ := hrow; rfl
    · obtain ⟨rfl, hlow⟩ := hrow
      rw [encode, Config.selectFrame, rcaArgument_of_low (eq_of_beq hlow)]
    · obtain ⟨rfl, rfl⟩ := hrow; rfl
    · obtain rfl := hrow; rfl
    · obtain rfl := hrow; rfl
    · obtain ⟨rfl, hlow⟩ := hrow
      rw [encode, Config.getStatusFrame, rcaArgument_of_low (eq_of_beq hlow)]
  case short.ignore =>
    split_ifs at h with hrow hrow <;> cases h
    · obtain ⟨rfl, rfl⟩ := hrow; rfl
    · obtain ⟨rfl, rfl⟩ := hrow; rfl
  case long.require =>
    split_ifs at h with hrow
    cases h
    obtain ⟨rfl, hlow⟩ := hrow
    rw [encode, Config.getCsdFrame, rcaArgument_of_low (eq_of_beq hlow)]
  all_goals cases h

/-- Settles O2: a format C word is the word of the frame it holds, and the row gives that frame back. -/
theorem cardWordsAreExact : Obligations.CardWordsAreExact := by
  unfold Obligations.CardWordsAreExact
  intro c w i h
  rw [encode_of_decodeCard h, Frame.toWord_ofWord]

/-- Settles O5: each word computes. -/
theorem knownWords : Obligations.KnownWords := by
  unfold Obligations.KnownWords
  decide

end Sys2Proof
end

section
/-! SUPPORT. The clear law, the stability law and the FIFO order law (20_memory.md R76 to R78), access by access. -/

namespace Sys2Proof.Machine

/-- R76: what is down after ENV's move is down after any access that leaves the latched and the armed flags to it. -/
theorem State.FlagDown.of_move {s t : State} {i : Fin 4} (h : s.FlagDown i)
    (hl : t.env.latched = s.env.move.latched) (ha : t.env.armed = s.env.move.armed) : t.FlagDown i := by
  obtain ⟨hlatched, harmed⟩ := h.move
  exact ⟨by rw [hl, hlatched], by rw [ha, harmed]⟩

/-- R37: a write of `P.CMD` without start leaves ENV's side to its move. -/
theorem writeCmd_env_of_not_start {v : BitVec 9} (h : v.getLsbD 8 = false) (s : State) :
    (writeCmd v s).env = s.env.move := by
  rw [writeCmd_env, h, if_neg Bool.false_ne_true]

/-- R76: a write of `P.ICR` raises nothing and arms nothing. -/
theorem State.FlagDown.writeIcr {s : State} {i : Fin 4} (h : s.FlagDown i) (m : BitVec 5) :
    (writeIcr m s).FlagDown i := by
  obtain ⟨hlatched, harmed⟩ := h.move
  rw [State.FlagDown, writeIcr_env, Env.cleared_latched, Env.cleared_armed, BitVec.getLsbD_and, BitVec.getLsbD_and,
    hlatched, harmed, Bool.false_and, Bool.false_and]
  exact ⟨rfl, rfl⟩

/-- R76: a write of `P.ICR` disarms the command flags of its bits. -/
theorem Env.cleared_disarms (e : Env) {m : BitVec 5} {i : Fin 4} (hm : m.getLsbD i.val = true) :
    (e.cleared m).armed.getLsbD i.val = false := by
  rw [Env.cleared_armed, BitVec.getLsbD_and, BitVec.getLsbD_not, BitVec.getLsbD_extractLsb', Nat.zero_add, hm]
  simp only [i.isLt, decide_true, Bool.and_self, Bool.not_true, Bool.and_false]

/-- Settles O58: a flag that is down is neither latched nor armed, so ENV's move cannot raise it; beside the move only a
start arms it. -/
theorem clearLaw : Obligations.ClearLaw := by
  unfold Obligations.ClearLaw
  intro s i
  refine ⟨fun m k hm => Env.cleared_clears hm, fun m hm => ⟨Env.cleared_clears hm, Env.cleared_disarms _ hm⟩, fun h => ?_⟩
  refine ⟨fun v => h.of_move rfl rfl, fun v hv => ?cmd, fun v => h.of_move rfl rfl, fun v => h.of_move rfl rfl, h.writeIcr,
    ⟨h.of_move rfl rfl, ?sta⟩, h.of_move rfl rfl, fun r => h.of_move rfl rfl, h.of_move rfl rfl, fun w => h.of_move rfl rfl,
    fun w t hpop => ?pop⟩
  case cmd =>
    have henv : (writeCmd v s).env = s.env.move := writeCmd_env_of_not_start hv s
    exact h.of_move (by rw [henv]) (by rw [henv])
  case sta =>
    obtain ⟨hlatched, -⟩ := h.move
    exact (Env.sta_getLsbD s.env.move i.val (by omega)).trans hlatched
  case pop =>
    obtain ⟨rest, -, henv⟩ := fifoPop_next hpop
    exact h.of_move (by rw [henv]) (by rw [henv])

/-- R77: what is held through ENV's move is held after any access that leaves the response registers to it. -/
theorem State.Held.of_move {s t : State} {echo : BitVec 6} {resp : Words4} (h : s.Held echo resp)
    (hs : t.env.stable = s.env.move.stable ∨ t.env.stable = true) (he : t.env.respCmd = s.env.move.respCmd)
    (hr : t.env.resp = s.env.move.resp) : t.Held echo resp := by
  obtain ⟨hstable, hecho, hresp⟩ := h.move
  exact ⟨hs.elim (fun hs => hs.trans hstable) id, he.trans hecho, hr.trans hresp⟩

/-- R77: registers that are held stay held when CORE reads `P.STA` again. -/
theorem readSta_stable {s : State} (h : s.env.stable = true) : (readSta s).1.env.stable = true := by
  rw [readSta_env, Env.seen, Env.move_stable, h, Bool.true_or, Bool.true_or]

/-- R77: a read of `P.STA` that shows CMDREND or CCRCFAIL holds the response registers. -/
theorem readSta_holds {s : State} (h : staCmdRend (readSta s).2 = true ∨ staCCrcFail (readSta s).2 = true) :
    (readSta s).1.env.stable = true := by
  rw [readSta_value, Env.sta_cmdRend, Env.sta_cCrcFail] at h
  rw [readSta_env, Env.seen]
  rcases h with h | h <;> simp [h]

/-- R77: a read of a held response register gives what is held. -/
theorem State.Held.readResp {s : State} {echo : BitVec 6} {resp : Words4} (h : s.Held echo resp) (i : Fin 4) :
    (readResp i s).1.Held echo resp ∧ (readResp i s).2 = { s.env with resp := resp }.respAt i := by
  obtain ⟨-, -, hresp⟩ := h.move
  refine ⟨h.of_move (.inl rfl) rfl rfl, ?_⟩
  rw [readResp_value]
  unfold Env.respAt
  rw [hresp]

/-- Settles O59: held registers keep their value through ENV's move, and beside it only a start of a command frees them. -/
theorem stabilityLaw : Obligations.StabilityLaw := by
  unfold Obligations.StabilityLaw
  intro s
  refine ⟨fun hshown => ⟨_, _, readSta_holds hshown, rfl, rfl⟩, fun echo resp h => ?_⟩
  obtain ⟨-, hecho, -⟩ := h.move
  refine ⟨fun v => h.of_move (.inl rfl) rfl rfl, fun v => h.of_move (.inl rfl) rfl rfl,
    fun v => h.of_move (.inl rfl) rfl rfl, fun m => h.of_move (.inl rfl) rfl rfl,
    h.of_move (.inr (readSta_stable h.1)) rfl rfl, ⟨h.of_move (.inl rfl) rfl rfl, hecho⟩, h.readResp 0, h.readResp 1,
    h.readResp 2, h.readResp 3, h.of_move (.inl rfl) rfl rfl, fun w => h.of_move (.inl rfl) rfl rfl, fun w t hpop => ?pop⟩
  case pop =>
    obtain ⟨rest, -, henv⟩ := fifoPop_next hpop
    exact h.of_move (.inl (by rw [henv])) (by rw [henv]) (by rw [henv])

/-- R78: an access that leaves the FIFO to ENV's move keeps its order. -/
theorem State.FifoKept.of_move {s t : State} (hrx : t.env.rx = s.env.move.rx) (htx : t.env.tx = s.env.move.tx) :
    s.FifoKept t where
  rx := hrx ▸ s.env.move_rx
  tx := htx ▸ s.env.move_tx

/-- R316: a pop of words to pop gives the oldest. -/
theorem fifoPop_of_rx {s : State} {w : Word} {rest : List Word} (h : s.env.move.rx = w :: rest) :
    ∃ t, fifoPop s = .next (t, w) := by
  rw [fifoPop, h]
  exact ⟨_, rfl⟩

/-- R316: words that wait are there for a pop, whatever ENV places behind them. -/
theorem fifoPop_of_waiting {s : State} (h : s.env.rx ≠ []) : ∃ w t, fifoPop s = .next (t, w) := by
  obtain ⟨placed, hmove⟩ := s.env.move_rx
  obtain ⟨w, rest, hrx⟩ := List.exists_cons_of_ne_nil (List.append_ne_nil_of_left_ne_nil h placed)
  obtain ⟨t, ht⟩ := fifoPop_of_rx (hmove.trans hrx)
  exact ⟨w, t, ht⟩

/-- R38: a read that shows RXDAVL leaves a word to pop. -/
theorem readSta_rx_of_rxDavl {s : State} (h : staRxDavl (readSta s).2 = true) : (readSta s).1.env.rx ≠ [] := by
  rw [readSta_value, Env.sta_rxDavl] at h
  rw [readSta_env, Env.seen_rx]
  simpa using h

/-- Settles O60: ENV's move keeps both directions in order (`Env.move_rx`, `Env.move_tx`), and beside it only a push and a
pop touch them, each at its own end. -/
theorem fifoOrderLaw : Obligations.FifoOrderLaw := by
  unfold Obligations.FifoOrderLaw
  intro s
  refine ⟨fun v => .of_move rfl rfl, fun v => ?cmd, fun m => .of_move rfl rfl, fun v => .of_move rfl rfl,
    fun v => .of_move rfl rfl, .of_move rfl rfl, .of_move rfl rfl, fun r => .of_move rfl rfl, .of_move rfl rfl,
    fun w => ⟨s.env.move_rx, ?push⟩, fun w t hpop => ?pop,
    fun h => ⟨readSta_rx_of_rxDavl h, fifoPop_of_waiting (readSta_rx_of_rxDavl h)⟩, fifoPop_of_waiting, fun h => ?empty⟩
  case cmd =>
    refine .of_move ?_ ?_ <;> rw [writeCmd_env] <;> split <;> rfl
  case push =>
    obtain ⟨taken, htx⟩ := s.env.move_tx
    exact ⟨taken, congrArg (· ++ [w]) htx⟩
  case pop =>
    obtain ⟨rest, hrx, henv⟩ := fifoPop_next hpop
    rw [henv, ← hrx]
    exact ⟨s.env.move_rx, s.env.move_tx⟩
  case empty => rw [fifoPop, h]

end Sys2Proof.Machine
end

section
/-! SUPPORT. SENDCMD, TXN and the card commands as operations (40_transport.md R130 to R140, 41_card_commands.md). -/

namespace Sys2Proof.Machine

/-! ## The checks of SENDCMD (R130), both stops -/

/-- R317: the reserved shape stops before anything else is looked at. -/
theorem checked_illegalFrame {f : Frame} {s : State} (k : State → State) (hf : f.expectedResponse = .reserved) :
    checked f s k = .fault .illegalFrame := by
  rw [checked, if_pos hf]

/-- R315: a frame with a response shape stops on a pending acknowledgment. -/
theorem checked_staleFlags {f : Frame} {s : State} (k : State → State) (hf : f.expectedResponse ≠ .reserved)
    (ha : s.t.ackPending = true) : checked f s k = .fault .staleFlags := by
  rw [checked, if_neg hf, if_pos ha]

/-- Settles O7: the shape is the first check of SENDCMD, and TXN makes the same. -/
theorem illegalFrameStops : Obligations.IllegalFrameStops := by
  unfold Obligations.IllegalFrameStops
  intro f s hf
  exact ⟨checked_illegalFrame _ hf, checked_illegalFrame _ hf⟩

/-- R280, R315: a block operation meets the pending acknowledgment past its bounds checks. -/
theorem exec_block_staleFlags {s : State} {block : Word} (hr : s.cd.InRange block) (ha : s.t.ackPending = true) :
    exec (.rdblk block) s = .fault .staleFlags ∧ exec (.wrblk block) s = .fault .staleFlags := by
  have hin : blockInRange s.cd block = true := (blockInRange_iff _ _).mpr hr
  simp only [exec, execRdblk, execWrblk, hin, ha, if_true, and_self]

/-- Settles O8: each of the operations is its first command's checks before its body, the block operations past their
bounds checks, and no frame of the catalogue has the reserved shape. -/
theorem staleFlagsStops : Obligations.StaleFlagsStops := by
  unfold Obligations.StaleFlagsStops
  intro s ha
  have stops {f : Frame} (hf : f.expectedResponse ≠ .reserved) (k : State → State) :
      checked f s k = .fault .staleFlags := checked_staleFlags k hf ha
  refine ⟨fun f hf => ⟨stops hf _, stops hf _⟩, ?plain, ?addressed, fun h => stops (f := s.cfg.sendOpCondFrame h) (by simp) _,
    fun addr => ⟨stops (f := s.cfg.readSingleFrame addr) (by simp) _, stops (f := s.cfg.writeSingleFrame addr) (by simp) _⟩,
    fun block hr => exec_block_staleFlags hr ha⟩
  case plain =>
    intro i hi
    simp only [List.mem_cons, List.not_mem_nil, or_false] at hi
    obtain rfl | rfl | rfl | rfl | rfl | rfl | rfl := hi
    · exact stops (f := s.cfg.goIdleFrame) (by simp) _
    · exact stops (f := s.cfg.goIdleFrame) (by simp) _
    · exact stops (f := s.cfg.sendIfCondFrame) (by simp) _
    · exact stops (f := s.cfg.publishRcaFrame) (by simp) _
    · exact stops (f := s.cfg.setBlocklenFrame) (by simp) _
    · exact stops (f := s.cfg.deselectFrame) (by simp) _
    · exact stops (f := s.cfg.setBusWidthFrame) (by simp) _
  case addressed =>
    intro rca i hi
    simp only [List.mem_cons, List.not_mem_nil, or_false] at hi
    obtain rfl | rfl | rfl | rfl | rfl := hi
    · exact stops (f := s.cfg.getStatusFrame rca) (by simp) _
    · exact stops (f := s.cfg.appCmdFrame rca) (by simp) _
    · exact stops (f := s.cfg.getCsdFrame rca) (by simp) _
    · exact stops (f := s.cfg.selectFrame rca) (by simp) _
    · exact stops (f := s.cfg.getStatusFrame rca) (by simp) _

/-! ## The transport operations with nothing pending -/

/-- Settles O6: past its checks SENDCMD is `transmit`, which `transmit_sent` describes. -/
theorem sendcmdCompletes : Obligations.SendcmdCompletes := by
  unfold Obligations.SendcmdCompletes
  intro f s hf ha
  exact ⟨transmit f s, checked_next _ hf ha, transmit_sent f s⟩

/-- Settles O10: `transact` is `acknowledge` of `transmit`, and ACK keeps the outcome. -/
theorem txnIsSendcmdThenAck : Obligations.TxnIsSendcmdThenAck := by
  unfold Obligations.TxnIsSendcmdThenAck
  intro f s hf ha
  exact ⟨transmit f s, transact f s, checked_next _ hf ha, rfl, checked_next _ hf ha, acknowledge_t_outcome _,
    transact_transacted f s⟩

/-- The reads of the response registers as pairs of index and word (R135). -/
theorem exists_respReads_eq (shape : Shape) (regs : Words4) : ∃ resps : List (Fin 4 × Word),
    respReads shape regs = resps.map (fun r => .readResp r.1 r.2) ∧
      (resps.map Prod.fst = [] ∨ resps.map Prod.fst = [0] ∨ resps.map Prod.fst = [0, 1, 2, 3]) := by
  cases shape with
  | none => exact ⟨[], rfl, .inl rfl⟩
  | short => exact ⟨[(0, regs.w0)], rfl, .inr (.inl rfl)⟩
  | long => exact ⟨[(0, regs.w0), (1, regs.w1), (2, regs.w2), (3, regs.w3)], rfl, .inr (.inr rfl)⟩
  | reserved => exact ⟨[], rfl, .inl rfl⟩

/-- R321: the accesses between the start of a command and its acknowledgment, kind by kind. -/
structure AnswerShape (c : Config) (answer : List Access) (stas : List (BitVec 7)) (echo : List (BitVec 6))
    (resps : List (Fin 4 × Word)) : Prop where
  eq : answer = stas.map .readSta ++ echo.map .readRespCmd ++ resps.map (fun r => .readResp r.1 r.2)
  polled : 1 ≤ stas.length
  bounded : stas.length ≤ c.nCmd
  echoed : echo.length ≤ 1
  indices : resps.map Prod.fst = [] ∨ resps.map Prod.fst = [0] ∨ resps.map Prod.fst = [0, 1, 2, 3]

theorem AnswerShape.of_last {c : Config} {quiet : List (BitVec 7)} (hn : quiet.length < c.nCmd) (v : BitVec 7)
    {echo : List (BitVec 6)} (he : echo.length ≤ 1) {rest : List Access} {resps : List (Fin 4 × Word)}
    (hr : rest = resps.map (fun r => .readResp r.1 r.2))
    (hi : resps.map Prod.fst = [] ∨ resps.map Prod.fst = [0] ∨ resps.map Prod.fst = [0, 1, 2, 3]) :
    AnswerShape c (quiet.map .readSta ++ .readSta v :: (echo.map .readRespCmd ++ rest)) (quiet ++ [v]) echo resps where
  eq := by simp [hr]
  polled := by simp
  bounded := by simpa using hn
  echoed := he
  indices := hi

/-- R131 to R135: every way an outcome is found has that shape, provided the poll has a pass (R7). -/
theorem Answered.shape {c : Config} {f : Frame} {answer : List Access} {o : ResponseOutcome} (h : Answered c f answer o)
    (hc : 1 ≤ c.nCmd) : ∃ stas echo resps, AnswerShape c answer stas echo resps := by
  cases h with
  | expired quiet hq hn => exact ⟨quiet, [], [], ⟨by simp, by omega, by omega, by simp, .inl rfl⟩⟩
  | response quiet hq hn v hv echo regs =>
    obtain ⟨resps, heq, hi⟩ := exists_respReads_eq f.expectedResponse regs
    exact ⟨_, [echo], resps, by simpa using AnswerShape.of_last hn v (echo := [echo]) le_rfl heq hi⟩
  | crcIgnored quiet hq hn v hr hv hp regs =>
    obtain ⟨resps, heq, hi⟩ := exists_respReads_eq f.expectedResponse regs
    exact ⟨_, [], resps, by simpa using AnswerShape.of_last hn v (echo := []) zero_le_one heq hi⟩
  | crcFailed quiet hq hn v hr hv hp => exact ⟨_, [], [], .of_last hn v (echo := []) (resps := []) zero_le_one rfl (.inl rfl)⟩
  | timedOut quiet hq hn v hr hc' hv => exact ⟨_, [], [], .of_last hn v (echo := []) (resps := []) zero_le_one rfl (.inl rfl)⟩
  | sent quiet hq hn v hr hc' ht hv => exact ⟨_, [], [], .of_last hn v (echo := []) (resps := []) zero_le_one rfl (.inl rfl)⟩

/-- R135: at most four response registers are read. -/
theorem AnswerShape.resps_length {c : Config} {answer : List Access} {stas : List (BitVec 7)} {echo : List (BitVec 6)}
    {resps : List (Fin 4 × Word)} (h : AnswerShape c answer stas echo resps) : resps.length ≤ 4 := by
  rw [← List.length_map (f := Prod.fst)]
  rcases h.indices with hi | hi | hi <;> rw [hi] <;> decide

/-- Settles O11: the trace of the transaction, with the answer taken apart by `Answered.shape`; the bound adds up its
parts. -/
theorem txnAccesses : Obligations.TxnAccesses := by
  unfold Obligations.TxnAccesses
  intro f s hf ha hc
  obtain ⟨answer, hanswered, -, htrace⟩ := transact_trace f s
  obtain ⟨stas, echo, resps, hshape⟩ := hanswered.shape hc
  have hresps : resps.length ≤ 4 := hshape.resps_length
  obtain ⟨heq, hpolled, hbounded, hechoed, hindices⟩ := hshape
  subst heq
  refine ⟨transact f s, stas, echo, resps, checked_next _ hf ha, ?_, hpolled, hbounded, hechoed, hindices, ?_⟩
  · rw [htrace]
    simp only [List.append_assoc, commandWord]
  · simp only [htrace, List.length_append, List.length_map, List.length_cons, List.length_nil]
    omega

/-- R133: the default rule for Short, in numbers. -/
theorem EchoRule.accepts_equal_iff (index echo : BitVec 6) :
    EchoRule.equal.accepts index echo = true ↔ echo.toNat = index.toNat := by
  rw [EchoRule.accepts, beq_iff_eq, BitVec.toNat_inj]

/-- Settles O12: `transact_reply` gives the outcome and ENV's side; the clauses on the echo are `Reply.outcome` of a
response under the rule of its shape. -/
theorem txnRepliesClassified : Obligations.TxnRepliesClassified := by
  unfold Obligations.TxnRepliesClassified
  intro f r s rest hf hs hscript
  obtain ⟨houtcome, henv⟩ := transact_reply f r hscript hs.flags hs.polled
  refine ⟨transact f s, checked_next _ hf hs.acknowledged, houtcome, henv.script, henv.noFlag, henv.dataEnd, ?_⟩
  rintro echo regs rfl
  rw [houtcome, Reply.outcome]
  refine ⟨fun hshape hrule => ?short, fun hshape hrule => ?long, fun hshape hrule => ?none⟩
  case short =>
    rw [hshape, echoAccept, hrule, ne_eq, ← EchoRule.accepts_equal_iff]
    by_cases haccepts : EchoRule.equal.accepts f.index echo = true <;> simp [haccepts]
  case long => rw [hshape, echoAccept, hrule]; rfl
  case none => rw [hshape, echoAccept, hrule]; rfl

/-! ## The card commands -/

/-- R115: with nothing pending a catalogue frame used as an operation is one transaction of it. -/
theorem issue_transacted {f : Frame} {s : State} (hf : f.expectedResponse ≠ .reserved) (ha : s.t.ackPending = false) :
    ∃ t, issue f s = .next t ∧ Transacted f s t :=
  ⟨transact f s, checked_next _ hf ha, transact_transacted f s⟩

/-- R99: the argument of SEND_IF_COND is the pattern with the rest 0. -/
theorem Config.ifcondArgument_eq (c : Config) : c.ifcondArgument = 0#20 ++ c.ifcondArg12 := by
  rw [Config.ifcondArgument, BitVec.setWidth_eq_append (by decide)]
  rfl

/-- R100: without the capacity request the argument of SEND_OP_COND is its base. -/
theorem Config.opcondArgument_false (c : Config) : c.opcondArgument false = c.opcondBase := by
  rw [Config.opcondArgument, if_neg Bool.false_ne_true]
  exact BitVec.or_zero

/-- R100: the capacity request is the one bit at `HCS_BIT`. -/
theorem Config.opcondArgument_true (c : Config) :
    c.opcondArgument true = c.opcondBase ||| BitVec.twoPow 32 c.hcsBit.val := by
  rw [Config.opcondArgument, if_pos rfl, BitVec.twoPow_eq]
  rfl

/-- Settles O13: each is one transaction of its row's frame, whose argument R98 to R101 assemble. -/
theorem identificationCommands : Obligations.IdentificationCommands := by
  unfold Obligations.IdentificationCommands
  intro s ha
  refine ⟨?goIdle, ?sendIfCond, fun rca => ?appCmd, ?opCondLow, ?opCondHigh, ?publishRca, fun rca => ?getCsd⟩
  case goIdle => exact issue_transacted (f := s.cfg.goIdleFrame) (by simp) ha
  case sendIfCond =>
    rw [← Config.ifcondArgument_eq]
    exact issue_transacted (f := s.cfg.sendIfCondFrame) (by simp) ha
  case appCmd => exact issue_transacted (f := s.cfg.appCmdFrame rca) (by simp) ha
  case opCondLow =>
    rw [← Config.opcondArgument_false]
    exact issue_transacted (f := s.cfg.sendOpCondFrame false) (by simp) ha
  case opCondHigh =>
    rw [← Config.opcondArgument_true]
    exact issue_transacted (f := s.cfg.sendOpCondFrame true) (by simp) ha
  case publishRca => exact issue_transacted (f := s.cfg.publishRcaFrame) (by simp) ha
  case getCsd => exact issue_transacted (f := s.cfg.getCsdFrame rca) (by simp) ha

/-- Settles O14: each is one transaction of its row's frame. -/
theorem transferCommands : Obligations.TransferCommands := by
  unfold Obligations.TransferCommands
  intro s ha
  exact ⟨issue_transacted (f := s.cfg.setBlocklenFrame) (by simp) ha,
    fun rca => issue_transacted (f := s.cfg.selectFrame rca) (by simp) ha,
    issue_transacted (f := s.cfg.deselectFrame) (by simp) ha,
    issue_transacted (f := s.cfg.setBusWidthFrame) (by simp) ha,
    fun addr => issue_transacted (f := s.cfg.readSingleFrame addr) (by simp) ha,
    fun addr => issue_transacted (f := s.cfg.writeSingleFrame addr) (by simp) ha,
    fun rca => issue_transacted (f := s.cfg.getStatusFrame rca) (by simp) ha⟩

end Sys2Proof.Machine
end

section
/-! SUPPORT. The range of the capacity decoder and what it does not look at (43_capacity_decoder.md R200 to R205). -/

namespace Sys2Proof.Machine

/-- R201: the size field and the unit of 1024 blocks give the range of the HighCapacity count. -/
theorem decodeHC_bounds (w : Words4) : 1024 ≤ decodeHC w ∧ decodeHC w ≤ 2 ^ 32 := by
  have hlt : (hcSizeField w).toNat < 2 ^ 22 := (hcSizeField w).isLt
  unfold decodeHC
  omega

/-- R202: the count is the product of the three fields' factors, in blocks of 512 bytes. -/
theorem decodeSC_eq (w : Words4) : decodeSC w =
    ((scSizeField w).toNat + 1) * 2 ^ ((scMultiplier w).toNat + 2) * 2 ^ (scExponent w).toNat / 512 := by
  rw [decodeSC, Nat.shiftLeft_eq, Nat.shiftLeft_eq]

/-- R202: 2^12, 2^9 and 2^15 bound the three factors of the StandardCapacity count. -/
theorem decodeSC_le (w : Words4) : decodeSC w ≤ 2 ^ 27 := by
  have hsize : (scSizeField w).toNat + 1 ≤ 2 ^ 12 := (scSizeField w).isLt
  have hmultiplier : 2 ^ ((scMultiplier w).toNat + 2) ≤ 2 ^ 9 :=
    Nat.pow_le_pow_right (by decide) (Nat.add_le_add_right (Nat.le_of_lt_succ (scMultiplier w).isLt) 2)
  have hexponent : 2 ^ (scExponent w).toNat ≤ 2 ^ 15 :=
    Nat.pow_le_pow_right (by decide) (Nat.le_of_lt_succ (scExponent w).isLt)
  rw [decodeSC_eq]
  exact (Nat.div_le_div_right (Nat.mul_le_mul (Nat.mul_le_mul hsize hmultiplier) hexponent)).trans (by decide)

/-- R201: the HighCapacity count depends on its one field. -/
theorem decodeHC_congr {w w' : Words4} (h1 : w'.w1.extractLsb' 0 6 = w.w1.extractLsb' 0 6)
    (h2 : w'.w2.extractLsb' 16 16 = w.w2.extractLsb' 16 16) : decodeHC w' = decodeHC w := by
  rw [decodeHC, decodeHC, hcSizeField, hcSizeField, h1, h2]

/-- R202: the StandardCapacity count depends on its three fields. -/
theorem decodeSC_congr {w w' : Words4} (hhigh : w'.w1.extractLsb' 0 10 = w.w1.extractLsb' 0 10)
    (hexponent : w'.w1.extractLsb' 16 4 = w.w1.extractLsb' 16 4)
    (hmultiplier : w'.w2.extractLsb' 15 3 = w.w2.extractLsb' 15 3)
    (hlow : w'.w2.extractLsb' 30 2 = w.w2.extractLsb' 30 2) : decodeSC w' = decodeSC w := by
  rw [decodeSC, decodeSC, scSizeField, scSizeField, scMultiplier, scMultiplier, scExponent, scExponent, hhigh, hexponent,
    hmultiplier, hlow]

/-- R205: DECODE looks at its operand through the count alone. -/
theorem exec_decode_congr {cls : CardClass} {w w' : Words4} (h : decodeBlocks cls w' = decodeBlocks cls w) (s : State) :
    exec (.decode cls w') s = exec (.decode cls w) s := by
  rw [exec, exec, execDecode, execDecode, h]

/-- Settles O27: the count of the two classes that name no formula is 0. -/
theorem decodeOtherClasses : Obligations.DecodeOtherClasses := by
  unfold Obligations.DecodeOtherClasses
  intro w s
  exact ⟨rfl, rfl⟩

/-- Settles O28: the bounds of each formula, an operand of zeros and one of ones at its ends, and its fields. -/
theorem decodeRange : Obligations.DecodeRange := by
  unfold Obligations.DecodeRange
  intro w w'
  exact ⟨decodeHC_bounds w, decodeSC_le w, ⟨Words4.zero, by decide⟩, ⟨⟨0, 0xFFFFFFFF, 0xFFFFFFFF, 0⟩, by decide⟩,
    ⟨Words4.zero, by decide⟩, ⟨⟨0, 0xFFFFFFFF, 0xFFFFFFFF, 0⟩, by decide⟩,
    fun h1 h2 => exec_decode_congr (decodeHC_congr h1 h2),
    fun hhigh hexponent hmultiplier hlow => exec_decode_congr (decodeSC_congr hhigh hexponent hmultiplier hlow)⟩

end Sys2Proof.Machine
end

section
/-! SUPPORT. INIT from its entry to its two ends (42_init_sequencer.md R170 to R185). -/

namespace Sys2Proof.Machine

/-- R171: the entry forgets the descriptor and the sequencer registers; the position is written by the state after it. -/
theorem initReset_initEntry_forgets (s : State) (cd : CardDescriptor) (seq : Sequencer) :
    initReset (initEntry { s with cd := cd, seq := seq }) = initReset (initEntry s) := rfl

/-- Settles O17: INIT's checks look at neither, and its first state starts from the registers the entry cleared. -/
theorem initForgets : Obligations.InitForgets := by
  unfold Obligations.InitForgets
  intro s cd seq
  have hsequence : initSequence { s with cd := cd, seq := seq } = initSequence s := by
    rw [initSequence, initReset_initEntry_forgets, initSequence]
  simp only [exec, execInit, checked, hsequence]

/-- R182: INIT that ended in Ready ended there for no cause. -/
theorem InitReady.initEnd {s t : State} (h : InitReady s t) :
    ∃ made, t.events = s.events ++ made ∧ InitEnd s t made t.cd.errorCode := by
  obtain ⟨made, hevents, hcourse⟩ := h.ending
  exact ⟨made, hevents, h.errorNone ▸ .ready hcourse h.state⟩

/-- R177: the class of a Ready card, in its own words. -/
theorem InitReady.cls_eq {s t : State} (h : InitReady s t) :
    t.cd.cls = if t.seq.tentative = .highCapacityCandidate ∧ t.seq.ocr.getLsbD 30 = true then .highCapacity
      else .standardCapacity := h.cls

/-- R179, R204: the count of a Ready card does not wrap. -/
theorem InitReady.blockCount_toNat {s t : State} (h : InitReady s t) :
    t.cd.blockCount.toNat = decodeBlocks t.cd.cls t.seq.csd := by
  have hle : decodeBlocks t.cd.cls t.seq.csd ≤ 2 ^ 32 := decodeBlocks_le _ _
  rw [h.count, BitVec.toNat_ofNat, Nat.mod_eq_of_lt (by omega)]

/-- Settles O15: each of the two ends of `initSequence_end` with its registers and its cause. -/
theorem initCompletes : Obligations.InitCompletes := by
  unfold Obligations.InitCompletes
  intro s ha
  rcases initSequence_end s ha with hready | haborted
  · obtain ⟨made, hevents, hend⟩ := hready.initEnd
    obtain ⟨htentative, -, hbit⟩ := hready.facts
    exact ⟨_, made, exec_init_next ha, hready.acknowledged, hevents, hend, .inl ⟨hready.status, hready.value, hready.errorNone,
      hready.state, htentative, hbit, hready.cls_eq, hready.blockCount_toNat⟩⟩
  · obtain ⟨made, hevents, hend⟩ := haborted.ending
    exact ⟨_, made, exec_init_next ha, haborted.acknowledged, hevents, hend, .inr ⟨haborted.cls, haborted.relativeAddress,
      haborted.blockCount, haborted.state, haborted.code, haborted.status, haborted.value⟩⟩

/-- Either end of INIT leaves alone what INIT never touches (R170). -/
theorem initSequence_base {s : State} (ha : s.t.ackPending = false) : InitBase s (initSequence s) :=
  (initSequence_end s ha).elim InitReady.base InitAborted.base

/-- Settles O16: the base of either end, the buffers byte by byte. -/
theorem initFrame : Obligations.InitFrame := by
  unfold Obligations.InitFrame
  intro s ha
  obtain ⟨hbte, hdlen, hdctrl, hwbuf, hrbuf, hrequest, hdecoded, hfreed, hcfg, hpushed, hpopped⟩ := initSequence_base ha
  exact ⟨_, exec_init_next ha, hbte, hdlen, hdctrl, fun a => ⟨by rw [hwbuf], by rw [hrbuf]⟩,
    ⟨hrequest, fun a => by rw [hwbuf], hdecoded, hcfg⟩, hfreed, hpushed, hpopped⟩

/-- R270: Ok is the status of no error. -/
theorem ErrorCode.status_eq_ok_iff (c : ErrorCode) : c.status = .ok ↔ c = .none := by
  cases c <;> decide

/-- R183: an abort's status is never Ok. -/
theorem InitAborted.status_ne_ok {s t : State} (h : InitAborted s t) : t.port.status ≠ .ok := by
  rw [h.status, ne_eq, ErrorCode.status_eq_ok_iff]
  exact h.code

/-- R177, R180: SET_BLOCKLEN is sent exactly to the class that is StandardCapacity. -/
theorem InitReady.addressedFrames_eq {s t : State} (h : InitReady s t) :
    addressedFrames s.cfg t.seq t.cd.relativeAddress =
      [s.cfg.publishRcaFrame, s.cfg.getCsdFrame t.cd.relativeAddress] ++
        (if t.cd.cls = .standardCapacity then [s.cfg.setBlocklenFrame] else []) := by
  rw [addressedFrames, h.cls]
  simp only [finalClass_standard, ite_not]

/-- Settles O19: what a successful INIT writes (`InitReady.writes`), one pass more than the busy ones. -/
theorem initCommands : Obligations.InitCommands := by
  unfold Obligations.InitCommands
  intro s ha
  refine ⟨_, exec_init_next ha, fun hok => ?_⟩
  rcases initSequence_end s ha with hready | haborted
  · obtain ⟨-, hpasses, -⟩ := hready.facts
    refine ⟨(initSequence s).seq.iter + 1, by omega, by omega, ?_⟩
    rw [hready.writes, hready.addressedFrames_eq, ← List.append_assoc]
    rfl
  · exact absurd hok haborted.status_ne_ok

/-- R286: a card with a class of its own is in mode Ready. -/
theorem State.mode_ready_iff (s : State) : s.mode = .ready ↔ s.cd.cls = .standardCapacity ∨ s.cd.cls = .highCapacity := by
  unfold State.mode
  cases s.cd.cls <;> simp

/-- R286: class Error is mode Failed. -/
theorem State.mode_of_error {s : State} (h : s.cd.cls = .error) : s.mode = .failed := by
  rw [State.mode, h]

/-- R177: the class resolved is one of the two. -/
theorem finalClass_cases (tentative : Tentative) (ocr : Word) :
    finalClass tentative ocr = .standardCapacity ∨ finalClass tentative ocr = .highCapacity := by
  unfold finalClass
  split
  · exact .inr rfl
  · exact .inl rfl

/-- R182: INIT that ended in Ready is in mode Ready. -/
theorem InitReady.mode {s t : State} (h : InitReady s t) : t.mode = .ready := by
  rw [State.mode_ready_iff, h.cls]
  exact finalClass_cases _ _

/-- R255, R270: LASTERR gives the code of an error; as a status it has the same code. -/
theorem ErrorCode.status_code (c : ErrorCode) : c.status.code = c.code := by
  cases c <;> rfl

/-- Settles O52: the two ends of INIT, each with its mode and the code LASTERR reads. -/
theorem modesAfterInit : Obligations.ModesAfterInit := by
  unfold Obligations.ModesAfterInit
  intro s ha
  refine ⟨_, exec_init_next ha, ?_⟩
  rcases initSequence_end s ha with hready | haborted
  · refine ⟨fun _ => hready.mode, fun hne => absurd hready.status hne, _, rfl, ?_⟩
    rw [hready.status, finish_port, hready.errorNone]
    rfl
  · refine ⟨fun hok => absurd hok haborted.status_ne_ok, fun _ => State.mode_of_error haborted.cls, _, rfl, ?_⟩
    rw [haborted.status, ErrorCode.status_code, finish_port]

end Sys2Proof.Machine
end

section
/-! SUPPORT. INIT along scripted answers of ENV, to each of its ends (42_init_sequencer.md R173 to R184). -/

namespace Sys2Proof.Machine

/-- One command's moves are the answers of a list of one exchange. -/
theorem answers_singleton (c : Config) (f : Frame) (r : Reply) : answers c [(f, r)] = r.moves c f := by
  rw [answers_cons, answers_nil, List.append_nil]

/-- An abort makes no interface access. -/
theorem abortInit_writes (code : ErrorCode) (s : State) : (abortInit code s).writes = s.writes :=
  (views_of_accesses_eq (abortInit_accesses code s)).1

/-- R281: the descriptor an abort leaves is its own, whatever stood there. -/
theorem abortInit_cd_eq (code : ErrorCode) (s : State) : (abortInit code s).cd =
    { cls := .error, relativeAddress := 0, blockCount := 0, errorCode := code } := rfl

/-- R173: GO_IDLE outside its accepted set aborts at once. -/
theorem initReset_failed {c : Config} {xs : List (Frame × Reply)} {rest : List EnvMove} {s : State} {r : Reply}
    (h : OnScript c ((c.goIdleFrame, r) :: xs) rest s) (hk : ¬(r.outcome c c.goIdleFrame).kind.quietOk) :
    initReset s = .ended (abortInit .notPresent (transact c.goIdleFrame (enterSeq .reset s))) := by
  obtain ⟨houtcome, -⟩ := (h.of_env (t := enterSeq .reset s) rfl rfl).transact
  unfold initReset
  dsimp only
  rw [h.cfg, houtcome, if_neg (mt (acceptedNoReply_iff _).1 hk)]

/-- An end in the state Reset is the end of INIT (R183). -/
theorem initSequence_of_reset_ended {s v : State} (h : initReset (initEntry s) = .ended v) : initSequence s = v := by
  unfold initSequence
  rw [h]
  rfl

/-- Settles O21: the abort of the state Reset, after the one transaction of GO_IDLE. -/
theorem initNoCard : Obligations.InitNoCard := by
  unfold Obligations.InitNoCard
  intro s r0 hr0 hs
  rw [← answers_singleton] at hs
  obtain ⟨rest, hon⟩ := hs.onScript
  refine ⟨initSequence s, exec_init_next hs.acknowledged, ?_⟩
  rw [initSequence_of_reset_ended (initReset_failed (hon.of_env (t := initEntry s) rfl rfl) hr0)]
  refine ⟨rfl, rfl, rfl, rfl, ?tentative, ?writes⟩
  case tentative =>
    rw [abortInit_seq, transact_seq]
    rfl
  case writes =>
    rw [abortInit_writes, transact_writes, enterSeq_writes, framesWrites_singleton]
    rfl

/-! ## The operating-conditions loop (R176) -/

/-- An end in the loop is the end of INIT (R183). -/
theorem opCondLoop_ended_finally {k : Nat} {u v : State} (h : opCondLoop k u = .ended v) :
    ((((((opCondLoop k u).andThen initClassFinalize).andThen initAddressAssign).andThen initDescriptorFetch).andThen
      initBlockLengthFix).andThen initSelectBusWidth).finally initReady = v := by
  rw [h]
  rfl

/-- Settles O23: `N_OCR` busy passes leave no pass, and the loop aborts. -/
theorem initPowerUpTimeout : Obligations.InitPowerUpTimeout := by
  unfold Obligations.InitPowerUpTimeout
  intro s r0 r1 busy h hr0 hr1 hbusy hlen hs
  obtain ⟨rest, hon⟩ := hs.onScript
  obtain ⟨u, hsequence, -, -, htentative, -, hiter, hwrites⟩ := initSequence_polling hr0 hr1 hbusy 0 hlen.symm (xs := [])
    (by simpa using hon.of_env (t := initEntry s) rfl rfl)
  refine ⟨initSequence s, exec_init_next hs.acknowledged, ?_⟩
  rw [hsequence, opCondLoop_ended_finally (v := abortInit .timeout u) rfl, abortInit_writes, hwrites, abortInit_seq, ← hlen]
  exact ⟨rfl, rfl, rfl, rfl, hiter, htentative, rfl⟩

/-- A pass whose APP_CMD fails aborts (R176, R184). -/
theorem opCondLoop_prefix_failed {c : Config} {xs : List (Frame × Reply)} {rest : List EnvMove} {u : State} {r : Reply} {k : Nat}
    (hon : OnScript c ((c.appCmdFrame 0, r) :: xs) rest u) (hrca : u.cd.relativeAddress = 0)
    (hk : ¬(r.outcome c (c.appCmdFrame 0)).kind.quietOk) :
    opCondLoop (k + 1) u = .ended (abortInit .protocolError (transact (c.appCmdFrame 0) u)) := by
  obtain ⟨houtcome, -⟩ := hon.transact
  unfold opCondLoop
  dsimp only
  rw [hon.cfg, hrca, houtcome, if_neg (mt (acceptedNoReply_iff _).1 hk)]

/-- A pass whose SEND_OP_COND fails aborts (R176, R184). -/
theorem opCondLoop_command_failed {c : Config} {h : Bool} {ra ro : Reply} {xs : List (Frame × Reply)} {rest : List EnvMove}
    {u : State} {k : Nat} (hon : OnScript c (opCondExchange c h (ra, ro) ++ xs) rest u) (hrca : u.cd.relativeAddress = 0)
    (htentative : (u.seq.tentative == .highCapacityCandidate) = h)
    (hprefix : (ra.outcome c (c.appCmdFrame 0)).kind.quietOk) (hk : (ro.outcome c (c.sendOpCondFrame h)).kind ≠ .accepted) :
    opCondLoop (k + 1) u =
      .ended (abortInit .protocolError (transact (c.sendOpCondFrame h) (transact (c.appCmdFrame 0) u))) := by
  obtain ⟨hfirst, hon1, -⟩ := OnScript.transact hon
  obtain ⟨hsecond, -⟩ := OnScript.transact hon1
  unfold opCondLoop
  dsimp only
  rw [hon.cfg, hrca, hfirst, if_pos ((acceptedNoReply_iff _).2 hprefix), hon1.cfg, transact_seq, htentative, hsecond, if_neg hk]

/-- Settles O24: a pass is left after the busy ones (`initSequence_polling`), and it aborts at the command that fails. -/
theorem initOpCondFailure : Obligations.InitOpCondFailure := by
  unfold Obligations.InitOpCondFailure
  intro s r0 r1 ra ro busy h hr0 hr1 hbusy hlen
  obtain ⟨k, hk⟩ : ∃ k, s.cfg.nOcr = busy.length + (k + 1) := ⟨s.cfg.nOcr - busy.length - 1, by omega⟩
  refine ⟨fun hfailed hs => ?appCmd, fun hprefix hfailed hs => ?opCond⟩
  case appCmd =>
    obtain ⟨rest, hon⟩ := hs.onScript
    obtain ⟨u, hsequence, hu, hrca, -, -, -, hwrites⟩ := initSequence_polling hr0 hr1 hbusy (k + 1) hk
      (hon.of_env (t := initEntry s) rfl rfl)
    refine ⟨initSequence s, exec_init_next hs.acknowledged, ?_⟩
    rw [hsequence, opCondLoop_ended_finally (opCondLoop_prefix_failed hu hrca hfailed), abortInit_writes, transact_writes, hwrites,
      List.append_assoc, ← framesWrites_singleton, ← framesWrites_append]
    exact ⟨rfl, rfl, rfl, rfl⟩
  case opCond =>
    obtain ⟨rest, hon⟩ := hs.onScript
    obtain ⟨u, hsequence, hu, hrca, -, htentative, -, hwrites⟩ := initSequence_polling hr0 hr1 hbusy (k + 1) hk
      (xs := opCondExchange s.cfg h (ra, ro) ++ []) (by simpa [opCondExchanges] using hon.of_env (t := initEntry s) rfl rfl)
    refine ⟨initSequence s, exec_init_next hs.acknowledged, ?_⟩
    rw [hsequence, opCondLoop_ended_finally (opCondLoop_command_failed hu hrca htentative hprefix hfailed), abortInit_writes,
      transact_writes, transact_writes, hwrites, List.replicate_succ', List.flatten_append, List.flatten_singleton]
    exact ⟨rfl, rfl, rfl, by simp [framesWrites]⟩

/-! ## The states after the loop -/

section states

variable {c : Config} {xs : List (Frame × Reply)} {rest : List EnvMove} {s : State} {r : Reply}

/-- State ClassFinalize, which sends nothing (R177). -/
theorem initClassFinalize_script (h : OnScript c xs rest s) :
    ∃ u, initClassFinalize s = .running u ∧ OnScript c xs rest u ∧
      u.cd = { s.cd with cls := finalClass s.seq.tentative s.seq.ocr } ∧ u.seq = { s.seq with state := .classFinalize } :=
  ⟨_, rfl, h.of_env rfl rfl, rfl, rfl⟩

/-- State AddressAssign with PUBLISH_RCA accepted (R178). -/
theorem initAddressAssign_script (h : OnScript c ((c.publishRcaFrame, r) :: xs) rest s)
    (hk : (r.outcome c c.publishRcaFrame).kind = .accepted) :
    ∃ u, initAddressAssign s = .running u ∧ OnScript c xs rest u ∧
      u.cd = { s.cd with relativeAddress := (r.outcome c c.publishRcaFrame).words.w0.extractLsb' 16 16 } ∧
      u.seq = { s.seq with state := .addressAssign } := by
  have hentered : OnScript c ((c.publishRcaFrame, r) :: xs) rest (enterSeq .addressAssign s) := h.of_env rfl rfl
  obtain ⟨houtcome, hon, -⟩ := hentered.transact
  unfold initAddressAssign
  rw [h.cfg, initCommand_script hentered hk, Flow.andThen_running]
  refine ⟨_, rfl, hon.of_env rfl rfl, ?_, ?_⟩
  · rw [transact_cd, houtcome]
    rfl
  · exact transact_seq _ _

/-- State DescriptorFetch with GET_CSD accepted (R179). -/
theorem initDescriptorFetch_script {rca : Rca} {cls : CardClass} (h : OnScript c ((c.getCsdFrame rca, r) :: xs) rest s)
    (hrca : s.cd.relativeAddress = rca) (hcls : s.cd.cls = cls) (hk : (r.outcome c (c.getCsdFrame rca)).kind = .accepted) :
    ∃ u, initDescriptorFetch s = .running u ∧ OnScript c xs rest u ∧
      u.cd =
        { s.cd with blockCount := BitVec.ofNat 64 (decodeBlocks cls (r.outcome c (c.getCsdFrame rca)).words) } ∧
      u.seq = { s.seq with state := .descriptorFetch, csd := (r.outcome c (c.getCsdFrame rca)).words } := by
  subst hrca hcls
  have hentered : OnScript c ((c.getCsdFrame s.cd.relativeAddress, r) :: xs) rest (enterSeq .descriptorFetch s) :=
    h.of_env rfl rfl
  obtain ⟨houtcome, hon, -⟩ := hentered.transact
  unfold initDescriptorFetch
  rw [h.cfg, initCommand_script hentered hk, Flow.andThen_running]
  refine ⟨_, rfl, hon.of_env rfl rfl, ?_, ?_⟩
  · rw [transact_cd, houtcome]
    rfl
  · rw [transact_seq, houtcome]
    rfl

/-- State BlockLengthFix, with SET_BLOCKLEN accepted where it is sent (R180). -/
theorem initBlockLengthFix_script {cls : CardClass}
    (h : OnScript c ((if cls = .standardCapacity then [(c.setBlocklenFrame, r)] else []) ++ xs) rest s)
    (hcls : s.cd.cls = cls) (hk : cls = .standardCapacity → (r.outcome c c.setBlocklenFrame).kind = .accepted) :
    ∃ u, initBlockLengthFix s = .running u ∧ OnScript c xs rest u ∧ u.cd = s.cd ∧
      u.seq = { s.seq with state := .blockLengthFix } := by
  subst hcls
  have hcfg : (enterSeq .blockLengthFix s).cfg = c := h.cfg
  unfold initBlockLengthFix
  dsimp only
  rw [enterSeq_cd, hcfg]
  split
  case isTrue hcls =>
    rw [if_pos hcls] at h
    have hentered : OnScript c ((c.setBlocklenFrame, r) :: xs) rest (enterSeq .blockLengthFix s) := h.of_env rfl rfl
    obtain ⟨-, hon, -⟩ := hentered.transact
    exact ⟨_, initCommand_script hentered (hk hcls), hon, transact_cd _ _, transact_seq _ _⟩
  case isFalse hcls =>
    rw [if_neg hcls] at h
    exact ⟨_, rfl, h.of_env rfl rfl, rfl, rfl⟩

/-- State SelectBusWidth, with its four commands accepted where the step runs (R181). -/
theorem initSelectBusWidth_script {rs ra rw rd : Reply} {rca : Rca}
    (h : OnScript c (if c.buswidthStep = true then
      [(c.selectFrame rca, rs), (c.appCmdFrame rca, ra), (c.setBusWidthFrame, rw), (c.deselectFrame, rd)] else []) rest s)
    (hrca : s.cd.relativeAddress = rca)
    (hk : c.buswidthStep = true → (rs.outcome c (c.selectFrame rca)).kind = .accepted ∧
      (ra.outcome c (c.appCmdFrame rca)).kind.quietOk ∧ (rw.outcome c c.setBusWidthFrame).kind = .accepted ∧
      (rd.outcome c c.deselectFrame).kind.quietOk) :
    ∃ u, initSelectBusWidth s = .running u ∧ u.cd = s.cd ∧ u.seq = { s.seq with state := .selectBusWidth } := by
  subst hrca
  have hcfg : (enterSeq .selectBusWidth s).cfg = c := h.cfg
  unfold initSelectBusWidth
  dsimp only
  rw [enterSeq_cd, hcfg]
  split
  case isTrue hstep =>
    rw [if_pos hstep] at h
    obtain ⟨hselect, hprefix, hwidth, hdeselect⟩ := hk hstep
    have h0 : OnScript c _ rest (enterSeq .selectBusWidth s) := h.of_env rfl rfl
    obtain ⟨-, h1, -⟩ := OnScript.transact h0
    obtain ⟨-, h2, -⟩ := OnScript.transact h1
    obtain ⟨-, h3, -⟩ := OnScript.transact h2
    rw [initCommand_script h0 hselect, Flow.andThen_running, h1.cfg, transact_cd, enterSeq_cd,
      initCommandNoReply_script h1 hprefix, Flow.andThen_running, h2.cfg, initCommand_script h2 hwidth,
      Flow.andThen_running, h3.cfg, initCommandNoReply_script h3 hdeselect]
    exact ⟨_, rfl, by simp only [transact_cd, enterSeq_cd], by simp only [transact_seq, enterSeq_seq]⟩
  case isFalse hstep =>
    exact ⟨_, rfl, rfl, rfl⟩

end states

/-- The exchanges after the loop with a card of class `cls` at the address `rca` (R178 to R181). -/
def addressedExchanges (c : Config) (cls : CardClass) (rca : Rca) (rp rc rb rs ra rw rd : Reply) : List (Frame × Reply) :=
  (c.publishRcaFrame, rp) :: (c.getCsdFrame rca, rc) ::
    ((if cls = .standardCapacity then [(c.setBlocklenFrame, rb)] else []) ++
      if c.buswidthStep = true then
        [(c.selectFrame rca, rs), (c.appCmdFrame rca, ra), (c.setBusWidthFrame, rw), (c.deselectFrame, rd)]
      else [])

/-- The registers of INIT where every command has passed, before Ready: those of `v`, the state the loop left, and what
the states after it have found (R177 to R181). -/
structure PassedAll (v w : State) (resolved : CardClass) (rca : Rca) (words : Words4) : Prop where
  cls : w.cd.cls = resolved
  relativeAddress : w.cd.relativeAddress = rca
  blockCount : w.cd.blockCount = BitVec.ofNat 64 (decodeBlocks resolved words)
  tentative : w.seq.tentative = v.seq.tentative
  ocr : w.seq.ocr = v.seq.ocr
  csd : w.seq.csd = words
  iter : w.seq.iter = v.seq.iter

/-- INIT from the end of the loop to Ready: each state goes on by its reply (R177 to R182). -/
theorem init_rest_script {c : Config} {cls : CardClass} {rca : Rca} {rp rc rb rs ra rw rd : Reply} {rest : List EnvMove}
    {v : State} (h : OnScript c (addressedExchanges c cls rca rp rc rb rs ra rw rd) rest v)
    (hcls : finalClass v.seq.tentative v.seq.ocr = cls) (hrp : (rp.outcome c c.publishRcaFrame).kind = .accepted)
    (hrca : (rp.outcome c c.publishRcaFrame).words.w0.extractLsb' 16 16 = rca)
    (hrc : (rc.outcome c (c.getCsdFrame rca)).kind = .accepted)
    (hrb : cls = .standardCapacity → (rb.outcome c c.setBlocklenFrame).kind = .accepted)
    (hwidth : c.buswidthStep = true → (rs.outcome c (c.selectFrame rca)).kind = .accepted ∧
      (ra.outcome c (c.appCmdFrame rca)).kind.quietOk ∧ (rw.outcome c c.setBusWidthFrame).kind = .accepted ∧
      (rd.outcome c c.deselectFrame).kind.quietOk) :
    ∃ w, (((((initClassFinalize v).andThen initAddressAssign).andThen initDescriptorFetch).andThen
        initBlockLengthFix).andThen initSelectBusWidth).finally initReady = initReady w ∧
      PassedAll v w cls rca (rc.outcome c (c.getCsdFrame rca)).words := by
  obtain ⟨u1, hrun1, hon1, hcd1, hseq1⟩ := initClassFinalize_script h
  obtain ⟨u2, hrun2, hon2, hcd2, hseq2⟩ := initAddressAssign_script hon1 hrp
  obtain ⟨u3, hrun3, hon3, hcd3, hseq3⟩ := initDescriptorFetch_script (cls := cls) hon2 (by rw [hcd2, hrca])
    (by rw [hcd2, hcd1, hcls]) hrc
  obtain ⟨u4, hrun4, hon4, hcd4, hseq4⟩ := initBlockLengthFix_script hon3 (by rw [hcd3, hcd2, hcd1, hcls]) hrb
  obtain ⟨u5, hrun5, hcd5, hseq5⟩ := initSelectBusWidth_script hon4 (by rw [hcd4, hcd3, hcd2, hrca]) hwidth
  refine ⟨u5, ?_, ?_⟩
  · rw [hrun1, Flow.andThen_running, hrun2, Flow.andThen_running, hrun3, Flow.andThen_running, hrun4, Flow.andThen_running,
      hrun5, Flow.finally_running]
  · constructor <;> simp only [hcd5, hcd4, hcd3, hcd2, hcd1, hseq5, hseq4, hseq3, hseq2, hseq1, hcls, hrca]

/-- What Ready leaves in the descriptor and the sequencer (R182). -/
theorem PassedAll.ready {v w : State} {cls : CardClass} {rca : Rca} {csd : Words4} (h : PassedAll v w cls rca csd) :
    (initReady w).cd =
        { cls := cls, relativeAddress := rca, blockCount := BitVec.ofNat 64 (decodeBlocks cls csd), errorCode := .none } ∧
      (initReady w).seq =
        { state := .ready, tentative := v.seq.tentative, ocr := v.seq.ocr, csd := csd, iter := v.seq.iter } := by
  obtain ⟨hcls, hrca, hcount, htentative, hocr, hcsd, hiter⟩ := h
  rw [← hcount, ← hcls, ← hrca, ← htentative, ← hocr, ← hcsd, ← hiter]
  exact ⟨rfl, rfl⟩

/-- R177: the class resolved, for a candidate (`h` = true) and for a legacy card. -/
theorem finalClass_of_candidate (h : Bool) (ocr : Word) :
    finalClass (if h = true then .highCapacityCandidate else .standardCapacity) ocr =
      if h = true ∧ ocr.getLsbD 30 = true then .highCapacity else .standardCapacity := by
  cases h <;> simp [finalClass, ocrCapacity]

/-- Settles O20: the loop ends in the pass `last`, and every state after it goes on (`init_rest_script`). -/
theorem initReachesReady : Obligations.InitReachesReady := by
  unfold Obligations.InitReachesReady
  intro s r0 r1 rp rc rb rs ra rw rd busy last h cls rca hr0 hr1 hbusy hlast hlen hcls hrp hrca hrc hrb hwidth hs
  obtain ⟨k, hk⟩ : ∃ k, s.cfg.nOcr = busy.length + (k + 1) := ⟨s.cfg.nOcr - busy.length - 1, by omega⟩
  obtain ⟨rest, hon⟩ := hs.onScript
  obtain ⟨u, hsequence, hu, hurca, htentative, hcandidate, hiter, -⟩ := initSequence_polling hr0 hr1 hbusy (k + 1) hk
    (xs := opCondExchange s.cfg h last ++ addressedExchanges s.cfg cls rca rp rc rb rs ra rw rd)
    (by simpa [opCondExchanges, addressedExchanges] using hon.of_env (t := initEntry s) rfl rfl)
  obtain ⟨v, hloop, hv, -, hvseq⟩ := opCondLoop_last (k := k) hu hurca hcandidate hlast
  have hvcls : finalClass v.seq.tentative v.seq.ocr = cls := by
    rw [hvseq, hcls, ← finalClass_of_candidate, htentative]
  obtain ⟨w, hready, hpassed⟩ := init_rest_script hv hvcls hrp hrca.symm hrc hrb hwidth
  obtain ⟨hcd, hseq⟩ := hpassed.ready
  refine ⟨initSequence s, exec_init_next hs.acknowledged, ?_⟩
  rw [hsequence, hloop, Flow.andThen_running, hready]
  refine ⟨rfl, rfl, hcd, ?_⟩
  rw [hseq, hvseq, htentative, hiter]

end Sys2Proof.Machine
end

section
/-! SUPPORT. The block operations from their checks to their ends (44_block_transfer.md R215 to R231). -/

namespace Sys2Proof.Machine

/-! ## The bounds checks (20_memory.md R64, R65) -/

/-- R64, R275: a block out of range fails both operations before anything else happens. -/
theorem exec_block_outOfRange {s : State} {block : Word} (h : ¬s.cd.InRange block) :
    exec (.rdblk block) s = .next (failOp .boundsError 0 s) ∧ exec (.wrblk block) s = .next (failOp .boundsError 0 s) := by
  have hout : ¬blockInRange s.cd block = true := mt (blockInRange_iff _ _).mp h
  exact ⟨if_neg hout, if_neg hout⟩

/-- Settles O29: either bound puts the block out of range, and `failOp` writes what the statement lists. -/
theorem blockOutOfRange : Obligations.BlockOutOfRange := by
  unfold Obligations.BlockOutOfRange
  intro s block hout i hi
  have hrange : ¬s.cd.InRange block := fun ⟨hcount, haddress⟩ => hout.elim (fun h => by omega) haddress
  obtain ⟨hread, hwrite⟩ := exec_block_outOfRange hrange
  simp only [List.mem_cons, List.not_mem_nil, or_false] at hi
  obtain rfl | rfl := hi
  · exact hread
  · exact hwrite

/-- R21, R286: outside mode Ready the block count is 0, so no block is in range. -/
theorem CardDescriptor.Inv.not_inRange {s : State} (h : s.cd.Inv) (hmode : s.mode ≠ .ready) (block : Word) :
    ¬s.cd.InRange block := by
  have hcount : s.cd.blockCount = 0 := by
    rw [ne_eq, State.mode_ready_iff] at hmode
    cases hcls : s.cd.cls with
    | unknown =>
      obtain ⟨-, hcount, -⟩ := h.unknown hcls
      exact hcount
    | error =>
      obtain ⟨-, hcount, -⟩ := h.error hcls
      exact hcount
    | standardCapacity => exact absurd (.inl hcls) hmode
    | highCapacity => exact absurd (.inr hcls) hmode
  rintro ⟨hlt, -⟩
  rw [hcount] at hlt
  exact Nat.not_lt_zero _ hlt

/-- Settles O30: outside mode Ready every block is out of range. -/
theorem blocksNeedReady : Obligations.BlocksNeedReady := by
  unfold Obligations.BlocksNeedReady
  intro s block hinv hmode
  obtain ⟨hread, hwrite⟩ := exec_block_outOfRange (hinv.not_inRange hmode block)
  exact ⟨⟨_, hread, rfl, rfl⟩, ⟨_, hwrite, rfl, rfl⟩⟩

section operations

variable {s t : State} {block : Word} {written : List Access} {words : List Word}

/-! ## RDBLK -/

/-- R216: past its checks a read is `readBlock`. -/
theorem exec_rdblk_inRange (hr : s.cd.InRange block) (ha : s.t.ackPending = false) :
    exec (.rdblk block) s = readBlock block s := execRdblk_inRange hr ha

/-- R97, R46: the inputs of the operation are as they were at its end. -/
theorem BlockEnd.sameInputs (h : BlockEnd s block written words t) : s.SameInputs t :=
  ⟨h.request, fun a => by rw [h.wbuf], h.decoded, h.cfg⟩

/-- What is pushed is the pushes among the writes. -/
theorem BlockEnd.pushed (h : BlockEnd s block written words t) :
    t.pushed = s.pushed ++ written.filterMap Access.pushed? := by
  rw [State.pushed_of_writes, h.writes, List.filterMap_append, ← State.pushed_of_writes]

/-- Settles O31: either end of the read is a `BlockEnd` that pushed nothing; the cause and the phases are those of its
course. -/
theorem readCompletes : Obligations.ReadCompletes := by
  unfold Obligations.ReadCompletes
  intro s block hr ha
  obtain ⟨t, hread, hend⟩ := readBlock_end (block := block) ha
  have hended : ReadEnded s block t := readBlock_ends hread
  have hcommon : (t.port.status = .ok ∨ t.port.status = .protocolError ∨ t.port.status = .timeout) ∧
      ∃ written words, BlockEnd s block written words t ∧ written.filterMap Access.pushed? = [] := by
    rcases hend with ⟨hok, words, -, -, hblock, -⟩ | ⟨hst, written, words, hblock, -, hpushed⟩
    · exact ⟨.inl hok, _, words, hblock, rfl⟩
    · exact ⟨.inr hst, written, words, hblock, hpushed⟩
  obtain ⟨hst, written, words, hblock, hpushed⟩ := hcommon
  exact ⟨t, (exec_rdblk_inRange hr ha).trans hread, hst, hblock.value, hblock.phase, hblock.target, hblock.addr, hblock.count,
    hblock.acknowledged, hblock.cd, hblock.seq, hblock.sameInputs, hblock.entered,
    by rw [hblock.pushed, hpushed, List.append_nil], hended, hended.phases⟩

/-- R231: a failed read has no status Ok. -/
theorem ReadFailed.status_ne_ok (h : ReadFailed s block t) : t.port.status ≠ .ok := by
  obtain ⟨hst | hst, -⟩ := h <;> rw [hst] <;> decide

/-- Settles O32: the writes of the end with status Ok. -/
theorem readWrites : Obligations.ReadWrites := by
  unfold Obligations.ReadWrites
  intro s block hr ha
  obtain ⟨t, hread, hend⟩ := readBlock_end (block := block) ha
  have hexec : exec (.rdblk block) s = .next t := (exec_rdblk_inRange hr ha).trans hread
  refine ⟨t, hexec, fun hok => ?_⟩
  rcases hend with ⟨-, words, -, -, hblock, -⟩ | hfailed
  · exact hblock.writes
  · exact absurd hok hfailed.status_ne_ok

/-- R233: 128 words stored from the first on are the bytes of the buffer. -/
theorem Memory.read_storeWords_block {m : Memory} (h : m.wf = true) (hlen : words.length = 128) (k : Fin 128) (j : Fin 4) :
    (m.storeWords 0 words).read (4 * k.val + j.val) = (words.getD k.val 0).extractLsb' (8 * j.val) 8 := by
  have hdiv : (4 * k.val + j.val) / 4 = k.val := by omega
  have hmod : (4 * k.val + j.val) % 4 = j.val := by omega
  rw [Memory.read_storeWords h (by omega), hdiv, hmod, if_pos (by omega), Nat.sub_zero, byteOf]

/-- R62: no byte lies beyond the 128 words. -/
theorem Memory.read_storeWords_beyond {m : Memory} (h : m.wf = true) (hlen : words.length = 128) {a : Nat} (ha : 512 ≤ a) :
    (m.storeWords 0 words).read a = m.read a := by
  rw [Memory.read_storeWords h (by omega), if_neg (by omega)]

/-- Settles O34: the words popped at either end; at the end with status Ok they are 128 and stored in RBUF. -/
theorem readDelivers : Obligations.ReadDelivers := by
  unfold Obligations.ReadDelivers
  intro s block hr ha hwf
  obtain ⟨t, hread, hend⟩ := readBlock_end (block := block) ha
  have hexec : exec (.rdblk block) s = .next t := (exec_rdblk_inRange hr ha).trans hread
  rcases hend with ⟨-, words, hlen, -, hblock, hrbuf, -⟩ | hfailed
  · refine ⟨t, words, hexec, hblock.popped, hlen.le, fun _ => ⟨hlen, ?_⟩⟩
    rw [hrbuf]
    exact ⟨Memory.read_storeWords_block hwf hlen, fun a => Memory.read_storeWords_beyond hwf hlen⟩
  · obtain ⟨-, written, words, hblock, hlen, -⟩ := id hfailed
    exact ⟨t, words, hexec, hblock.popped, hlen, fun hok => absurd hok hfailed.status_ne_ok⟩

/-! ## WRBLK -/

/-- R222: a write of a block in range with nothing pending is run to its end. -/
theorem exec_wrblk_next (hr : s.cd.InRange block) (ha : s.t.ackPending = false) :
    exec (.wrblk block) s = .next (writeBlock block s) := execWrblk_inRange hr ha

/-- R231: a failed write has no status Ok. -/
theorem WriteFailed.status_ne_ok (h : WriteFailed s block t) : t.port.status ≠ .ok := by
  obtain ⟨hst | hst, -⟩ := h <;> rw [hst] <;> decide

/-- The pushes of a successful write are the words of WBUF (R227, R228). -/
theorem writeWrites_pushed (s : State) (block : Word) (j k : Nat) :
    (writeWrites s block j k).filterMap Access.pushed? = s.blockWords := by
  simp only [writeWrites, List.filterMap_append, commandWrites_pushed, filterMap_pushed_flatten, filterMap_pushed_dataPath,
    filterMap_pushed_fifoPush, List.nil_append, List.append_nil]

/-- R222, R231: what both ends of a write have in common, with the words pushed. -/
theorem writeBlock_common (block : Word) (ha : s.t.ackPending = false) :
    ((writeBlock block s).port.status = .ok ∨ (writeBlock block s).port.status = .protocolError ∨
        (writeBlock block s).port.status = .timeout) ∧
      (writeBlock block s).port.rbuf = s.port.rbuf ∧ (writeBlock block s).freed = s.freed ∧
      ∃ written n, BlockEnd s block written [] (writeBlock block s) ∧ n ≤ 128 ∧
        written.filterMap Access.pushed? = s.blockWords.take n ∧ ((writeBlock block s).port.status = .ok → n = 128) := by
  rcases writeBlock_end (block := block) ha with ⟨hok, j, k, -, -, -, -, hblock, hrbuf, hfreed⟩ | hfailed
  · have hall : s.blockWords.take 128 = s.blockWords := List.take_of_length_le (State.blockWords_length s).le
    exact ⟨.inl hok, hrbuf, hfreed, _, 128, hblock, le_rfl, by rw [writeWrites_pushed, hall], fun _ => rfl⟩
  · obtain ⟨hst, hrbuf, hfreed, written, n, hblock, hn, hpushed⟩ := id hfailed
    exact ⟨.inr hst, hrbuf, hfreed, written, n, hblock, hn, hpushed, fun hok => absurd hok hfailed.status_ne_ok⟩

/-- Settles O37: what both ends have in common; the cause and the phases are those of the course. -/
theorem writeCompletes : Obligations.WriteCompletes := by
  unfold Obligations.WriteCompletes
  intro s block hr ha
  obtain ⟨hst, hrbuf, hfreed, written, n, hblock, -, -, -⟩ := writeBlock_common block ha
  have hended : WriteEnded s block (writeBlock block s) := writeBlock_ends s block
  exact ⟨_, exec_wrblk_next hr ha, hst, hblock.value, hblock.phase, hblock.target, hblock.addr, hblock.count,
    hblock.acknowledged, hblock.cd, hblock.seq, fun a => ⟨by rw [hblock.wbuf], by rw [hrbuf]⟩, hblock.sameInputs, hfreed,
    hblock.entered, hblock.popped.trans (List.append_nil _), hended, hended.phases⟩

/-- Settles O38: the writes of the end with status Ok. (`writeWrites` alone names the list of them.) -/
theorem writeWrites_of_ok : Obligations.WriteWrites := by
  unfold Obligations.WriteWrites
  intro s block hr ha
  refine ⟨_, exec_wrblk_next hr ha, fun hok => ?_⟩
  rcases writeBlock_end (block := block) ha with ⟨-, j, k, hj, hj', hk, hk', hblock, -⟩ | hfailed
  · exact ⟨j, k, hj, hj', hk, hk', hblock.writes⟩
  · exact absurd hok hfailed.status_ne_ok

/-- Settles O39: the pushes among the writes of either end. -/
theorem writePushes : Obligations.WritePushes := by
  unfold Obligations.WritePushes
  intro s block hr ha
  obtain ⟨-, -, -, written, n, hblock, hn, hpushed, hall⟩ := writeBlock_common block ha
  exact ⟨_, n, exec_wrblk_next hr ha, hn, by rw [hblock.pushed, hpushed], hall⟩

end operations

end Sys2Proof.Machine
end

section
/-! SUPPORT. The block operations along scripted answers of ENV, from their checks to their ends (44_block_transfer.md). -/

namespace Sys2Proof.Machine

/-- A machine that ENV is about to answer makes those moves first, with no command flag latched (70_reset_and_hazards.md
R312). -/
theorem State.Scripted.onMoves {s : State} {moves : List EnvMove} (h : s.Scripted moves) :
    ∃ rest, s.env.OnMoves (moves ++ rest) := by
  obtain ⟨rest, hscript⟩ := h.script
  exact ⟨rest, hscript, h.flags⟩

/-- A quiet move keeps the FIFO, DATAEND and the command flags. -/
theorem Env.OnMoves.quiet {e : Env} {rest : List EnvMove} (h : e.OnMoves (.quiet :: rest)) :
    e.move.OnMoves rest ∧ e.move.rx = e.rx ∧ e.move.tx = e.tx ∧ e.move.latched = e.latched := by
  obtain ⟨-, hlatched, -, -, hrx, htx, -⟩ := Env.quiet_move h.script
  exact ⟨h.move rfl, hrx, htx, hlatched⟩

@[simp] theorem enterPhase_writes (ph : Phase) (s : State) : (enterPhase ph s).writes = s.writes :=
  (views_of_accesses_eq (enterPhase_accesses ph s)).1

@[simp] theorem enterPhase_pushed (ph : Phase) (s : State) : (enterPhase ph s).pushed = s.pushed :=
  (views_of_accesses_eq (enterPhase_accesses ph s)).2.1

@[simp] theorem enterPhase_popped (ph : Phase) (s : State) : (enterPhase ph s).popped = s.popped :=
  (views_of_accesses_eq (enterPhase_accesses ph s)).2.2

section read

variable {s : State} {block : Word} {rs rr : Reply} {more : List EnvMove} {words : List Word}

/-- A read after SELECT (R217). -/
def readSelected (block : Word) (s : State) : State :=
  transact (s.cfg.selectFrame s.cd.relativeAddress) (enterPhase .select (preamble block s))

/-- A read before READ_SINGLE, with the data path set up (R218). -/
def readArmed (block : Word) (s : State) : State :=
  enterPhase .command (writeDctrl 0b11 (writeDlen 512 (enterPhase .dataSetup (readSelected block s))))

theorem readSelected_at (ha : s.t.ackPending = false) :
    BlockAt s block (commandWrites (s.cfg.selectFrame s.cd.relativeAddress)) [] (readSelected block s) :=
  ((preamble_at ha).enterPhase .select).transact _

theorem readArmed_at (ha : s.t.ackPending = false) :
    BlockAt s block (commandWrites (s.cfg.selectFrame s.cd.relativeAddress) ++ [.writeDlen 512, .writeDctrl 0b11]) []
      (readArmed block s) := by
  have hdlen : BlockAt s block _ [] (writeDlen 512 (enterPhase .dataSetup (readSelected block s))) :=
    ((readSelected_at ha).enterPhase .dataSetup).access rfl rfl rfl rfl rfl rfl rfl rfl rfl rfl
  have hdctrl : BlockAt s block _ [] (writeDctrl 0b11 (writeDlen 512 (enterPhase .dataSetup (readSelected block s)))) :=
    hdlen.access rfl rfl rfl rfl rfl rfl rfl rfl rfl rfl
  rw [List.append_assoc] at hdctrl
  exact hdctrl.enterPhase .command

/-- SELECT of a read along a script: the set-up goes on to READ_SINGLE or ends with the failure (R217, R231). -/
theorem readSetup_select (ha : s.t.ackPending = false) (hn : 1 ≤ s.cfg.nCmd)
    (h : s.env.OnMoves (rs.moves s.cfg (s.cfg.selectFrame s.cd.relativeAddress) ++ more)) :
    (readSelected block s).env.OnMoves more ∧ (readSelected block s).env.rx = s.env.rx ∧
      ((rs.outcome s.cfg (s.cfg.selectFrame s.cd.relativeAddress)).kind = .accepted → readSetup (preamble block s) =
        (blockCommand (s.cfg.readSingleFrame (translateBlock s.cd.cls block)) failRead (readArmed block s)).andThen
          fun t => .running (enterPhase .stream t)) ∧
      ((rs.outcome s.cfg (s.cfg.selectFrame s.cd.relativeAddress)).kind ≠ .accepted →
        readSetup (preamble block s) = .ended (failRead .protocolError (readSelected block s))) := by
  obtain ⟨hmoves, -, hrx, -, -, hgo, hstop⟩ :=
    blockCommand_script (s := enterPhase .select (preamble block s)) failRead rfl h hn
  refine ⟨hmoves, hrx, fun hk => ?go, fun hk => ?stop⟩
  case go =>
    have hat : BlockAt s block _ [] (readArmed block s) := readArmed_at ha
    rw [← hat.addr, ← hat.cfg]
    exact congrArg (Flow.andThen · _) (hgo hk)
  case stop => exact congrArg (Flow.andThen · _) (hstop hk)

/-- RDBLK up to its end inside the set-up (R216, R231). -/
theorem readBlock_of_ended {v : State} (h : readSetup (preamble block s) = .ended v) : readBlock block s = .next v := by
  rw [readBlock, h]

/-- The data path is set up with ENV quiet (R218). -/
theorem readArmed_onMoves (h : (readSelected block s).env.OnMoves (.quiet :: .quiet :: more)) :
    (readArmed block s).env.OnMoves more ∧ (readArmed block s).env.rx = (readSelected block s).env.rx := by
  obtain ⟨hdlen, hrx, -⟩ := h.quiet
  obtain ⟨hdctrl, hrx', -⟩ := hdlen.quiet
  exact ⟨hdctrl, hrx'.trans hrx⟩

/-- Settles O36: SELECT fails at once; READ_SINGLE fails after the data path is set up. Either failure ends the set-up. -/
theorem readCommandFailure : Obligations.ReadCommandFailure := by
  unfold Obligations.ReadCommandFailure
  intro s block rs rr hr
  refine ⟨fun hfailed hs => ?select, fun hselected hfailed hs => ?fetch⟩
  case select =>
    have ha : s.t.ackPending = false := hs.acknowledged
    obtain ⟨rest, hmoves⟩ := hs.onMoves
    obtain ⟨-, -, -, hstop⟩ := readSetup_select (block := block) ha hs.polled hmoves
    have hat : BlockAt s block _ [] (readSelected block s) := readSelected_at ha
    exact ⟨failRead .protocolError (readSelected block s),
      (exec_rdblk_inRange hr ha).trans (readBlock_of_ended (hstop hfailed)), rfl, rfl, (failRead_cd _ _).trans hat.cd,
      (failRead_writes _ _).trans hat.writes⟩
  case fetch =>
    have ha : s.t.ackPending = false := hs.acknowledged
    obtain ⟨rest, hmoves⟩ := hs.onMoves
    rw [List.append_assoc, List.append_assoc] at hmoves
    obtain ⟨hu, -, hgo, -⟩ := readSetup_select (block := block) ha hs.polled hmoves
    obtain ⟨harmed, -⟩ := readArmed_onMoves hu
    obtain ⟨-, -, -, -, -, -, hstop⟩ := blockCommand_script failRead (readArmed_at ha).cfg harmed hs.polled
    have hat := (readArmed_at (block := block) ha).transact (s.cfg.readSingleFrame (translateBlock s.cd.cls block))
    refine ⟨failRead .protocolError (transact (s.cfg.readSingleFrame (translateBlock s.cd.cls block)) (readArmed block s)),
      (exec_rdblk_inRange hr ha).trans (readBlock_of_ended ?_), rfl, rfl, (failRead_cd _ _).trans hat.cd,
      (failRead_writes _ _).trans hat.writes⟩
    rw [hgo hselected, hstop hfailed, Flow.andThen_ended]

/-- Phase Stream of a read along the drain of 128 placed words (R220, vector B1). -/
theorem drain_script {rest : List EnvMove} (h : s.env.OnMoves (drainMoves words ++ rest)) (hrx : s.env.rx = [])
    (hlen : words.length = 128) (hbound : 128 ≤ s.cfg.nRx) :
    ∃ t, drain s = .next (.running t) ∧ t.env.OnMoves rest ∧ t.env.rx = [] ∧ t.popped = s.popped ++ words ∧
      t.port = { s.port with rbuf := s.port.rbuf.storeWords 0 words } ∧ t.bte.n = 128 ∧ t.cfg = s.cfg ∧ t.cd = s.cd :=
  drainLoop_script (s := { s with bte := { s.bte with n := 0, iter := 0 } }) words h hrx
    (List.ne_nil_of_length_pos (by omega)) ((Nat.zero_add _).trans hlen) (hlen.trans_le hbound)

/-- RDBLK along a drain that has received its words (R220, R221). -/
theorem readBlock_of_drained {u v : State} (hsetup : readSetup (preamble block s) = .running u)
    (hdrain : drain u = .next (.running v)) : readBlock block s = .next (blockDeselect failRead v) := by
  rw [readBlock, hsetup]
  dsimp only
  rw [hdrain]
  rfl

/-- The set-up of a read whose two commands are accepted (R217 to R219). -/
theorem readSetup_passed (ha : s.t.ackPending = false) (hn : 1 ≤ s.cfg.nCmd)
    (h : s.env.OnMoves (rs.moves s.cfg (s.cfg.selectFrame s.cd.relativeAddress) ++
      .quiet :: .quiet :: (rr.moves s.cfg (s.cfg.readSingleFrame (translateBlock s.cd.cls block)) ++ more)))
    (hselected : (rs.outcome s.cfg (s.cfg.selectFrame s.cd.relativeAddress)).kind = .accepted)
    (hfetched : (rr.outcome s.cfg (s.cfg.readSingleFrame (translateBlock s.cd.cls block))).kind = .accepted) :
    ∃ u written, readSetup (preamble block s) = .running u ∧ BlockAt s block written [] u ∧ u.env.OnMoves more ∧
      u.env.rx = s.env.rx := by
  obtain ⟨hu, hurx, hgo, -⟩ := readSetup_select (block := block) ha hn h
  obtain ⟨harmed, harmedrx⟩ := readArmed_onMoves hu
  obtain ⟨hfetch, -, hfetchrx, -, -, hgo', -⟩ := blockCommand_script failRead (readArmed_at ha).cfg harmed hn
  have hat : BlockAt s block _ [] (readArmed block s) := readArmed_at ha
  refine ⟨enterPhase .stream (transact (s.cfg.readSingleFrame (translateBlock s.cd.cls block)) (readArmed block s)), _, ?_,
    (hat.transact _).enterPhase .stream, hfetch, hfetchrx.trans (harmedrx.trans hurx)⟩
  rw [hgo hselected, hgo' hfetched, Flow.andThen_running]

/-- The end of a successful block operation adds no pop and leaves RBUF, the counter and the descriptor (R221, R230). -/
theorem deselected_facts (f : Frame) (v : State) :
    (finish .ok 0 (enterPhase .idle (transact f (enterPhase .deselect v)))).popped = v.popped ∧
      (finish .ok 0 (enterPhase .idle (transact f (enterPhase .deselect v)))).port.rbuf = v.port.rbuf ∧
      (finish .ok 0 (enterPhase .idle (transact f (enterPhase .deselect v)))).bte.n = v.bte.n ∧
      (finish .ok 0 (enterPhase .idle (transact f (enterPhase .deselect v)))).cd = v.cd := by
  obtain ⟨-, -, hfinish⟩ := views_of_accesses_eq (finish_accesses .ok 0 (enterPhase .idle (transact f (enterPhase .deselect v))))
  refine ⟨?_, by simp, by simp, by simp⟩
  rw [hfinish, enterPhase_popped, transact_popped, enterPhase_popped]

/-- Settles O35: the set-up passes by its two replies, the drain pops the words placed, and DESELECT ends it with Ok. -/
theorem readOfPlacedBlock : Obligations.ReadOfPlacedBlock := by
  unfold Obligations.ReadOfPlacedBlock
  intro s block rs rr rd words hr hempty hlen hbound hwf hselected hfetched hdeselected hs
  obtain ⟨rest, hmoves⟩ := hs.onMoves
  simp only [List.append_assoc] at hmoves
  obtain ⟨u, written, hsetup, hat, hu, hurx⟩ := readSetup_passed hs.acknowledged hs.polled hmoves hselected hfetched
  obtain ⟨v, hdrain, hv, hvrx, hvpopped, hvport, hvn, hvcfg, hvcd⟩ :=
    drain_script hu (hurx.trans hempty) hlen (by rw [hat.cfg]; exact hbound)
  rw [← hvcfg.trans hat.cfg] at hv hdeselected
  obtain ⟨hend, hendrx, -⟩ := blockDeselect_script failRead hv (by rw [hvcfg, hat.cfg]; exact hs.polled) hdeselected
  obtain ⟨hpopped, hrbuf, hn, hcd⟩ := deselected_facts v.cfg.deselectFrame v
  refine ⟨blockDeselect failRead v,
    (exec_rdblk_inRange hr hs.acknowledged).trans (readBlock_of_drained hsetup hdrain), ?_⟩
  rw [hend, hpopped, hrbuf, hn, hcd, hvpopped, hat.popped, List.append_nil, hvport, hat.rbuf]
  exact ⟨rfl, rfl, hvn, rfl, hendrx.trans hvrx, hvcd.trans hat.cd, Memory.read_storeWords_block hwf hlen⟩

end read

section write

variable {s : State} {block : Word} {rs rw : Reply} {more : List EnvMove}

/-- SELECT of a write along a script: the state the first ready-for-data poll starts from (R222, R223). -/
theorem writeSetup_selected (hn : 1 ≤ s.cfg.nCmd)
    (h : s.env.OnMoves (rs.moves s.cfg (s.cfg.selectFrame s.cd.relativeAddress) ++ more))
    (hk : (rs.outcome s.cfg (s.cfg.selectFrame s.cd.relativeAddress)).kind = .accepted) :
    ∃ u, writeSetup (preamble block s) = (readyPoll u).andThen (fun v =>
        blockCommand (v.cfg.writeSingleFrame v.bte.addr) failWrite (enterPhase .command v)) ∧
      u.env.OnMoves more ∧ u.env.tx = s.env.tx ∧ u.port = s.port ∧ u.cd = s.cd ∧ u.cfg = s.cfg ∧
      u.bte.addr = translateBlock s.cd.cls block ∧
      u.writes = s.writes ++ commandWrites (s.cfg.selectFrame s.cd.relativeAddress) ∧ u.pushed = s.pushed := by
  obtain ⟨hmoves, -, -, htx, -, hgo, -⟩ :=
    blockCommand_script (s := enterPhase .select (preamble block s)) failWrite rfl h hn
  refine ⟨enterPhase .readyWait1 (transact (s.cfg.selectFrame s.cd.relativeAddress) (enterPhase .select (preamble block s))),
    ?_, hmoves, htx, transact_port _ _, transact_cd _ _, transact_cfg _ _, ?_, ?_, ?_⟩
  · exact congrArg (Flow.andThen · _) (hgo hk)
  · rw [enterPhase_bte, transact_bte]
    rfl
  · rw [enterPhase_writes, transact_writes, enterPhase_writes]
    rfl
  · rw [enterPhase_pushed, transact_pushed, enterPhase_pushed]
    rfl

/-- A write that ends in its set-up (R222, R231). -/
theorem writeBlock_of_ended {v : State} (h : writeSetup (preamble block s) = .ended v) : writeBlock block s = v := by
  rw [writeBlock, h]
  rfl

/-- Settles O41: SELECT passes, the `N_READY` busy answers leave no pass of the poll, and it ends with Timeout. -/
theorem writeReadyTimeout : Obligations.WriteReadyTimeout := by
  unfold Obligations.WriteReadyTimeout
  intro s block rs busy hr hselected hbusy hlen hs
  obtain ⟨rest, hmoves⟩ := hs.onMoves
  rw [List.append_assoc] at hmoves
  obtain ⟨u, hsetup, hu, -, -, hcd, hcfg, -, hwrites, hpushed⟩ := writeSetup_selected (block := block) hs.polled hmoves hselected
  obtain ⟨v, hloop, -, -, -, -, hvcd, -, -, hvwrites, hvpushed⟩ := readyLoop_busy busy (k := 0)
    (s := { u with bte := { u.bte with iter := 0 } }) hcfg hs.polled (congrArg CardDescriptor.relativeAddress hcd) hu hbusy
  have hpoll : readyPoll u = .ended (failWrite .timeout v) := by
    have hpasses : u.cfg.nReady = busy.length := by rw [hcfg, hlen]
    rw [readyPoll, hpasses]
    exact hloop
  refine ⟨failWrite .timeout v, ?_, rfl, rfl, (failWrite_cd _ _).trans (hvcd.trans hcd), ?_, ?_⟩
  · rw [exec_wrblk_next hr hs.acknowledged, writeBlock_of_ended]
    rw [hsetup, hpoll, Flow.andThen_ended]
  · rw [failWrite_writes, hvwrites, hlen]
    change u.writes ++ _ = _
    rw [hwrites, List.append_assoc]
    rfl
  · rw [failWrite_pushed, hvpushed]
    exact hpushed

/-- R41: a write of `P.ICR` makes no move of its own and raises no flag. -/
theorem Env.OnMoves.cleared {e : Env} (h : e.OnMoves more) (mask : BitVec 5) : (e.cleared mask).OnMoves more := by
  refine ⟨(Env.cleared_script mask e).trans h.script, (Env.noCommandFlag_iff _).2 fun i hi => ?_⟩
  rw [Env.cleared_latched, BitVec.getLsbD_and, (Env.noCommandFlag_iff e).1 h.flags i hi, Bool.false_and]

/-- Phase DataSetup of a write and its first word, with ENV quiet: DATAEND is cleared and stays so (R225 to R227). -/
theorem writeData_script (h : s.env.OnMoves (.quiet :: .quiet :: .quiet :: .quiet :: more)) :
    (writeData s).env.OnMoves more ∧ (writeData s).env.latched.getLsbD 4 = false ∧
      (writeData s).env.tx = s.env.tx ++ [s.port.wbuf.loadWord 0] := by
  obtain ⟨h1, -, htx1, -⟩ := h.quiet
  obtain ⟨h2, -, htx2, hlatched2⟩ := (h1.cleared 0b10000).quiet
  obtain ⟨h3, -, htx3, hlatched3⟩ := h2.quiet
  obtain ⟨h4, -, htx4, hlatched4⟩ := h3.quiet
  have hclear : (s.env.move.cleared 0b10000).latched.getLsbD 4 = false := Env.cleared_clears rfl
  refine ⟨⟨h4.script, h4.flags⟩, ?_, ?_⟩
  · exact (congrArg (BitVec.getLsbD · 4) (hlatched4.trans (hlatched3.trans hlatched2))).trans hclear
  · exact congrArg (· ++ [s.port.wbuf.loadWord 0]) (htx4.trans (htx3.trans (htx2.trans htx1)))

/-- The first word of a block, then the others (R227, R228). -/
theorem State.blockWords_eq_cons (s : State) : s.blockWords = [s.port.wbuf.loadWord 0] ++ s.blockWords.drop 1 := by
  have htake : s.blockWords.take 1 = [s.port.wbuf.loadWord 0] := s.blockWords_take (by decide)
  rw [← htake, List.take_append_drop]

/-- Phase Stream of a write along vector B8: all 128 words, then DATAEND (R227, R228). -/
theorem writeStream_script (h : s.env.OnMoves (.quiet :: .quiet :: .quiet :: .quiet :: (pushMoves ++ more)))
    (hbound : 128 ≤ s.cfg.nTx) :
    ∃ t, writeStream s = .running t ∧ t.env.OnMoves more ∧ t.env.latched.getLsbD 4 = true ∧
      t.env.tx = s.env.tx ++ s.blockWords ∧ t.port = s.port ∧ t.cd = s.cd ∧ t.cfg = s.cfg ∧ t.bte.n = 128 := by
  obtain ⟨hmoves, hdataEnd, htx⟩ := writeData_script h
  rw [pushMoves, List.append_assoc] at hmoves
  obtain ⟨t, hloop, ht, hlatched, httx, hport, hcd, hcfg, hn⟩ := pushLoop_script 127 (k := s.cfg.nTx)
    (s := { writeData s with bte := { (writeData s).bte with iter := 0 } }) hmoves hdataEnd rfl hbound
  refine ⟨t, hloop, ht, hlatched, ?_, hport, hcd, hcfg, hn⟩
  rw [s.blockWords_eq_cons, ← List.append_assoc, ← htx]
  exact httx

/-- The set-up of a write whose commands pass, with the ready-for-data flag after the busy answers `b` (R222 to R224). -/
theorem writeSetup_passed {r : Reply} {b : List Reply} (hn : 1 ≤ s.cfg.nCmd)
    (h : s.env.OnMoves (rs.moves s.cfg (s.cfg.selectFrame s.cd.relativeAddress) ++
      (answers s.cfg (readyExchanges s.cfg s.cd.relativeAddress (b ++ [r])) ++
        (rw.moves s.cfg (s.cfg.writeSingleFrame (translateBlock s.cd.cls block)) ++ more))))
    (hselected : (rs.outcome s.cfg (s.cfg.selectFrame s.cd.relativeAddress)).kind = .accepted)
    (hbusy : ∀ r ∈ b, StatusReply s.cfg s.cd.relativeAddress r false) (hready : StatusReply s.cfg s.cd.relativeAddress r true)
    (hlen : b.length < s.cfg.nReady)
    (hwritten : (rw.outcome s.cfg (s.cfg.writeSingleFrame (translateBlock s.cd.cls block))).kind = .accepted) :
    ∃ u, writeSetup (preamble block s) = .running u ∧ u.env.OnMoves more ∧ u.env.tx = s.env.tx ∧ u.port = s.port ∧
      u.cd = s.cd ∧ u.cfg = s.cfg := by
  obtain ⟨u, hsetup, hu, hutx, huport, hucd, hucfg, huaddr, -⟩ := writeSetup_selected (block := block) hn h hselected
  obtain ⟨v, hpoll, hv, hvtx, -, hvport, hvcd, hvcfg, -, hvaddr⟩ :=
    readyPoll_script b r hucfg hn (congrArg CardDescriptor.relativeAddress hucd) hu hbusy hready hlen
  obtain ⟨hmoves, -, -, htx, -, hgo, -⟩ :=
    blockCommand_script (s := enterPhase .command v) failWrite hvcfg hv hn
  refine ⟨transact (s.cfg.writeSingleFrame (translateBlock s.cd.cls block)) (enterPhase .command v), ?_, hmoves,
    (htx.trans hvtx).trans hutx, (transact_port _ _).trans (hvport.trans huport), (transact_cd _ _).trans (hvcd.trans hucd),
    (transact_cfg _ _).trans hvcfg⟩
  rw [hsetup, hpoll, Flow.andThen_running, hvcfg, hvaddr, huaddr]
  exact hgo hwritten

/-- Settles O40: the set-up, the stream and the second poll pass by their replies, and DESELECT ends the write with Ok. -/
theorem writeOfWholeBlock : Obligations.WriteOfWholeBlock := by
  unfold Obligations.WriteOfWholeBlock
  intro s block rs rw rd r1 r2 b1 b2 hr hbound hselected hbusy1 hbusy2 hready1 hready2 hlen1 hlen2 hwritten hdeselected hs
  obtain ⟨rest, hmoves⟩ := hs.onMoves
  simp only [List.append_assoc] at hmoves
  obtain ⟨u, hsetup, hu, hutx, huport, hucd, hucfg⟩ :=
    writeSetup_passed hs.polled hmoves hselected hbusy1 hready1 hlen1 hwritten
  obtain ⟨v, hstream, hv, hvlatched, hvtx, hvport, hvcd, hvcfg, hvn⟩ := writeStream_script hu (by rw [hucfg]; exact hbound)
  obtain ⟨w, hpoll, hw, hwtx, hwlatched, hwport, hwcd, hwcfg, hwn, -⟩ :=
    readyPoll_script b2 r2 (s := enterPhase .readyWait2 v) (hvcfg.trans hucfg) hs.polled
      (congrArg CardDescriptor.relativeAddress (hvcd.trans hucd)) hv hbusy2 hready2 hlen2
  rw [← hwcfg] at hw hdeselected
  obtain ⟨hend, -, hendtx, hendlatched⟩ := blockDeselect_script failWrite hw (by rw [hwcfg]; exact hs.polled) hdeselected
  obtain ⟨-, -, hn, hcd⟩ := deselected_facts w.cfg.deselectFrame w
  have hwrite : writeBlock block s = blockDeselect failWrite w := by
    rw [writeBlock, hsetup, Flow.andThen_running, hstream, Flow.andThen_running, hpoll, Flow.finally_running]
  have hwords : u.blockWords = s.blockWords := by rw [State.blockWords, huport, State.blockWords]
  refine ⟨blockDeselect failWrite w, (exec_wrblk_next hr hs.acknowledged).trans (congrArg _ hwrite), ?_⟩
  rw [hend, hn, hcd]
  refine ⟨rfl, rfl, hwn.trans hvn, ?tx, (hendlatched.trans hwlatched).trans hvlatched, (hwcd.trans hvcd).trans hucd⟩
  case tx => rw [← hwords, ← hutx, ← hvtx]; exact hendtx.trans hwtx

end write

end Sys2Proof.Machine
end

section
/-! SUPPORT. What one operation can do, case by case, and what follows of every operation: the host port, the frame, the
order of the accesses, the invariant of the machine (00_scope.md R11, 60_exceptions.md R280 to R286). -/

namespace Sys2Proof.Machine

/-! ## What an operation can do -/

/-- Every way an operation requested in `s` ends in a next state, by its instruction. -/
inductive Ran (s : State) : Instr → State → Prop
  | init (acknowledged : s.t.ackPending = false) : Ran s .init (initSequence s)
  | read {block t} (acknowledged : s.t.ackPending = false) (run : readBlock block s = .next t) : Ran s (.rdblk block) t
  | write {block} (acknowledged : s.t.ackPending = false) : Ran s (.wrblk block) (writeBlock block s)
  | outOfRange {i} (other : i ≠ .init) : Ran s i (failOp .boundsError 0 s)
  | isbusy (address : Rca) (acknowledged : s.t.ackPending = false) : Ran s (.isbusy address) (isBusy address s)
  | sendcmd {f} (shape : f.expectedResponse ≠ .reserved) (acknowledged : s.t.ackPending = false) :
      Ran s (.sendcmd f) (transmit f s)
  | ack : Ran s .ack (acknowledge s)
  | transaction {i f} (other : i ≠ .init) (shape : f.expectedResponse ≠ .reserved)
      (acknowledged : s.t.ackPending = false) : Ran s i (transact f s)
  | result {i} (st : Status) (v : BitVec 64) (other : i ≠ .init) : Ran s i (finish st v s)
  | decoded {cls w} (v : BitVec 64) : Ran s (.decode cls w) { s with decoded := v }

section ran

variable {i : Instr} {s t : State}

/-- A catalogue frame used as an operation, or TXN (R115, R139). -/
theorem Ran.of_issue {f : Frame} (hi : i ≠ .init) (h : issue f s = .next t) : Ran s i t := by
  obtain ⟨hf, ha, rfl⟩ := of_checked_next h
  exact .transaction hi hf ha

/-- RDBLK, by its checks (R216). -/
theorem Ran.of_rdblk {block : Word} (h : execRdblk block s = .next t) : Ran s (.rdblk block) t := by
  unfold execRdblk at h
  split_ifs at h with hrange hpending
  · exact .read (Bool.eq_false_iff.mpr hpending) h
  · cases h
    exact .outOfRange nofun

/-- WRBLK, by its checks (R222). -/
theorem Ran.of_wrblk {block : Word} (h : execWrblk block s = .next t) : Ran s (.wrblk block) t := by
  unfold execWrblk at h
  split_ifs at h with hrange hpending
  · cases h
    exact .write (Bool.eq_false_iff.mpr hpending)
  · cases h
    exact .outOfRange nofun

/-- An operation that answers a next state has run in one of the ways `Ran` lists. -/
theorem exec_ran (h : exec i s = .next t) : Ran s i t := by
  cases i with
  | init =>
    obtain ⟨-, ha, rfl⟩ := of_checked_next (f := s.cfg.goIdleFrame) (k := initSequence) h
    exact .init ha
  | rdblk block => exact .of_rdblk h
  | wrblk block => exact .of_wrblk h
  | isbusy address =>
    obtain ⟨-, ha, rfl⟩ := of_checked_next (f := s.cfg.getStatusFrame address) (k := isBusy address) h
    exact .isbusy address ha
  | sendcmd f =>
    obtain ⟨hf, ha, rfl⟩ := of_checked_next (f := f) (k := transmit f) h
    exact .sendcmd hf ha
  | ack => cases h; exact .ack
  | txn f => exact .of_issue (f := f) nofun h
  | goIdle => exact .of_issue (f := s.cfg.goIdleFrame) nofun h
  | sendIfCond => exact .of_issue (f := s.cfg.sendIfCondFrame) nofun h
  | appCmd rca => exact .of_issue (f := s.cfg.appCmdFrame rca) nofun h
  | sendOpCond b => exact .of_issue (f := s.cfg.sendOpCondFrame b) nofun h
  | publishRca => exact .of_issue (f := s.cfg.publishRcaFrame) nofun h
  | getCsd rca => exact .of_issue (f := s.cfg.getCsdFrame rca) nofun h
  | setBlocklen => exact .of_issue (f := s.cfg.setBlocklenFrame) nofun h
  | select rca => exact .of_issue (f := s.cfg.selectFrame rca) nofun h
  | deselect => exact .of_issue (f := s.cfg.deselectFrame) nofun h
  | setBusWidth => exact .of_issue (f := s.cfg.setBusWidthFrame) nofun h
  | readSingle addr => exact .of_issue (f := s.cfg.readSingleFrame addr) nofun h
  | writeSingle addr => exact .of_issue (f := s.cfg.writeSingleFrame addr) nofun h
  | getStatus rca => exact .of_issue (f := s.cfg.getStatusFrame rca) nofun h
  | volsz => cases h; exact .result _ _ nofun
  | blksz => cases h; exact .result _ _ nofun
  | isro => cases h; exact .result _ _ nofun
  | lasterr => cases h; exact .result _ _ nofun
  | illegal0 => cases h; exact .result _ _ nofun
  | illegal9 => cases h; exact .result _ _ nofun
  | illegal10to11 op => cases h; exact .result _ _ nofun
  | illegal12to15 op => cases h; exact .result _ _ nofun
  | decode cls w => cases h; exact .decoded _

/-- Either end of ISBUSY is its transaction with a result, and on failure the phase Idle (R250, R282). -/
theorem isBusy_cases (address : Rca) (s : State) :
    (∃ v, isBusy address s = finish .ok v (transact (s.cfg.getStatusFrame address) s)) ∨
      isBusy address s = failOp .protocolError 1 (transact (s.cfg.getStatusFrame address) s) := by
  by_cases hk : (transact (s.cfg.getStatusFrame address) s).t.outcome.kind = .accepted
  · exact .inl ⟨_, isBusy_of_accepted hk⟩
  · exact .inr (isBusy_of_not_accepted hk)

/-- Either end of a read keeps what a block operation keeps (R216, R231). -/
theorem readBlock_blockEnd {block : Word} (ha : s.t.ackPending = false) (h : readBlock block s = .next t) :
    ∃ written words, BlockEnd s block written words t := by
  obtain ⟨t', ht', hend⟩ := readBlock_end (block := block) ha
  obtain rfl : t' = t := by rw [h] at ht'; cases ht'; rfl
  rcases hend with ⟨-, words, -, -, hblock, -⟩ | ⟨-, written, words, hblock, -⟩
  · exact ⟨_, words, hblock⟩
  · exact ⟨written, words, hblock⟩

/-- Either end of a write keeps what a block operation keeps (R222, R231). -/
theorem writeBlock_blockEnd (block : Word) (ha : s.t.ackPending = false) :
    ∃ written, BlockEnd s block written [] (writeBlock block s) := by
  obtain ⟨-, -, -, written, -, hblock, -⟩ := writeBlock_common block ha
  exact ⟨written, hblock⟩

/-! ## The frame of every operation -/

/-- R20, R29, R87: the parameters and WBUF belong to no operation, the descriptor and the sequencer to INIT alone. -/
theorem Ran.frame (h : Ran s i t) :
    t.cfg = s.cfg ∧ t.port.wbuf = s.port.wbuf ∧ (i ≠ .init → t.cd = s.cd ∧ t.seq = s.seq) := by
  cases h with
  | init ha =>
    have hbase : InitBase s (initSequence s) := initSequence_base ha
    exact ⟨hbase.cfg, hbase.wbuf, fun hi => absurd rfl hi⟩
  | read ha hrun =>
    obtain ⟨written, words, hblock⟩ := readBlock_blockEnd ha hrun
    exact ⟨hblock.cfg, hblock.wbuf, fun _ => ⟨hblock.cd, hblock.seq⟩⟩
  | write ha =>
    obtain ⟨written, hblock⟩ := writeBlock_blockEnd _ ha
    exact ⟨hblock.cfg, hblock.wbuf, fun _ => ⟨hblock.cd, hblock.seq⟩⟩
  | isbusy address ha => rcases isBusy_cases address s with ⟨v, heq⟩ | heq <;> rw [heq] <;> simp
  | outOfRange _ => simp
  | sendcmd _ _ => simp
  | ack => simp
  | transaction _ _ _ => simp
  | result _ _ _ => simp
  | decoded _ => simp

/-- Settles O51: the frame of `Ran`; the mode is read off the descriptor. -/
theorem onlyInitWritesDescriptor : Obligations.OnlyInitWritesDescriptor := by
  unfold Obligations.OnlyInitWritesDescriptor
  intro i s t h
  obtain ⟨hcfg, hwbuf, hcard⟩ := (exec_ran h).frame
  refine ⟨hcfg, hwbuf, fun hi => ?_⟩
  obtain ⟨hcd, hseq⟩ := hcard hi
  exact ⟨hcd, hseq, by rw [State.mode, hcd, State.mode]⟩

/-! ## The order of the accesses (20_memory.md R81) -/

/-- With everything acknowledged an operation starts in order. -/
theorem Ordered.refl (ha : s.t.ackPending = false) : Ordered s s :=
  ⟨ha, [], (List.append_nil _).symm, by rw [State.stage, ha]; rfl⟩

theorem State.stage_of_acknowledged (ha : s.t.ackPending = false) : s.stage = .idle := by
  rw [State.stage, ha, if_neg Bool.false_ne_true]

theorem State.stage_of_pending (ha : s.t.ackPending = true) : s.stage = .pending := by
  rw [State.stage, ha, if_pos rfl]

/-- The accesses made from `s` to `t` are in order. -/
def State.InOrder (s t : State) : Prop := ∃ made, t.accesses = s.accesses ++ made ∧ s.stage.run made = some t.stage

/-- What keeps the order keeps it to its end. -/
theorem Ordered.inOrder (h : Ordered s t) : s.InOrder t := by
  obtain ⟨ha, made, hmade, hrun⟩ := h
  exact ⟨made, hmade, by rw [hrun, State.stage_of_acknowledged ha]⟩

/-- An operation that makes no access and leaves the acknowledgment alone. -/
theorem State.InOrder.of_same (hacc : t.accesses = s.accesses) (ht : t.t = s.t) : s.InOrder t :=
  ⟨[], hacc.trans (List.append_nil _).symm, by rw [State.stage, State.stage, ht]; rfl⟩

/-- R130: SENDCMD starts its command and leaves it to be acknowledged. -/
theorem transmit_inOrder (f : Frame) (ha : s.t.ackPending = false) : s.InOrder (transmit f s) := by
  obtain ⟨answer, hanswered, -, htrace⟩ := transmit_trace f s
  refine ⟨[.writeArg f.argument, .writeCmd (commandWord f)] ++ answer, by rw [htrace, List.append_assoc], ?_⟩
  rw [State.stage_of_acknowledged ha, State.stage_of_pending (transmit_ackPending f s), CommandStage.run_append,
    CommandStage.run_start, Option.bind_some, hanswered.run]

/-- R136: ACK ends the command where one is to be acknowledged, and may come outside one. -/
theorem acknowledge_inOrder (s : State) : s.InOrder (acknowledge s) := by
  refine ⟨[.writeIcr 0b01111], acknowledge_accesses s, ?_⟩
  rw [State.stage_of_acknowledged (acknowledge_ackPending s)]
  cases hs : s.stage with
  | idle => rfl
  | pending => rfl
  | argument =>
    unfold State.stage at hs
    split at hs <;> cases hs

/-- Settles O53: INIT and the block operations by the induction `ordered_closed`; the others by their few accesses. -/
theorem accessesInOrder : Obligations.AccessesInOrder := by
  unfold Obligations.AccessesInOrder
  intro i s t h
  change s.InOrder t
  have closed : Closed (Ordered s) := ordered_closed s
  cases exec_ran h with
  | init ha => exact (closed.ofInitSequence (.refl ha)).inOrder
  | read ha hrun => exact (closed.ofReadBlock (.refl ha) hrun).inOrder
  | write ha => exact (closed.ofWriteBlock (.refl ha)).inOrder
  | isbusy address ha =>
    have hsent : Ordered s (transact (s.cfg.getStatusFrame address) s) := closed.ofTransact (.refl ha) _ (by simp)
    rcases isBusy_cases address s with ⟨v, heq⟩ | heq <;> rw [heq]
    · exact (closed.ofFinish hsent _ _).inOrder
    · exact (closed.ofFailOp hsent _ _).inOrder
  | outOfRange _ => exact .of_same rfl rfl
  | sendcmd _ ha => exact transmit_inOrder _ ha
  | ack => exact acknowledge_inOrder s
  | transaction _ hf ha => exact (closed.ofTransact (.refl ha) _ hf).inOrder
  | result _ _ _ => exact .of_same rfl rfl
  | decoded _ => exact .of_same rfl rfl

/-! ## The invariant between operations -/

/-- What INIT leaves of the descriptor and the sequencer where it ends in Ready (R175, R177, R182). -/
theorem InitReady.card_inv (h : InitReady s t) : t.cd.Inv ∧ SequencerInv t.seq t.cd.cls := by
  have hcls : t.cd.cls = .standardCapacity ∨ t.cd.cls = .highCapacity := h.cls ▸ finalClass_cases _ _
  have hunknown : t.cd.cls ≠ .unknown := by rcases hcls with hc | hc <;> rw [hc] <;> decide
  have herror : t.cd.cls ≠ .error := by rcases hcls with hc | hc <;> rw [hc] <;> decide
  obtain ⟨htentative, -, -⟩ := h.facts
  exact ⟨⟨fun hc => absurd hc hunknown, fun hc => absurd hc herror, fun _ => h.errorNone,
      h.blockCount_toNat ▸ decodeBlocks_le _ _⟩,
    ⟨fun hc => absurd hc hunknown, fun hc => absurd hc herror, fun _ => ⟨h.state, htentative⟩⟩⟩

/-- What INIT leaves of them where it aborts (R183). -/
theorem InitAborted.card_inv (h : InitAborted s t) : t.cd.Inv ∧ SequencerInv t.seq t.cd.cls := by
  have hunknown : t.cd.cls ≠ .unknown := by rw [h.cls]; decide
  have hready : ¬(t.cd.cls = .standardCapacity ∨ t.cd.cls = .highCapacity) := by rw [h.cls]; decide
  exact ⟨⟨fun hc => absurd hc hunknown, fun _ => ⟨h.relativeAddress, h.blockCount, h.code⟩, fun hc => absurd h.cls hc,
      by rw [h.blockCount]; decide⟩,
    ⟨fun hc => absurd hc hunknown, fun _ => h.state, fun hc => absurd hc hready⟩⟩

/-- The part of the invariant an operation keeps between its commands, with the rest put back. -/
theorem Settled.inv (h : Settled s) (hcd : s.cd.Inv) (hseq : SequencerInv s.seq s.cd.cls) (hbte : s.bte.Inv) : s.Inv :=
  { cd := hcd, seq := hseq, t := h.t, p := h.p, bte := hbte, clear := h.clear, paired := fun _ => h.armed,
    wbuf := h.wbuf, rbuf := h.rbuf }

/-- A change of the request, the result, the decoder's output or the phase, to Idle. -/
theorem State.Inv.of_same (h : s.Inv) (hcd : t.cd = s.cd) (hseq : t.seq = s.seq) (ht : t.t = s.t) (hp : t.p = s.p)
    (he : t.env = s.env) (hw : t.port.wbuf = s.port.wbuf) (hr : t.port.rbuf = s.port.rbuf) (hphase : t.bte.phase = .idle)
    (hn : t.bte.n = s.bte.n) : t.Inv where
  cd := hcd ▸ h.cd
  seq := by rw [hseq, hcd]; exact h.seq
  t := ht ▸ h.t
  p := hp ▸ h.p
  bte := ⟨hphase, hn ▸ h.bte.count⟩
  clear := he ▸ h.clear
  paired := by rw [ht, he]; exact h.paired
  wbuf := hw ▸ h.wbuf
  rbuf := hr ▸ h.rbuf

/-- INIT (R170). -/
theorem initSequence_inv (h : s.Inv) (ha : s.t.ackPending = false) : (initSequence s).Inv := by
  have hsettled : Settled (initSequence s) := settled_closed.ofInitSequence (h.settled ha)
  obtain ⟨hcd, hseq⟩ : (initSequence s).cd.Inv ∧ SequencerInv (initSequence s).seq (initSequence s).cd.cls :=
    (initSequence_end s ha).elim InitReady.card_inv InitAborted.card_inv
  exact hsettled.inv hcd hseq ((initSequence_base ha).bte ▸ h.bte)

/-- The end of a block operation (R221, R230, R231). -/
theorem BlockEnd.inv {block : Word} {written : List Access} {words : List Word} (hblock : BlockEnd s block written words t)
    (h : s.Inv) (hsettled : Settled t) : t.Inv :=
  hsettled.inv (hblock.cd ▸ h.cd) (by rw [hblock.seq, hblock.cd]; exact h.seq) ⟨hblock.phase, hblock.count⟩

/-- SENDCMD leaves its command to be acknowledged, so that its flags may be seen (R130, R137). -/
theorem transmit_inv {f : Frame} (hf : f.expectedResponse ≠ .reserved) (h : s.Inv) : (transmit f s).Inv where
  cd := (transmit_cd f s).symm ▸ h.cd
  seq := by rw [transmit_seq, transmit_cd]; exact h.seq
  t := transmit_t_inv f s hf
  p := by
    rw [transmit_p]
    exact ⟨commandWord_shape f hf, .inr (commandWord_start f), h.p.dlen, h.p.dctrl⟩
  bte := (transmit_bte f s).symm ▸ h.bte
  clear := transmit_clearLaw f h.clear
  paired hacknowledged := by
    rw [transmit_ackPending] at hacknowledged
    cases hacknowledged
  wbuf := (transmit_port f s).symm ▸ h.wbuf
  rbuf := (transmit_port f s).symm ▸ h.rbuf

/-- ACK clears the command flags and disarms them (R136, R137). -/
theorem acknowledge_inv (h : s.Inv) : (acknowledge s).Inv where
  cd := h.cd
  seq := h.seq
  t := ⟨h.t.shape, h.t.words⟩
  p := h.p
  bte := h.bte
  clear := by
    rw [acknowledge_env]
    exact h.clear.move.cleared _
  paired _ := by
    rw [acknowledge_env]
    exact Env.armed_cleared s.env
  wbuf := h.wbuf
  rbuf := h.rbuf

/-- One transaction (R139). -/
theorem transact_inv {f : Frame} (hf : f.expectedResponse ≠ .reserved) (h : s.Inv) : (transact f s).Inv :=
  acknowledge_inv (transmit_inv hf h)

/-- Every operation keeps the invariant, INIT and the block operations by the induction `settled_closed`. -/
theorem Ran.inv (hrun : Ran s i t) (h : s.Inv) : t.Inv := by
  cases hrun with
  | init ha => exact initSequence_inv h ha
  | read ha hread =>
    obtain ⟨written, words, hblock⟩ := readBlock_blockEnd ha hread
    exact hblock.inv h (settled_closed.ofReadBlock (h.settled ha) hread)
  | write ha =>
    obtain ⟨written, hblock⟩ := writeBlock_blockEnd _ ha
    exact hblock.inv h (settled_closed.ofWriteBlock (h.settled ha))
  | isbusy address ha =>
    have hsent : (transact (s.cfg.getStatusFrame address) s).Inv := transact_inv (by simp) h
    rcases isBusy_cases address s with ⟨v, heq⟩ | heq <;> rw [heq]
    · exact hsent.of_same rfl rfl rfl rfl rfl rfl rfl hsent.bte.idle rfl
    · exact hsent.of_same rfl rfl rfl rfl rfl rfl rfl rfl rfl
  | outOfRange _ => exact h.of_same rfl rfl rfl rfl rfl rfl rfl rfl rfl
  | sendcmd hf _ => exact transmit_inv hf h
  | ack => exact acknowledge_inv h
  | transaction _ hf _ => exact transact_inv hf h
  | result _ _ _ => exact h.of_same rfl rfl rfl rfl rfl rfl rfl h.bte.idle rfl
  | decoded _ => exact h.of_same rfl rfl rfl rfl rfl rfl rfl h.bte.idle rfl

/-! ## A step -/

/-- R310: with no request in progress a step waits. -/
theorem step_of_no_request (hr : s.port.request = none) : step s = .next s := by
  rw [step, hr]

/-- R11: a step of a request that decodes runs its instruction and ends the operation. -/
theorem step_of_request {r : Request} (hr : s.port.request = some r) (hd : decode s.cfg r = .ok i) :
    step s = match exec i s with
      | .next t => .next t.endOperation
      | .fault f => .fault f
      | .refused e => .refused e := by
  rw [step, hr]
  dsimp only
  generalize decode s.cfg r = d at hd ⊢
  subst hd
  rfl

/-- R11: a step of a request that does not decode is refused. -/
theorem step_of_undecodable {r : Request} {e : DecodeError} (hr : s.port.request = some r)
    (hd : decode s.cfg r = .error e) : step s = .refused (.undecodable e) := by
  rw [step, hr]
  dsimp only
  rw [hd]

/-- A step that answers a next state has waited, or run an instruction and ended its operation (R11, R46, R310). -/
theorem step_next_cases (h : step s = .next t) : t = s ∨ ∃ i u, exec i s = .next u ∧ t = u.endOperation := by
  cases hr : s.port.request with
  | none =>
    rw [step_of_no_request hr] at h
    cases h
    exact .inl rfl
  | some r =>
    cases hd : decode s.cfg r with
    | error e =>
      rw [step_of_undecodable hr hd] at h
      cases h
    | ok i =>
      rw [step_of_request hr hd] at h
      cases hu : exec i s with
      | next u =>
        rw [hu] at h
        cases h
        exact .inr ⟨i, u, hu, rfl⟩
      | fault f => rw [hu] at h; cases h
      | refused e => rw [hu] at h; cases h

/-- Settles O54: the operation keeps the invariant (`Ran.inv`), and ending it touches the request only. -/
theorem invKept : Obligations.InvKept := by
  unfold Obligations.InvKept
  intro s t h hstep
  rcases step_next_cases hstep with rfl | ⟨i, u, hexec, rfl⟩
  · exact h
  · have hu : u.Inv := (exec_ran hexec).inv h
    exact hu.of_same rfl rfl rfl rfl rfl rfl rfl hu.bte.idle rfl

/-- Settles O55: every register is at a value that its clause names. -/
theorem invAtReset : Obligations.InvAtReset where
  cd := ⟨fun _ => ⟨rfl, rfl, rfl⟩, nofun, fun _ => rfl, by decide⟩
  seq := ⟨fun _ => rfl, nofun, nofun⟩
  t := ⟨by decide, fun _ _ => rfl⟩
  p := ⟨by decide, .inl rfl, .inl rfl, .inl rfl⟩
  bte := ⟨rfl, by decide⟩
  clear := by unfold Env.ClearLaw; decide
  paired _ := rfl
  wbuf := rfl
  rbuf := rfl

/-- Settles O48: `endOperation` is the update the statement writes out. -/
theorem stepRunsDecoded : Obligations.StepRunsDecoded := by
  unfold Obligations.StepRunsDecoded
  intro s r i hr hd
  exact step_of_request hr hd

/-- R62: a request is taken with its write buffer where none is in progress. -/
theorem present_of_no_request (hr : s.port.request = none) (r : Request) (wbuf : Vector Byte 512) :
    s.present r wbuf = { s with port := { s.port with request := some r, wbuf := Memory.ofBytes wbuf } } := by
  rw [State.present, hr]

/-- R323: a second request has no effect. -/
theorem present_of_request (hr : s.port.request ≠ none) (r : Request) (wbuf : Vector Byte 512) :
    s.present r wbuf = s := by
  obtain ⟨r', hr'⟩ := Option.ne_none_iff_exists'.mp hr
  rw [State.present, hr']

/-- Presenting a request keeps the invariant: a buffer presented is canonical. -/
theorem present_inv (h : s.Inv) (r : Request) (wbuf : Vector Byte 512) : (s.present r wbuf).Inv := by
  by_cases hr : s.port.request = none
  · rw [present_of_no_request hr]
    exact { cd := h.cd, seq := h.seq, t := h.t, p := h.p, bte := h.bte, clear := h.clear, paired := h.paired,
            wbuf := Memory.wf_ofBytes wbuf, rbuf := h.rbuf }
  · rw [present_of_request hr]
    exact h

/-- Settles O49: the buffer taken is `Memory.ofBytes` of the bytes presented. -/
theorem hostPort : Obligations.HostPort := by
  unfold Obligations.HostPort
  intro s r wbuf
  refine ⟨fun hr => ⟨step_of_no_request hr, _, present_of_no_request hr r wbuf, Memory.wf_ofBytes wbuf, ?_, ?_⟩,
    fun hr => present_of_request hr r wbuf, fun h => present_inv h r wbuf⟩
  · intro k hk
    rw [Memory.read_ofBytes, dif_pos hk]
  · intro k hk
    rw [Memory.read_ofBytes, dif_neg (Nat.not_lt.mpr hk)]

end ran

end Sys2Proof.Machine
end

section
/-! SUPPORT. Every operation of the host comes to an end, and ISBUSY does so whatever the descriptor
(45_status_query_and_accessors.md R250, 60_exceptions.md R280 to R283). -/

namespace Sys2Proof.Machine

/-! ## The operations of the host -/

/-- The instructions of format H (30_encoding.md R96). -/
inductive HostInstr : Instr → Prop
  | init : HostInstr .init
  | rdblk (block : Word) : HostInstr (.rdblk block)
  | wrblk (block : Word) : HostInstr (.wrblk block)
  | volsz : HostInstr .volsz
  | blksz : HostInstr .blksz
  | isro : HostInstr .isro
  | lasterr : HostInstr .lasterr
  | isbusy (address : Rca) : HostInstr (.isbusy address)
  | illegal0 : HostInstr .illegal0
  | illegal9 : HostInstr .illegal9
  | illegal10to11 (op : BitVec 4) : HostInstr (.illegal10to11 op)
  | illegal12to15 (op : BitVec 4) : HostInstr (.illegal12to15 op)

/-- A format H word decodes to an instruction of format H: the op code selects it (R96). -/
theorem decodeHost_hostInstr (w : BitVec 36) : HostInstr (decodeHost w) := by
  unfold decodeHost
  dsimp only
  split <;> constructor

/-- With nothing pending an instruction of format H ends in a next state: its accesses meet no hazard. -/
theorem HostInstr.exec_next {i : Instr} {s : State} (hi : HostInstr i) (ha : s.t.ackPending = false) :
    ∃ t, exec i s = .next t := by
  cases hi with
  | init => exact ⟨_, exec_init_next ha⟩
  | rdblk block =>
    by_cases hr : s.cd.InRange block
    · obtain ⟨t, ht, -⟩ := readBlock_end (block := block) ha
      exact ⟨t, (exec_rdblk_inRange hr ha).trans ht⟩
    · exact ⟨_, (exec_block_outOfRange hr).1⟩
  | wrblk block =>
    by_cases hr : s.cd.InRange block
    · exact ⟨_, exec_wrblk_next hr ha⟩
    · exact ⟨_, (exec_block_outOfRange hr).2⟩
  | isbusy address => exact ⟨_, exec_isbusy_next address ha⟩
  | volsz => exact ⟨_, rfl⟩
  | blksz => exact ⟨_, rfl⟩
  | isro => exact ⟨_, rfl⟩
  | lasterr => exact ⟨_, rfl⟩
  | illegal0 => exact ⟨_, rfl⟩
  | illegal9 => exact ⟨_, rfl⟩
  | illegal10to11 op => exact ⟨_, rfl⟩
  | illegal12to15 op => exact ⟨_, rfl⟩

/-- Every operation but SENDCMD that starts with nothing pending ends with nothing pending (R137, R139). -/
theorem Ran.ackPending {i : Instr} {s t : State} (hrun : Ran s i t) (hi : ∀ f, i ≠ .sendcmd f)
    (ha : s.t.ackPending = false) : t.t.ackPending = false := by
  cases hrun with
  | init _ => exact (initSequence_end s ha).elim InitReady.acknowledged InitAborted.acknowledged
  | read _ hread =>
    obtain ⟨written, words, hblock⟩ := readBlock_blockEnd ha hread
    exact hblock.acknowledged
  | write _ =>
    obtain ⟨written, hblock⟩ := writeBlock_blockEnd _ ha
    exact hblock.acknowledged
  | isbusy address _ => rcases isBusy_cases address s with ⟨v, heq⟩ | heq <;> rw [heq] <;> rfl
  | sendcmd _ _ => exact absurd rfl (hi _)
  | outOfRange _ => exact ha
  | ack => rfl
  | transaction _ _ _ => rfl
  | result _ _ _ => exact ha
  | decoded _ => exact ha

/-- SENDCMD is not an instruction of format H. -/
theorem HostInstr.ne_sendcmd {i : Instr} (hi : HostInstr i) (f : Frame) : i ≠ .sendcmd f := by
  rintro rfl
  cases hi

/-- Settles O50: the instruction a format H word decodes to ends in a next state (`HostInstr.exec_next`) with everything
acknowledged (`Ran.ackPending`); its step then ends the operation. -/
theorem hostOperationsEnd : Obligations.HostOperationsEnd := by
  unfold Obligations.HostOperationsEnd
  intro s w hr ha
  have hi : HostInstr (decodeHost w) := decodeHost_hostInstr w
  obtain ⟨u, hu⟩ := hi.exec_next ha
  refine ⟨u.endOperation, ?_, (exec_ran hu).ackPending hi.ne_sendcmd ha, rfl⟩
  rw [step_of_request hr (i := decodeHost w) rfl, hu]

/-! ## ISBUSY and the descriptor (R250) -/

/-- The status poll does not see the descriptor. -/
theorem pollStatus_withCd (cd : CardDescriptor) (k : Nat) (s : State) :
    pollStatus k { s with cd := cd } = ({ (pollStatus k s).1 with cd := cd }, (pollStatus k s).2) := by
  induction k generalizing s with
  | zero => rfl
  | succ k ih =>
    by_cases hflag : anyCommandFlag (readSta s).2 = true
    · rw [pollStatus, pollStatus, if_pos hflag]
      exact if_pos hflag
    · rw [pollStatus, pollStatus, if_neg hflag]
      exact (if_neg hflag).trans (ih { (readSta s).1 with t := { (readSta s).1.t with n := (readSta s).1.t.n + 1 } })

/-- Nor does the classification of the answer. -/
theorem classify_withCd (cd : CardDescriptor) (f : Frame) (sta : Option (BitVec 7)) (s : State) :
    classify f sta { s with cd := cd } = ({ (classify f sta s).1 with cd := cd }, (classify f sta s).2) := by
  cases sta with
  | none => rfl
  | some v =>
    unfold classify
    by_cases hrend : staCmdRend v = true
    · simp only [if_pos hrend]
      rfl
    · simp only [if_neg hrend]
      split_ifs <;> rfl

/-- Nor does the extraction of the response words. -/
theorem extract_withCd (cd : CardDescriptor) (f : Frame) (kind : OutcomeKind) (s : State) :
    extract f kind { s with cd := cd } = ({ (extract f kind s).1 with cd := cd }, (extract f kind s).2) := by
  unfold extract
  split_ifs
  · cases f.expectedResponse <;> rfl
  · rfl

/-- So the transaction does not. -/
theorem transact_withCd (cd : CardDescriptor) (f : Frame) (s : State) :
    transact f { s with cd := cd } = { transact f s with cd := cd } := by
  have hstart : startCommand f { s with cd := cd } = { startCommand f s with cd := cd } := rfl
  have hsent : transmit f { s with cd := cd } = { transmit f s with cd := cd } := by
    unfold transmit
    rw [hstart]
    dsimp only
    rw [pollStatus_withCd]
    dsimp only
    rw [classify_withCd]
    dsimp only
    rw [extract_withCd]
  rw [transact, hsent]
  rfl

/-- Either end of ISBUSY keeps the descriptor it finds. -/
theorem isBusy_withCd (cd : CardDescriptor) (address : Rca) (s : State) :
    isBusy address { s with cd := cd } = { isBusy address s with cd := cd } := by
  have hsent : transact (s.cfg.getStatusFrame address) { s with cd := cd } =
      { transact (s.cfg.getStatusFrame address) s with cd := cd } := transact_withCd cd _ s
  by_cases hk : (transact (s.cfg.getStatusFrame address) s).t.outcome.kind = .accepted
  · rw [isBusy_of_accepted hk, isBusy_of_accepted (s := { s with cd := cd }) (by rw [hsent]; exact hk), hsent]
    rfl
  · rw [isBusy_of_not_accepted hk, isBusy_of_not_accepted (s := { s with cd := cd }) (by rw [hsent]; exact hk), hsent]
    rfl

/-- Settles O44: nothing that ISBUSY runs looks at the descriptor or changes it. -/
theorem isbusyIgnoresDescriptor : Obligations.IsbusyIgnoresDescriptor := by
  unfold Obligations.IsbusyIgnoresDescriptor
  intro s address cd ha
  exact ⟨_, _, exec_isbusy_next address ha, exec_isbusy_next address ha, isBusy_withCd cd address s⟩

end Sys2Proof.Machine
end
